-- ==== Sys2Proof/Word.lean ====
section
/-! DEFINITION. The widths of the spec (00_scope.md R4, R6) and the two index types: the four channels and
the three tone channels. -/

namespace Sys2Proof

/-- An 8-bit value: the bus byte (R60). -/
abbrev Byte := BitVec 8

/-- An unsigned 32-bit value: steps, phase accumulators, amplitudes, table entries (R13 to R15, R20 to R22). -/
abbrev U32 := BitVec 32

/-- An unsigned 16-bit value: the noise shift register and its mask (R16, R17). -/
abbrev U16 := BitVec 16

/-- The content of an accumulator cell, an `i32`: 32 bits read in two's complement by `BitVec.toInt` (R23, R41). -/
abbrev CellWord := BitVec 32

/-- The four generator lanes; `c3` is the noise channel (00_scope.md, glossary "channel"). -/
inductive Chan where
  | c0 | c1 | c2 | c3
  deriving DecidableEq, Repr

/-- The three tone channels. -/
inductive ToneCh where
  | t0 | t1 | t2
  deriving DecidableEq, Repr

/-- The channel that a tone channel is. -/
def ToneCh.chan : ToneCh → Chan
  | .t0 => .c0
  | .t1 => .c1
  | .t2 => .c2

/-- The two accumulator arrays, `accL` and `accR` (R23). -/
inductive Side where
  | left | right
  deriving DecidableEq, Repr

/-- Four like things, one for each index 0 to 3. -/
structure Quad (α : Type) where
  q0 : α
  q1 : α
  q2 : α
  q3 : α
  deriving DecidableEq, Repr

/-- Element `c` of a quad. -/
def Quad.get {α : Type} (q : Quad α) : Chan → α
  | .c0 => q.q0
  | .c1 => q.q1
  | .c2 => q.q2
  | .c3 => q.q3

/-- The quad with element `c` replaced. -/
def Quad.set {α : Type} (q : Quad α) (c : Chan) (v : α) : Quad α :=
  match c with
  | .c0 => { q with q0 := v }
  | .c1 => { q with q1 := v }
  | .c2 => { q with q2 := v }
  | .c3 => { q with q3 := v }

/-- The quad that holds one value four times. -/
def Quad.all {α : Type} (v : α) : Quad α := ⟨v, v, v, v⟩

end Sys2Proof
end

