-- ==== Sys2Proof/Config.lean ====
section
/-! DEFINITION. What an implementation fixes (00_scope.md R4, 93_implementation_defined.md U8) and the free values. The parameters are plain data that
State holds and no transaction writes: a statement about every state holds for every value of them. -/

namespace Sys2Proof

/-- The implementation parameters that are neither operands of a transaction nor draws: those of 00_scope.md R4, and the
tables that R101, R112 and R125 ask a model to take as numbers. Log 9. -/
structure Config where
  /-- SEG_CAP: the number of cells of each accumulator array. -/
  segCap : Nat
  /-- MAX_OUTPUT: the full-scale constant of the volume table. -/
  maxOutput : U32
  /-- The 16 numbers of `volumeTable` (R101, U8), as R102 admits them; `none` is the table of R100 from MAX_OUTPUT. -/
  volumeTable : Option (Vector U32 16)
  /-- The 1024 numbers of `stepTable` (R112, U8) for the operands that the implementation is configured with, entry 0
  among them; `none` is the table of R110 and R111 from the operands. Log 13. -/
  stepTable : Option (Vector U32 1024)
  /-- STEP_DIV0: `stepTable[0]` where the table is that of R110; `none` is decision D6, the value of `stepTable[1]`. -/
  stepDiv0 : Option U32
  /-- NOISE_STEP[0..2]: `none` is decision D7, the formula of R125. -/
  noiseStep : Option (U32 × U32 × U32)
  /-- GG_STEREO_FIXED: the byte written to the save record's `gg_stereo`. -/
  ggStereo : Byte
  /-- DBG_ERR: the negative sentinel of the debug accessors. -/
  dbgErr : Int
  /-- DRAIN_CLEARS_ALL: whether a drain zeroes every cell or only the drained ones (C3). -/
  drainClearsAll : Bool
  deriving DecidableEq, Repr

/-- The volume tables that R102 admits: never rising, silent at index 15, and at most a third of MAX_OUTPUT. -/
abbrev VolumeTableAdmitted (maxOutput : U32) (t : Vector U32 16) : Prop :=
  (∀ i j : Fin 16, i ≤ j → t[j].toNat ≤ t[i].toNat) ∧ t[15] = 0 ∧ ∀ i : Fin 16, 3 * t[i].toNat ≤ maxOutput.toNat

/-- The admitted parameter values: SEG_CAP is a positive integer, DBG_ERR a negative one (R4), and a volume table that
is given has the property of R102. -/
abbrev Config.Valid (k : Config) : Prop :=
  0 < k.segCap ∧ k.dbgErr < 0 ∧ ∀ t ∈ k.volumeTable, VolumeTableAdmitted k.maxOutput t

/-- The defaults of R4, and where R4 gives only what the vectors use, that value. Log 9, log 10, log 26. -/
def Config.default : Config where
  segCap := 16
  maxOutput := 0x4FFF#32
  volumeTable := none
  stepTable := none
  stepDiv0 := none
  noiseStep := none
  ggStereo := 0x00#8
  dbgErr := -1
  drainClearsAll := true

/-- FREE VALUE. LATCH_RESET, the value of `latch` after the `k`-th `CONFIG` (R28, D10: a draw from 0..7). Log 3. -/
opaque Config.latchDraw : Nat → BitVec 3

/-- FREE VALUE. `noiseStepTable[3]` after the `k`-th `CONFIG` (R21, R28: unspecified, never read). Log 4. -/
opaque Config.noiseStep3Draw : Nat → U32

end Sys2Proof
end

