-- ==== Sys2Proof/Syntax.lean ====
section
/-! DEFINITION. The transactions of the block: one constructor of `Instr` for each row of spec/opcode_table.json, with
the operands that travel beside the transaction word (30_encoding.md R66, R69). -/

namespace Sys2Proof

/-- The flush operands `[n, p]` of a flushing transaction (44_accumulator.md R144). -/
structure FlushArgs where
  /-- `n`: the output samples pending since the last flush. -/
  n : Nat
  /-- `p`: the new write position; `none` is the position `cur` of R69, "the cursor is left as it is". Log 20. -/
  p : Option Nat
  deriving DecidableEq, Repr

/-- The bracket that is left off, `[0, cur]` (R69). -/
def FlushArgs.leftOff : FlushArgs := ⟨0, none⟩

/-- The save record: five named fields of unsigned integers (46_config_save_debug.md R178). The numbers are not
bounded here: `RESTORE` takes any record and masks (R179, R202). Log 30. -/
structure SaveRecord where
  toneReg : Quad Nat
  volReg : Quad Nat
  toneCtr : Quad Nat
  lfsrState : Nat
  ggStereo : Nat
  deriving DecidableEq, Repr

/-- The transactions. -/
inductive Instr where
  /-- `WR` of a LATCH byte for `reg[0]` (R84). -/
  | latchTone0 (d4 : BitVec 4) (fl : FlushArgs)
  /-- `WR` of a LATCH byte for `reg[1]` (R85). -/
  | latchVol0 (d4 : BitVec 4) (fl : FlushArgs)
  /-- `WR` of a LATCH byte for `reg[2]` (R86). -/
  | latchTone1 (d4 : BitVec 4) (fl : FlushArgs)
  /-- `WR` of a LATCH byte for `reg[3]` (R87). -/
  | latchVol1 (d4 : BitVec 4) (fl : FlushArgs)
  /-- `WR` of a LATCH byte for `reg[4]` (R88). -/
  | latchTone2 (d4 : BitVec 4) (fl : FlushArgs)
  /-- `WR` of a LATCH byte for `reg[5]` (R89). -/
  | latchVol2 (d4 : BitVec 4) (fl : FlushArgs)
  /-- `WR` of a LATCH byte for `reg[6]` (R90). -/
  | latchNoise (d4 : BitVec 4) (fl : FlushArgs)
  /-- `WR` of a LATCH byte for `reg[7]` (R91). -/
  | latchVol3 (d4 : BitVec 4) (fl : FlushArgs)
  /-- `WR` of a DATA byte (R92); `b6` is the ignored bit 6 of the byte (R62). -/
  | data (b6 : BitVec 1) (d6 : BitVec 6) (fl : FlushArgs)
  /-- `FLUSH n, p` (R144). -/
  | flush (fl : FlushArgs)
  /-- `EXT_ADD i, dL, dR` (R145). -/
  | extAdd (i : Nat) (dL dR : Int)
  /-- `DRAIN_STEREO len` (R161). -/
  | drainStereo (len : Nat)
  /-- `DRAIN_MONO len` (R162). -/
  | drainMono (len : Nat)
  /-- `CONFIG clockHz, outputRateHz` (R175). -/
  | config (clockHz outputRateHz : Int)
  /-- `SAVE` (R177). -/
  | save
  /-- `RESTORE rec [n, p]` (R179). -/
  | restore (r : SaveRecord) (fl : FlushArgs)
  /-- `DBG_GETREG i` (R183). -/
  | dbgGetReg (i : Int)
  /-- `DBG_SETREG i, v` (R185). -/
  | dbgSetReg (i v : Int)
  /-- `DBG_GETLATCH` (R184). -/
  | dbgGetLatch
  deriving DecidableEq, Repr

/-- What the host presents: a transaction word and the integers that travel beside it (R66). Log 18, log 19. -/
structure Request where
  /-- The word `{sel[3:0], b[7:0]}` in bits 11:0; bits 15:12 belong to no transaction. -/
  word : BitVec 16
  /-- The operands, in the order of R69; for a flushing transaction the bracket last. -/
  operands : List Int
  deriving DecidableEq, Repr

end Sys2Proof
end

