-- ==== Sys2Proof/WellFormed.lean ====
section
/-! DEFINITION. Which terms of `Instr` are transactions: the operands whose Lean type is wider than the spec's. -/

namespace Sys2Proof

/-- The value is in the range of an `i32` (00_scope.md R6). -/
abbrev inI32 (v : Int) : Prop := -2147483648 ≤ v ∧ v ≤ 2147483647

/-- Only `EXT_ADD`'s amounts have a Lean type (`Int`) wider than the spec's (`i32`, R145). -/
abbrev WellFormed (i : Instr) : Prop :=
  match i with
  | .latchTone0 _ _ => True
  | .latchVol0 _ _ => True
  | .latchTone1 _ _ => True
  | .latchVol1 _ _ => True
  | .latchTone2 _ _ => True
  | .latchVol2 _ _ => True
  | .latchNoise _ _ => True
  | .latchVol3 _ _ => True
  | .data _ _ _ => True
  | .flush _ => True
  | .extAdd _ dL dR => inI32 dL ∧ inI32 dR
  | .drainStereo _ => True
  | .drainMono _ => True
  | .config _ _ => True
  | .save => True
  | .restore _ _ => True
  | .dbgGetReg _ => True
  | .dbgSetReg _ _ => True
  | .dbgGetLatch => True

end Sys2Proof
end

