-- ==== Sys2Proof/Decode.lean ====
section
/-! DEFINITION. The bus byte (30_encoding.md R60 to R65), the transaction word and the operands beside it (R66, R69):
the decoder, total and refusing by name, and after it the encoder. -/

namespace Sys2Proof

/-- Why presented input is no transaction. -/
inductive DecodeError where
  /-- A word with a bit above bit 11: wider than `{sel, b}` (R66). -/
  | wordTooWide (word : BitVec 16)
  /-- Selector 11 to 15: "unassigned and a model's decoder refuses them" (R66, U33). -/
  | unassignedSelector (sel : Nat)
  /-- More operands than the transaction has (R69). -/
  | tooManyOperands
  /-- A negative number where the operand is a natural number (R42, R144, R178). -/
  | negativeOperand (v : Int)
  /-- An amount of `EXT_ADD` outside `i32` (R145). -/
  | amountOutOfRange (v : Int)
  deriving DecidableEq, Repr

/-! ### Operands -/

/-- The operands as natural numbers, refusing the first negative one. -/
def naturals : List Int → Except DecodeError (List Nat)
  | [] => .ok []
  | v :: vs =>
    if v < 0 then .error (.negativeOperand v)
    else match naturals vs with
      | .ok ns => .ok (v.toNat :: ns)
      | .error e => .error e

/-- The bracket `[n, p]`; left off it is `[0, cur]` (R69). DESIGN CHOICE (log 20): `n` alone is `[n, cur]`, and the operands
`n, p` of `FLUSH`, which R69 always spells out, are read in the same way when they are not given. Safe. -/
def bracket : List Nat → Except DecodeError FlushArgs
  | [] => .ok FlushArgs.leftOff
  | [n] => .ok ⟨n, none⟩
  | [n, p] => .ok ⟨n, some p⟩
  | _ => .error .tooManyOperands

/-- The operands of a transaction whose only operands are the bracket. -/
def withBracket (ops : List Int) (mk : FlushArgs → Instr) : Except DecodeError Instr :=
  match naturals ops with
  | .error e => .error e
  | .ok ns => match bracket ns with
    | .error e => .error e
    | .ok fl => .ok (mk fl)

/-- Operand `k` of a transaction other than a flush operand; one that is not given is 0, as a word of zeros is. DESIGN
CHOICE, unsafe: log 19. -/
def operand (ops : List Int) (k : Nat) : Int := ops.getD k 0

/-- An operand list of at most `k` integers. -/
def atMost (k : Nat) (ops : List Int) (i : Instr) : Except DecodeError Instr :=
  if ops.length ≤ k then .ok i else .error .tooManyOperands

/-- The one natural operand of a drain. -/
def withNatural (ops : List Int) (mk : Nat → Instr) : Except DecodeError Instr :=
  if operand ops 0 < 0 then .error (.negativeOperand (operand ops 0))
  else atMost 1 ops (mk (operand ops 0).toNat)

/-- The operands of `EXT_ADD` (R145). -/
def decodeExtAdd (ops : List Int) : Except DecodeError Instr :=
  if operand ops 0 < 0 then .error (.negativeOperand (operand ops 0))
  else if ¬ inI32 (operand ops 1) then .error (.amountOutOfRange (operand ops 1))
  else if ¬ inI32 (operand ops 2) then .error (.amountOutOfRange (operand ops 2))
  else atMost 3 ops (.extAdd (operand ops 0).toNat (operand ops 1) (operand ops 2))

/-- Four consecutive natural operands from index `k`. -/
def quadAt (ns : List Nat) (k : Nat) : Quad Nat :=
  ⟨ns.getD k 0, ns.getD (k + 1) 0, ns.getD (k + 2) 0, ns.getD (k + 3) 0⟩

/-- The save record as fourteen integers: `tone_reg`, `vol_reg`, `tone_ctr`, `lfsr_state`, `gg_stereo` (R178). -/
def recordOf (ns : List Nat) : SaveRecord where
  toneReg := quadAt ns 0
  volReg := quadAt ns 4
  toneCtr := quadAt ns 8
  lfsrState := ns.getD 12 0
  ggStereo := ns.getD 13 0

/-- The operands of `RESTORE rec [n, p]` (R179). -/
def decodeRestore (ops : List Int) : Except DecodeError Instr :=
  match naturals ops with
  | .error e => .error e
  | .ok ns => match bracket (ns.drop 14) with
    | .error e => .error e
    | .ok fl => .ok (.restore (recordOf ns) fl)

/-! ### The bus byte -/

/-- `b[7]`, the bit that tells LATCH from DATA (R60). -/
def isLatchByte (b : Byte) : Bool := b.getLsbD 7

/-- `b[6:4] = {ch, kind}`, the register index of a LATCH byte (R61). -/
def latchIndex (b : Byte) : BitVec 3 := b.extractLsb' 4 3

/-- `b[3:0]`, the nibble of a LATCH byte (R61). -/
def latchNibble (b : Byte) : BitVec 4 := b.extractLsb' 0 4

/-- `b[5:0]`, the data of a DATA byte (R62). -/
def dataBits (b : Byte) : BitVec 6 := b.extractLsb' 0 6

/-- `b[6]`, the bit of a DATA byte that is accepted and ignored (R62). -/
def ignoredBit (b : Byte) : BitVec 1 := b.extractLsb' 6 1

/-- The LATCH forms by register index (R65). -/
def latchForm (r : BitVec 3) (d4 : BitVec 4) (fl : FlushArgs) : Instr :=
  match r.getLsbD 2, r.getLsbD 1, r.getLsbD 0 with
  | false, false, false => .latchTone0 d4 fl
  | false, false, true => .latchVol0 d4 fl
  | false, true, false => .latchTone1 d4 fl
  | false, true, true => .latchVol1 d4 fl
  | true, false, false => .latchTone2 d4 fl
  | true, false, true => .latchVol2 d4 fl
  | true, true, false => .latchNoise d4 fl
  | true, true, true => .latchVol3 d4 fl

/-- The transaction `WR b [n, p]`: every byte is one (R65, R67). -/
def busForm (b : Byte) (fl : FlushArgs) : Instr :=
  if isLatchByte b then latchForm (latchIndex b) (latchNibble b) fl
  else .data (ignoredBit b) (dataBits b) fl

/-! ### The transaction word -/

/-- `sel`, bits 11:8 of the transaction word (R66). -/
def selector (w : BitVec 16) : Nat := (w.extractLsb' 8 4).toNat

/-- `b`, bits 7:0 of the transaction word (R66). -/
def busByte (w : BitVec 16) : Byte := w.extractLsb' 0 8

/-- The decoder. For `sel` 1 to 10 the low eight bits are unused and not looked at (R66 and the masks of the opcode
table; log 18). R66 leaves open what an operand that is not given means: for the flush operands of `WR`, `RESTORE` and
`FLUSH` (`sel` 0, 7, 1) log 20, for every other operand log 19 (DESIGN CHOICE). -/
def decode (q : Request) : Except DecodeError Instr :=
  if q.word.extractLsb' 12 4 ≠ 0 then .error (.wordTooWide q.word)
  else match selector q.word with
    | 0 => withBracket q.operands (busForm (busByte q.word))
    | 1 => withBracket q.operands .flush
    | 2 => decodeExtAdd q.operands
    | 3 => withNatural q.operands .drainStereo
    | 4 => withNatural q.operands .drainMono
    | 5 => atMost 2 q.operands (.config (operand q.operands 0) (operand q.operands 1))
    | 6 => atMost 0 q.operands .save
    | 7 => decodeRestore q.operands
    | 8 => atMost 1 q.operands (.dbgGetReg (operand q.operands 0))
    | 9 => atMost 2 q.operands (.dbgSetReg (operand q.operands 0) (operand q.operands 1))
    | 10 => atMost 0 q.operands .dbgGetLatch
    | sel => .error (.unassignedSelector sel)

/-- The request that a row's bits stand for, the operands left to words of zeros. -/
def tableRequest (nbits w : Nat) : Request := ⟨BitVec.ofNat 16 (w % 2 ^ nbits), []⟩

/-- The instruction that the decoder reads from the bits of a table row. -/
def decodeTableWord (nbits w : Nat) : Option Instr :=
  match decode (tableRequest nbits w) with
  | .ok i => some i
  | .error _ => none

/-! ### The encoder -/

/-- The LATCH byte for register index `r` and nibble `d4` (R61). -/
def latchByte (r : BitVec 3) (d4 : BitVec 4) : Byte := 1#1 ++ r ++ d4

/-- The DATA byte (R62). -/
def dataByte (b6 : BitVec 1) (d6 : BitVec 6) : Byte := 0#1 ++ b6 ++ d6

/-- The transaction word of selector `sel` with low byte `b` (R66). -/
def txWord (sel : BitVec 4) (b : Byte) : BitVec 16 := 0#4 ++ sel ++ b

/-- The bracket as operands. -/
def bracketOps (fl : FlushArgs) : List Int :=
  match fl.p with
  | some p => [(fl.n : Int), (p : Int)]
  | none => if fl.n = 0 then [] else [(fl.n : Int)]

/-- Four natural numbers as operands. -/
def quadOps (q : Quad Nat) : List Int := [(q.q0 : Int), (q.q1 : Int), (q.q2 : Int), (q.q3 : Int)]

/-- The save record as operands (R178). -/
def recordOps (r : SaveRecord) : List Int :=
  quadOps r.toneReg ++ quadOps r.volReg ++ quadOps r.toneCtr ++ [(r.lfsrState : Int), (r.ggStereo : Int)]

/-- `WR b [n, p]` as the host presents it. -/
def wrRequest (b : Byte) (fl : FlushArgs) : Request := ⟨txWord 0 b, bracketOps fl⟩

/-- A port transaction as the host presents it: the low eight bits are zero (R66). -/
def portRequest (sel : BitVec 4) (ops : List Int) : Request := ⟨txWord sel 0, ops⟩

/-- The encoder. -/
def encode (i : Instr) : Request :=
  match i with
  | .latchTone0 d4 fl => wrRequest (latchByte 0 d4) fl
  | .latchVol0 d4 fl => wrRequest (latchByte 1 d4) fl
  | .latchTone1 d4 fl => wrRequest (latchByte 2 d4) fl
  | .latchVol1 d4 fl => wrRequest (latchByte 3 d4) fl
  | .latchTone2 d4 fl => wrRequest (latchByte 4 d4) fl
  | .latchVol2 d4 fl => wrRequest (latchByte 5 d4) fl
  | .latchNoise d4 fl => wrRequest (latchByte 6 d4) fl
  | .latchVol3 d4 fl => wrRequest (latchByte 7 d4) fl
  | .data b6 d6 fl => wrRequest (dataByte b6 d6) fl
  | .flush fl => portRequest 1 (bracketOps fl)
  | .extAdd i dL dR => portRequest 2 [(i : Int), dL, dR]
  | .drainStereo len => portRequest 3 [(len : Int)]
  | .drainMono len => portRequest 4 [(len : Int)]
  | .config clockHz outputRateHz => portRequest 5 [clockHz, outputRateHz]
  | .save => portRequest 6 []
  | .restore r fl => portRequest 7 (recordOps r ++ bracketOps fl)
  | .dbgGetReg i => portRequest 8 [i]
  | .dbgSetReg i v => portRequest 9 [i, v]
  | .dbgGetLatch => portRequest 10 []

/-- The `match` column of the row of spec/opcode_table.json that an instruction belongs to. -/
def tableMatch (i : Instr) : BitVec 16 :=
  match i with
  | .latchTone0 _ _ => 0x080
  | .latchVol0 _ _ => 0x090
  | .latchTone1 _ _ => 0x0A0
  | .latchVol1 _ _ => 0x0B0
  | .latchTone2 _ _ => 0x0C0
  | .latchVol2 _ _ => 0x0D0
  | .latchNoise _ _ => 0x0E0
  | .latchVol3 _ _ => 0x0F0
  | .data _ _ _ => 0x000
  | .flush _ => 0x100
  | .extAdd _ _ _ => 0x200
  | .drainStereo _ => 0x300
  | .drainMono _ => 0x400
  | .config _ _ => 0x500
  | .save => 0x600
  | .restore _ _ => 0x700
  | .dbgGetReg _ => 0x800
  | .dbgSetReg _ _ => 0x900
  | .dbgGetLatch => 0xA00

/-- The `mask` column of that row. -/
def tableMask (i : Instr) : BitVec 16 :=
  match i with
  | .latchTone0 _ _ => 0xFF0
  | .latchVol0 _ _ => 0xFF0
  | .latchTone1 _ _ => 0xFF0
  | .latchVol1 _ _ => 0xFF0
  | .latchTone2 _ _ => 0xFF0
  | .latchVol2 _ _ => 0xFF0
  | .latchNoise _ _ => 0xFF0
  | .latchVol3 _ _ => 0xFF0
  | .data _ _ _ => 0xF80
  | .flush _ => 0xF00
  | .extAdd _ _ _ => 0xF00
  | .drainStereo _ => 0xF00
  | .drainMono _ => 0xF00
  | .config _ _ => 0xF00
  | .save => 0xF00
  | .restore _ _ => 0xF00
  | .dbgGetReg _ => 0xF00
  | .dbgSetReg _ _ => 0xF00
  | .dbgGetLatch => 0xF00

end Sys2Proof
end

