-- ==== Sys2Proof/Machine/Memory.lean ====
section
/-! DEFINITION. An accumulator array (10_state.md R23, 20_memory.md R40, R41): `i32` cells by index, held as the list of
the cells that are not zero, indices strictly rising. A cell that is not listed reads as 0. Log 7, log 8. -/

namespace Sys2Proof.Machine

/-- One accumulator array: (cell index, content) pairs. The cell is the smallest unit of access (R41). -/
abbrev Memory := List (Nat × CellWord)

/-- What an unlisted cell reads as: the launch premise "every cell is 0" of R216. Log 7. -/
def Memory.unlisted : CellWord := 0

/-- `MemRead(A.i, 4)` (R41). -/
def Memory.read (m : Memory) (i : Nat) : CellWord :=
  match m with
  | [] => Memory.unlisted
  | e :: rest => if e.1 = i then e.2 else Memory.read rest i

/-- The array without an entry for cell `i`. -/
def Memory.erase (m : Memory) (i : Nat) : Memory := m.filter (fun e => e.1 ≠ i)

/-- The array with an entry put before the first larger index. -/
def Memory.insert (m : Memory) (i : Nat) (v : CellWord) : Memory :=
  match m with
  | [] => [(i, v)]
  | e :: rest => if i < e.1 then (i, v) :: e :: rest else e :: Memory.insert rest i v

/-- `MemWrite(A.i, 4, v)` (R41). Writing what an unlisted cell reads as removes the entry. -/
def Memory.write (m : Memory) (i : Nat) (v : CellWord) : Memory :=
  if v = Memory.unlisted then Memory.erase m i else Memory.insert (Memory.erase m i) i v

/-- Zero in the cells 0 to `k - 1`, the others unchanged: the loop of `Clear` (R163). -/
def Memory.clearBelow (m : Memory) (k : Nat) : Memory := m.filter (fun e => k ≤ e.1)

/-- The canonical form: indices strictly rising, no entry equal to what an unlisted cell reads as. -/
abbrev Memory.wf (m : Memory) : Prop :=
  m.Pairwise (fun a b => a.1 < b.1) ∧ ∀ e ∈ m, e.2 ≠ Memory.unlisted

/-- Every listed cell exists: its index is below the capacity `SEG_CAP` (R23, R40). -/
abbrev Memory.within (m : Memory) (segCap : Nat) : Prop := ∀ e ∈ m, e.1 < segCap

end Sys2Proof.Machine
end

