-- ==== Sys2Proof/Machine/Tables.lean ====
section
/-! DEFINITION. The three tables as `CONFIG` stores them: stepTable (42_tone_generator.md R110 to R112),
noiseStepTable (43_noise_generator.md R125) and volumeTable (41_volume_attenuator.md R100 to R102), and the operands
that `CONFIG` accepts (46_config_save_debug.md R176). -/

namespace Sys2Proof.Machine

/-- The pairs that `CONFIG` accepts (R176). -/
abbrev configAccepts (clockHz outputRateHz : Int) : Prop :=
  1 ≤ clockHz ∧ 1 ≤ outputRateHz ∧ clockHz < 1048576 * outputRateHz

/-- `floor( CLOCK_HZ * 65536 / (16 * N * RATE_HZ) )` for a divisor `N` of 1 to 1023 (R110, R112). -/
def stepEntry (clockHz rateHz divisor : Nat) : Nat := clockHz * 65536 / (16 * divisor * rateHz)

/-- `stepTable[N]` by R110; `stepTable[0]` is STEP_DIV0, by default the entry of divisor 1 (R111). Log 11. -/
def stepTableEntry (k : Config) (clockHz rateHz : Nat) (divisor : Nat) : U32 :=
  if divisor = 0 then k.stepDiv0.getD (BitVec.ofNat 32 (stepEntry clockHz rateHz 1))
  else BitVec.ofNat 32 (stepEntry clockHz rateHz divisor)

/-- The table of 1024 steps by the formula (R110, R111). -/
def stepTableByFormula (k : Config) (clockHz rateHz : Nat) : Vector U32 1024 :=
  ⟨((List.range' 0 1024).map (stepTableEntry k clockHz rateHz)).toArray, by simp⟩

/-- The table of 1024 steps (R20): the parameter's numbers where they are given, else the formula's (R112). Log 13. -/
def stepTableOf (k : Config) (clockHz rateHz : Nat) : Vector U32 1024 :=
  match k.stepTable with
  | some t => t
  | none => stepTableByFormula k clockHz rateHz

/-- `floor( CLOCK_HZ * 65536 / (2^(9+k) * RATE_HZ) )` for rate select `k` of 0 to 2 (R125). Log 12. -/
def noiseStepEntry (clockHz rateHz select : Nat) : Nat := clockHz * 65536 / (2 ^ (9 + select) * rateHz)

/-- `noiseStepTable[0..2]` by R125 or by the parameter NOISE_STEP, and entry 3, which nothing reads, as given (R21). -/
def noiseStepTableOf (k : Config) (clockHz rateHz : Nat) (entry3 : U32) : Quad U32 :=
  match k.noiseStep with
  | some (n0, n1, n2) => ⟨n0, n1, n2, entry3⟩
  | none => ⟨BitVec.ofNat 32 (noiseStepEntry clockHz rateHz 0), BitVec.ofNat 32 (noiseStepEntry clockHz rateHz 1),
      BitVec.ofNat 32 (noiseStepEntry clockHz rateHz 2), entry3⟩

/-- Whether `v` is at most the real number `(MAX_OUTPUT / 3) / 10^(k/10)`, tenth powers compared (R100). -/
abbrev levelFits (maxOutput k v : Nat) : Prop := (3 * v) ^ 10 * 10 ^ k ≤ maxOutput ^ 10

/-- The greatest number of `bits` more binary digits below `v` that still fits, digit by digit from the top. -/
def levelSearch (maxOutput k : Nat) (bits v : Nat) : Nat :=
  match bits with
  | 0 => v
  | j + 1 => if levelFits maxOutput k (v + 2 ^ j) then levelSearch maxOutput k j (v + 2 ^ j) else levelSearch maxOutput k j v

/-- `round_down( (MAX_OUTPUT / 3) / 10^(k/10) )`, each entry from the exact real value (R100, R101). Log 10. -/
def volumeLevel (maxOutput k : Nat) : Nat := levelSearch maxOutput k 32 0

/-- `volumeTable[k]` by R100; entry 15 is zero by definition. -/
def volumeTableEntry (k : Config) (a : Nat) : U32 :=
  if a = 15 then 0 else BitVec.ofNat 32 (volumeLevel k.maxOutput.toNat a)

/-- The table of 16 amplitudes by the formula (R100, R105). -/
def volumeTableByFormula (k : Config) : Vector U32 16 :=
  ⟨((List.range' 0 16).map (volumeTableEntry k)).toArray, by simp⟩

/-- The table of 16 amplitudes (R22): the parameter's numbers where they are given, else the formula's (R101). Log 10. -/
def volumeTableOf (k : Config) : Vector U32 16 :=
  match k.volumeTable with
  | some t => t
  | none => volumeTableByFormula k

end Sys2Proof.Machine
end

