-- ==== Sys2Proof/Machine/State.lean ====
section
/-! DEFINITION. The state of the block (10_state.md), the reasons a step can stop (60_exceptions.md R201, 30_encoding.md
R66), and the state after reset (10_state.md R28). -/

namespace Sys2Proof.Machine

/-- The eight programmable registers, each in its own width (R10). -/
structure Regs where
  /-- `reg[0]`. -/
  tone0 : BitVec 10
  /-- `reg[2]`. -/
  tone1 : BitVec 10
  /-- `reg[4]`. -/
  tone2 : BitVec 10
  /-- `reg[6]`: bits 1:0 rate select, bit 2 white select, bit 3 stored without effect (C5). -/
  noise : BitVec 4
  /-- `reg[1]`, `reg[3]`, `reg[5]`, `reg[7]`: the attenuation index of each channel. -/
  vol : Quad (BitVec 4)
  deriving DecidableEq, Repr

/-- What a transaction hands to the host (R30). -/
inductive Result where
  /-- `DRAIN_STEREO`: the sequence `dest` and the return code (R161, R164). -/
  | stereo (dest : List Int) (code : Int)
  /-- `DRAIN_MONO`: the sequence `dest` and the return code (R162, R164). -/
  | mono (dest : List Int) (code : Int)
  /-- `SAVE`: the save record (R177). -/
  | saved (r : SaveRecord)
  /-- A debug accessor: an integer (R183 to R185). -/
  | value (v : Int)
  deriving DecidableEq, Repr

/-- The state. The fields from `reg` to `accR` are the spec's; `config` holds the parameters of R4, which no transaction
writes; `pending`, `returned` and `draws` are the model's own (log 16, log 21, log 5). -/
structure State where
  /-- The implementation parameters (R4, R101, R112, R125). -/
  config : Config
  /-- The programmable registers `reg[0..7]` (R10). -/
  reg : Regs
  /-- The index of the register selected by the last LATCH byte (R12). -/
  latch : BitVec 3
  /-- `volume[0..3]`, the amplitudes (R13). -/
  volume : Quad U32
  /-- `cntStep[0..3]`, the phase increments (R14). -/
  cntStep : Quad U32
  /-- `counter[0..3]`, the phase accumulators (R15). -/
  counter : Quad U32
  /-- The noise shift register (R16). -/
  lfsr : U16
  /-- The noise feedback mask (R17). -/
  lfsrMask : U16
  /-- The write cursor, or unset (R18). -/
  cur : Option Nat
  /-- The clock operand of the last `CONFIG` (R19). -/
  clockHz : Int
  /-- The rate operand of the last `CONFIG` (R19). -/
  rateHz : Int
  /-- False from power-on until the first `CONFIG` completes (R19). -/
  configured : Bool
  /-- The steps by tone divisor (R20). -/
  stepTable : Vector U32 1024
  /-- The fixed noise steps; entry 3 is never read (R21). -/
  noiseStepTable : Quad U32
  /-- The amplitudes by attenuation index (R22). -/
  volumeTable : Vector U32 16
  /-- The left accumulator array (R23). -/
  accL : Memory
  /-- The right accumulator array (R23). -/
  accR : Memory
  /-- MODEL: the transactions the host has presented and the block has not taken yet, oldest first. -/
  pending : List Request
  /-- MODEL: what the transactions have handed to the host, oldest first. -/
  returned : List Result
  /-- MODEL: how many times `CONFIG` has drawn its free values. -/
  draws : Nat
  deriving DecidableEq, Repr

/-- The model faults of R201. A fault ends the run (R204). All are safe: the model stops where the spec gives no
meaning. Unless its constructor carries a state, the state at the fault is the state the transaction started in. -/
inductive Fault where
  /-- Raised by every transaction but `CONFIG`, `EXT_ADD` and the drains while `configured` is false. Safe. -/
  | notConfigured (i : Instr)
  /-- Raised by `CONFIG` for operands outside R176. Safe. -/
  | badConfig (clockHz outputRateHz : Int)
  /-- Raised by `UPDATE(n)`, `n > 0`, with `cur` unset. Safe. -/
  | cursorUnset (n : Nat)
  /-- Raised by `UPDATE`, `EXT_ADD` and the drains for a cell at or above SEG_CAP; records the index, the length, or for
  `UPDATE` the end `cur + n`. Safe. -/
  | accIndex (ix : Nat)
  /-- Raised by an addition to a cell whose exact sum is outside `i32`; records the cell, the side and the state at
  the fault, where the earlier additions of the transaction stay and the failing cell is not written. Safe. -/
  | accOverflow (cell : Nat) (side : Side) (atFault : State)
  /-- Raised by `DRAIN_MONO` for the first cell whose `L + R` is outside `i32`. Safe. -/
  | monoSumOverflow (i : Nat)
  /-- Raised by `DBG_SETREG` with an index in 0..7, which the source gives no meaning (R185). Safe. -/
  | dbgSetRefused (i v : Int)
  deriving DecidableEq, Repr

/-- Why the model gives no step. -/
inductive Refusal where
  /-- An instruction without a meaning yet. Safe. -/
  | notModelled (mnemonic : String)
  /-- The presented word or operands are no transaction: unassigned selectors (R66) and the like. Raised by `step`. Safe. -/
  | undecodable (why : DecodeError)
  deriving DecidableEq, Repr

/-! ### The updates of one field -/

/-- `reg <- v`. -/
def State.setReg (s : State) (v : Regs) : State := { s with reg := v }
/-- `latch <- v`. -/
def State.setLatch (s : State) (v : BitVec 3) : State := { s with latch := v }
/-- `volume[c] <- v`. -/
def State.setVolume (s : State) (c : Chan) (v : U32) : State := { s with volume := s.volume.set c v }
/-- `cntStep[c] <- v`. -/
def State.setStep (s : State) (c : Chan) (v : U32) : State := { s with cntStep := s.cntStep.set c v }
/-- `counter[c] <- v`. -/
def State.setCounter (s : State) (c : Chan) (v : U32) : State := { s with counter := s.counter.set c v }
/-- `lfsr <- v`. -/
def State.setLfsr (s : State) (v : U16) : State := { s with lfsr := v }
/-- `lfsrMask <- v`. -/
def State.setMask (s : State) (v : U16) : State := { s with lfsrMask := v }
/-- `cur <- v`. -/
def State.setCur (s : State) (v : Option Nat) : State := { s with cur := v }
/-- `accL <- v`. -/
def State.setAccL (s : State) (v : Memory) : State := { s with accL := v }
/-- `accR <- v`. -/
def State.setAccR (s : State) (v : Memory) : State := { s with accR := v }
/-- The list of presented transactions replaced. -/
def State.setPending (s : State) (v : List Request) : State := { s with pending := v }
/-- A result handed to the host. -/
def State.give (s : State) (r : Result) : State := { s with returned := s.returned ++ [r] }

/-! ### Reset and power-on -/

/-- The registers after `CONFIG`: divisor 0, noise control 0, attenuation 15 (R28). -/
def Regs.silent : Regs := ⟨0, 0, 0, 0, Quad.all 15⟩

/-- The clock operand of the `CONFIG` that `State.reset` stands after. Log 1. -/
def State.resetClockHz : Int := 1048576

/-- The rate operand of the `CONFIG` that `State.reset` stands after. Log 1. -/
def State.resetRateHz : Int := 65536

/-- The machine right after its reset, which is `CONFIG` (R215): the table of R28, with the operands of log 1, the
parameters of log 9, and every accumulator cell zero (log 7). `latch` and `noiseStepTable[3]`, which R28 leaves
unspecified, are 0 here (log 3, log 4). -/
def State.reset : State where
  config := Config.default
  reg := Regs.silent
  latch := 0
  volume := Quad.all 0
  cntStep :=
    ⟨stepTableEntry Config.default 1048576 65536 0, stepTableEntry Config.default 1048576 65536 0,
      stepTableEntry Config.default 1048576 65536 0, BitVec.ofNat 32 (noiseStepEntry 1048576 65536 0)⟩
  counter := Quad.all 0
  lfsr := 0x8000
  lfsrMask := 0x0001
  cur := none
  clockHz := State.resetClockHz
  rateHz := State.resetRateHz
  configured := true
  stepTable := stepTableOf Config.default 1048576 65536
  noiseStepTable := noiseStepTableOf Config.default 1048576 65536 0
  volumeTable := volumeTableOf Config.default
  accL := []
  accR := []
  pending := []
  returned := []
  draws := 0

/-- A machine before its first `CONFIG` (R29, R216): `configured` is false, and nothing reads the other elements of the
PSG part before `CONFIG` writes them. Log 6. -/
def State.powerOn : State := { State.reset with configured := false }

end Sys2Proof.Machine
end

