-- ==== Sys2Proof/Machine/Flags.lean ====
section
/-! DEFINITION. The block has no status flags (10_state.md R25). Its two generator bits, as functions of the state, and
the shift function of the noise register (43_noise_generator.md R127). -/

namespace Sys2Proof.Machine

/-- Bit 16 of a phase accumulator: the overflow or level bit (R15). -/
def overflowBit (counter : U32) : Bool := counter.getLsbD 16

/-- `toneLevel(c) = counter[c][16]` (R25, R117). -/
def State.toneLevel (s : State) (c : ToneCh) : Bool := overflowBit (s.counter.get c.chan)

/-- `noiseBit = lfsr[0]` (R25). -/
def State.noiseBit (s : State) : Bool := s.lfsr.getLsbD 0

/-- The exclusive or of all bits (00_scope.md R6). -/
def parity (v : U16) : Bool := (List.range 16).foldl (fun p k => p ^^ v.getLsbD k) false

/-- `Shift(l, m)`: one place to the right, the parity of the masked bits entering at the top (R127). -/
def shiftLfsr (l m : U16) : U16 := (l >>> 1) ||| (if parity (l &&& m) then 0x8000#16 else 0#16)

end Sys2Proof.Machine
end

