-- ==== Sys2Proof/Machine/Operands.lean ====
section
/-! DEFINITION. Register names, register reads and writes, and the assembly of a register's value from a bus byte
(30_encoding.md R63, R64). -/

namespace Sys2Proof.Machine

/-- A programmable register by what it is (R10, R63). -/
inductive Target where
  | tone (c : ToneCh)
  | noise
  | vol (c : Chan)
  deriving DecidableEq, Repr

/-- The register that a 3-bit index names: `ch = r >> 1`, `kind = r[0]` (R63). -/
def target (r : BitVec 3) : Target :=
  match r.getLsbD 2, r.getLsbD 1, r.getLsbD 0 with
  | false, false, false => .tone .t0
  | false, false, true => .vol .c0
  | false, true, false => .tone .t1
  | false, true, true => .vol .c1
  | true, false, false => .tone .t2
  | true, false, true => .vol .c2
  | true, true, false => .noise
  | true, true, true => .vol .c3

/-- `reg[2c]`, the divisor of tone channel `c`. -/
def Regs.tone (r : Regs) : ToneCh → BitVec 10
  | .t0 => r.tone0
  | .t1 => r.tone1
  | .t2 => r.tone2

/-- `reg[2c] <- v`. -/
def Regs.setTone (r : Regs) (c : ToneCh) (v : BitVec 10) : Regs :=
  match c with
  | .t0 => { r with tone0 := v }
  | .t1 => { r with tone1 := v }
  | .t2 => { r with tone2 := v }

/-- `reg[6] <- v`. -/
def Regs.setNoise (r : Regs) (v : BitVec 4) : Regs := { r with noise := v }

/-- `reg[2c+1] <- v`. -/
def Regs.setVol (r : Regs) (c : Chan) (v : BitVec 4) : Regs := { r with vol := r.vol.set c v }

/-- `reg[r]`, zero-extended (R183). -/
def Regs.read (r : Regs) (ix : BitVec 3) : Nat :=
  match target ix with
  | .tone c => (r.tone c).toNat
  | .noise => r.noise.toNat
  | .vol c => (r.vol.get c).toNat

/-- `{old[9:4], d4}`: a LATCH byte replaces bits 3:0 of a divisor (R64). Log 15. -/
def latchDivisor (old : BitVec 10) (d4 : BitVec 4) : BitVec 10 := old.extractLsb' 4 6 ++ d4

/-- `{d6, old[3:0]}`: a DATA byte replaces bits 9:4 of a divisor (R64). -/
def dataDivisor (old : BitVec 10) (d6 : BitVec 6) : BitVec 10 := d6 ++ old.extractLsb' 0 4

/-- `d6[3:0]`, all that a DATA byte carries for a 4-bit register (R64). -/
def dataNibble (d6 : BitVec 6) : BitVec 4 := d6.extractLsb' 0 4

/-- `reg[6][1:0]`, the rate select (R126). -/
def rateSelect (noise : BitVec 4) : BitVec 2 := noise.extractLsb' 0 2

/-- `reg[6][2]`, white (true) or periodic (R128). -/
def whiteSelect (noise : BitVec 4) : Bool := noise.getLsbD 2

/-- `stepTable[N]` (R20). -/
def State.stepFor (s : State) (divisor : BitVec 10) : U32 := s.stepTable[divisor.toNat]'divisor.isLt

/-- `Att(a) = volumeTable[a]` (R103). -/
def State.levelFor (s : State) (a : BitVec 4) : U32 := s.volumeTable[a.toNat]'a.isLt

/-- The noise step that a noise control value selects: a fixed one, or half of channel 2's (R82, R126). -/
def State.noiseStepFor (s : State) (noise : BitVec 4) : U32 :=
  match (rateSelect noise).getLsbD 1, (rateSelect noise).getLsbD 0 with
  | false, false => s.noiseStepTable.q0
  | false, true => s.noiseStepTable.q1
  | true, false => s.noiseStepTable.q2
  | true, true => s.cntStep.q2 >>> 1

/-- The feedback mask that a noise control value selects (R82, R128). -/
def maskFor (noise : BitVec 4) : U16 := if whiteSelect noise then 0x0009#16 else 0x0001#16

/-- Cell `i` of one array (R41). -/
def State.cell (s : State) (side : Side) (i : Nat) : CellWord :=
  match side with
  | .left => Memory.read s.accL i
  | .right => Memory.read s.accR i

/-- Cell `i` of one array written (R41). -/
def State.setCell (s : State) (side : Side) (i : Nat) (v : CellWord) : State :=
  match side with
  | .left => s.setAccL (Memory.write s.accL i v)
  | .right => s.setAccR (Memory.write s.accR i v)

end Sys2Proof.Machine
end

