-- ==== Sys2Proof/Machine/Ops.lean ====
section
/-! DEFINITION. The operations that the transactions share: `AccAdd` (44_accumulator.md R140), `UPDATE` with its tone and
noise rules (R142, R114 to R116, R129, R130), the flush (R144), the three effects of a register write (40_bus_write.md
R81 to R83), the bus write of a byte (R80, R84 to R95), and the quantizer (45_quantizer.md R160 to R163).

The block takes no exception and returns from none (60_exceptions.md R200, R205): there is no such operation. A model
fault of R201 ends the run. -/

namespace Sys2Proof.Machine

/-- The outcome of a transaction, or of a part of one. -/
abbrev Out := Host.Outcome State Fault Refusal

/-- One part of a transaction after another; a fault ends it. -/
def andThen (o : Out) (k : State → Out) : Out :=
  match o with
  | .next s => k s
  | .fault f => .fault f
  | .refused r => .refused r

/-- The check that comes first in every transaction on the PSG part (R201, R204). -/
def whenConfigured (i : Instr) (s : State) (k : State → Out) : Out :=
  if s.configured then k s else .fault (.notConfigured i)

/-! ### The accumulator -/

/-- Adds `d` to one cell, or faults before it is written (R141, R145). -/
def addCell (side : Side) (i : Nat) (d : Int) (s : State) : Out :=
  if inI32 ((s.cell side i).toInt + d) then .next (s.setCell side i (BitVec.ofInt 32 ((s.cell side i).toInt + d)))
  else .fault (.accOverflow i side s)

/-- Adds to cell `i` of both arrays, left before right (R140, R145, R204). -/
def addBoth (i : Nat) (dL dR : Int) (s : State) : Out := andThen (addCell .left i dL s) (addCell .right i dR)

/-- `AccAdd(i, v)`: the same amount on both sides (R140). -/
def accAdd (i : Nat) (v : U32) (s : State) : Out := addBoth i v.toNat v.toNat s

/-! ### UPDATE -/

/-- `counter[c] <- (counter[c] + cntStep[c]) mod 2^32`. -/
def advance (c : Chan) (s : State) : State := s.setCounter c (s.counter.get c + s.cntStep.get c)

/-- `counter[c] <- (counter[c] + cntStep[c] * n) mod 2^32`: a muted channel (R116, R130). -/
def advanceMuted (c : Chan) (n : Nat) (s : State) : State :=
  s.setCounter c (s.counter.get c + s.cntStep.get c * BitVec.ofNat 32 n)

/-- One sample of an audible tone: the addition to the phase first, then the test of the new value (R114). -/
def toneSample (c : ToneCh) (i : Nat) (s : State) : Out :=
  if (advance c.chan s).toneLevel c then accAdd i (s.volume.get c.chan) (advance c.chan s)
  else .next (advance c.chan s)

/-- The loop `for i = 0 .. n-1` of the rules of `UPDATE`: `f` on the cells `i` to `i + n - 1` in increasing order. -/
def forSamples (f : Nat → State → Out) (n i : Nat) (s : State) : Out :=
  match n with
  | 0 => .next s
  | k + 1 => andThen (f i s) (forSamples f k (i + 1))

/-- One sample of a tone above the threshold: always high, the phase standing still (R115). Log 28. -/
def steadySample (c : ToneCh) (i : Nat) (s : State) : Out := accAdd i (s.volume.get c.chan) s

/-- A tone channel in one `UPDATE` (R142, R114 to R116). -/
def updateTone (c : ToneCh) (n i : Nat) (s : State) : Out :=
  if s.volume.get c.chan = 0 then .next (advanceMuted c.chan n s)
  else if (s.cntStep.get c.chan).toNat < 0x10000 then forSamples (toneSample c) n i s
  else forSamples (steadySample c) n i s

/-- The overflow of the noise phase: it is cut to 16 bits and the register shifts (R129). -/
def noiseClock (s : State) : State :=
  if overflowBit (s.counter.get .c3) then
    (s.setCounter .c3 (s.counter.get .c3 &&& 0xFFFF#32)).setLfsr (shiftLfsr s.lfsr s.lfsrMask)
  else s

/-- One sample of audible noise: add, emit from the register as it stands, then test the overflow (R129). -/
def noiseSample (i : Nat) (s : State) : Out :=
  andThen (if (advance .c3 s).noiseBit then accAdd i (s.volume.get .c3) (advance .c3 s) else .next (advance .c3 s))
    (fun t => .next (noiseClock t))

/-- The noise channel in one `UPDATE` (R142, R129, R130). -/
def updateNoise (n i : Nat) (s : State) : Out :=
  if s.volume.get .c3 = 0 then .next (advanceMuted .c3 n s) else forSamples noiseSample n i s

/-- The four channels for `n` samples from cell `i` on: tones 2, 1, 0, then the noise (R142, R120). -/
def updateChannels (n i : Nat) (s : State) : Out :=
  andThen (updateTone .t2 n i s) fun s2 =>
  andThen (updateTone .t1 n i s2) fun s1 =>
  andThen (updateTone .t0 n i s1) fun s0 =>
  updateNoise n i s0

/-- `UPDATE(n)` (R142). -/
def update (n : Nat) (s : State) : Out :=
  if n = 0 then .next s
  else match s.cur with
    | none => .fault (.cursorUnset n)
    | some i => if s.config.segCap < i + n then .fault (.accIndex (i + n)) else updateChannels n i s

/-- `cur <- p`; the position `cur` leaves the cursor as it is (R144, R69). -/
def moveCursor (p : Option Nat) (s : State) : State :=
  match p with
  | none => s
  | some p => s.setCur (some p)

/-- `FLUSH n, p` (R144). -/
def flush (fl : FlushArgs) (s : State) : Out := andThen (update fl.n s) (fun u => .next (moveCursor fl.p u))

/-! ### The effects of a register write -/

/-- `EffTone(c)` (R81). -/
def effTone (c : ToneCh) (s : State) : State :=
  let t := s.setStep c.chan (s.stepFor (s.reg.tone c))
  if c = .t2 ∧ rateSelect s.reg.noise = 3 then t.setStep .c3 (t.cntStep.q2 >>> 1) else t

/-- `EffNoise` (R82). -/
def effNoise (s : State) : State :=
  ((s.setLfsr 0x8000#16).setStep .c3 (s.noiseStepFor s.reg.noise)).setMask (maskFor s.reg.noise)

/-- `EffVol(c)` (R83). -/
def effVol (c : Chan) (s : State) : State := s.setVolume c (s.levelFor (s.reg.vol.get c))

/-- A LATCH byte on a tone register, after its flush (R84, R86, R88). -/
def latchTone (c : ToneCh) (d4 : BitVec 4) (s : State) : State :=
  effTone c (s.setReg (s.reg.setTone c (latchDivisor (s.reg.tone c) d4)))

/-- A DATA byte on a tone register, after its flush (R93). -/
def dataTone (c : ToneCh) (d6 : BitVec 6) (s : State) : State :=
  effTone c (s.setReg (s.reg.setTone c (dataDivisor (s.reg.tone c) d6)))

/-- A write of the noise-control register, after the flush (R90, R94). -/
def writeNoise (d : BitVec 4) (s : State) : State := effNoise (s.setReg (s.reg.setNoise d))

/-- A write of a volume register, after the flush (R85, R87, R89, R91, R95). -/
def writeVol (c : Chan) (d : BitVec 4) (s : State) : State := effVol c (s.setReg (s.reg.setVol c d))

/-- A LATCH byte after its flush: `latch` is written, then the register (R84 to R91). -/
def latchEffect (r : BitVec 3) (d4 : BitVec 4) (s : State) : State :=
  match target r with
  | .tone c => latchTone c d4 (s.setLatch r)
  | .noise => writeNoise d4 (s.setLatch r)
  | .vol c => writeVol c d4 (s.setLatch r)

/-- A DATA byte after its flush: `latch` chooses the register and keeps its value (R92 to R95). -/
def dataEffect (d6 : BitVec 6) (s : State) : State :=
  match target s.latch with
  | .tone c => dataTone c d6 s
  | .noise => writeNoise (dataNibble d6) s
  | .vol c => writeVol c (dataNibble d6) s

/-- The register effect of a byte (R80, step 2). -/
def byteEffect (b : Byte) (s : State) : State :=
  if isLatchByte b then latchEffect (latchIndex b) (latchNibble b) s else dataEffect (dataBits b) s

/-- A bus write: the flush under the old registers, then the register effect (R80). -/
def busWrite (fl : FlushArgs) (eff : State → State) (s : State) : Out := andThen (flush fl s) (fun u => .next (eff u))

/-- Bus writes one after another: the first carries the flush operands, the others `[0, p]` (R179). -/
def busWrites (bytes : List Byte) (fl : FlushArgs) (s : State) : Out :=
  match bytes with
  | [] => .next s
  | b :: rest => andThen (busWrite fl (byteEffect b) s) (busWrites rest ⟨0, fl.p⟩)

/-! ### The quantizer -/

/-- `sat16(v)` (R160). -/
def sat16 (v : Int) : Int := if v < -0x8000 then -0x8000 else if v > 0x7FFF then 0x7FFF else v

/-- `L + R` of cell `i`, exact (R162). -/
def State.monoSum (s : State) (i : Nat) : Int := (s.cell .left i).toInt + (s.cell .right i).toInt

/-- `dest` of a stereo drain: left at `2i`, right at `2i + 1` (R161). -/
def stereoSamples (s : State) (len : Nat) : List Int :=
  (List.range len).flatMap (fun i => [sat16 (s.cell .left i).toInt, sat16 (s.cell .right i).toInt])

/-- `dest` of a mono drain: the sum, halved towards minus infinity, then saturated (R162). -/
def monoSamples (s : State) (len : Nat) : List Int := (List.range len).map (fun i => sat16 (s.monoSum i / 2))

/-- The first cell below `len` whose sum leaves `i32` (R162, R204). -/
def firstMonoOverflow (s : State) (len : Nat) : Option Nat := (List.range len).find? (fun i => ¬ inI32 (s.monoSum i))

/-- `Clear(len)`: cells 0 to `len - 1`, and with DRAIN_CLEARS_ALL every cell (R163). -/
def clearCells (len : Nat) (s : State) : State :=
  let k := if s.config.drainClearsAll then max len s.config.segCap else len
  (s.setAccL (Memory.clearBelow s.accL k)).setAccR (Memory.clearBelow s.accR k)

/-! ### Save and restore -/

/-- The save record of a state (R177). -/
def saveRecord (s : State) : SaveRecord where
  toneReg := ⟨s.reg.tone0.toNat &&& 0x3FF, s.reg.tone1.toNat &&& 0x3FF, s.reg.tone2.toNat &&& 0x3FF, s.reg.noise.toNat &&& 0x7⟩
  volReg := ⟨(s.reg.vol.get .c0).toNat &&& 0xF, (s.reg.vol.get .c1).toNat &&& 0xF, (s.reg.vol.get .c2).toNat &&& 0xF,
    (s.reg.vol.get .c3).toNat &&& 0xF⟩
  toneCtr := Quad.all 0xFFFF
  lfsrState := s.lfsr.toNat
  ggStereo := s.config.ggStereo.toNat

/-- The LATCH byte of register index `r` with the low four bits of `t` (R179). -/
def replayLatch (r t : Nat) : Byte := BitVec.ofNat 8 (0x80 ||| (r <<< 4) ||| (t &&& 0xF))

/-- The DATA byte with bits 9:4 of the divisor `t` (R179). -/
def replayData (t : Nat) : Byte := BitVec.ofNat 8 ((t >>> 4) &&& 0x3F)

/-- The eleven bytes that `RESTORE` replays, in ascending register order (R179). Log 30. -/
def restoreBytes (r : SaveRecord) : List Byte :=
  [replayLatch 0 r.toneReg.q0, replayData r.toneReg.q0, replayLatch 1 r.volReg.q0,
   replayLatch 2 r.toneReg.q1, replayData r.toneReg.q1, replayLatch 3 r.volReg.q1,
   replayLatch 4 r.toneReg.q2, replayData r.toneReg.q2, replayLatch 5 r.volReg.q2,
   replayLatch 6 r.toneReg.q3, replayLatch 7 r.volReg.q3]

/-! ### Configure -/

/-- The state after an accepted `CONFIG` (R175, R28): the tables anew, every element of the PSG part at its reset value,
`latch` and `noiseStepTable[3]` drawn (log 3, log 4); the cells, the parameters and what the host holds untouched. -/
def configure (clockHz outputRateHz : Int) (s : State) : State :=
  let clk := clockHz.toNat
  let rate := outputRateHz.toNat
  let noise := noiseStepTableOf s.config clk rate (Config.noiseStep3Draw s.draws)
  let steps := stepTableOf s.config clk rate
  let levels := volumeTableOf s.config
  { s with
    reg := Regs.silent
    latch := Config.latchDraw s.draws
    volume := Quad.all levels[15]
    cntStep := ⟨steps[0], steps[0], steps[0], noise.q0⟩
    counter := Quad.all 0
    lfsr := 0x8000#16
    lfsrMask := 0x0001#16
    cur := none
    clockHz := clockHz
    rateHz := outputRateHz
    configured := true
    stepTable := steps
    noiseStepTable := noise
    volumeTable := levels
    draws := s.draws + 1 }

/-- The register index that a debug operand names, if it is in 0..7 (R183). -/
def debugIndex (i : Int) : Option (BitVec 3) := if 0 ≤ i ∧ i ≤ 7 then some (BitVec.ofNat 3 i.toNat) else none

end Sys2Proof.Machine
end

