-- ==== Sys2Proof/Machine/Accumulator.lean ====
section
/-! DEFINITION. The accumulator's transactions: `FLUSH` and `EXT_ADD` (44_accumulator.md R144, R145). -/

namespace Sys2Proof.Machine

/-- `FLUSH n, p` (R144). -/
def execFlush (fl : FlushArgs) (s : State) : Out := whenConfigured (.flush fl) s (flush fl)

/-- `EXT_ADD i, dL, dR` (R145): on the accumulator alone, configured or not. -/
def execExtAdd (i : Nat) (dL dR : Int) (s : State) : Out :=
  if s.config.segCap ≤ i then .fault (.accIndex i) else addBoth i dL dR s

end Sys2Proof.Machine
end

