-- ==== Sys2Proof/Machine/BusWrite.lean ====
section
/-! DEFINITION. The register-write bus: the meanings of the eight LATCH forms and of DATA (40_bus_write.md R80, R84 to R95). -/

namespace Sys2Proof.Machine

/-- `LATCH_TONE0` (R84). -/
def execLatchTone0 (d4 : BitVec 4) (fl : FlushArgs) (s : State) : Out :=
  whenConfigured (.latchTone0 d4 fl) s (busWrite fl (latchEffect 0 d4))

/-- `LATCH_VOL0` (R85). -/
def execLatchVol0 (d4 : BitVec 4) (fl : FlushArgs) (s : State) : Out :=
  whenConfigured (.latchVol0 d4 fl) s (busWrite fl (latchEffect 1 d4))

/-- `LATCH_TONE1` (R86). -/
def execLatchTone1 (d4 : BitVec 4) (fl : FlushArgs) (s : State) : Out :=
  whenConfigured (.latchTone1 d4 fl) s (busWrite fl (latchEffect 2 d4))

/-- `LATCH_VOL1` (R87). -/
def execLatchVol1 (d4 : BitVec 4) (fl : FlushArgs) (s : State) : Out :=
  whenConfigured (.latchVol1 d4 fl) s (busWrite fl (latchEffect 3 d4))

/-- `LATCH_TONE2` (R88). -/
def execLatchTone2 (d4 : BitVec 4) (fl : FlushArgs) (s : State) : Out :=
  whenConfigured (.latchTone2 d4 fl) s (busWrite fl (latchEffect 4 d4))

/-- `LATCH_VOL2` (R89). -/
def execLatchVol2 (d4 : BitVec 4) (fl : FlushArgs) (s : State) : Out :=
  whenConfigured (.latchVol2 d4 fl) s (busWrite fl (latchEffect 5 d4))

/-- `LATCH_NOISE` (R90). -/
def execLatchNoise (d4 : BitVec 4) (fl : FlushArgs) (s : State) : Out :=
  whenConfigured (.latchNoise d4 fl) s (busWrite fl (latchEffect 6 d4))

/-- `LATCH_VOL3` (R91). -/
def execLatchVol3 (d4 : BitVec 4) (fl : FlushArgs) (s : State) : Out :=
  whenConfigured (.latchVol3 d4 fl) s (busWrite fl (latchEffect 7 d4))

/-- `DATA` (R92 to R95); bit 6 of the byte is ignored (R62). -/
def execData (b6 : BitVec 1) (d6 : BitVec 6) (fl : FlushArgs) (s : State) : Out :=
  whenConfigured (.data b6 d6 fl) s (busWrite fl (dataEffect d6))

end Sys2Proof.Machine
end

