-- ==== Sys2Proof/Machine/Quantizer.lean ====
section
/-! DEFINITION. The drains: `DRAIN_STEREO` and `DRAIN_MONO` (45_quantizer.md R161, R162), scalar semantics (R166). -/

namespace Sys2Proof.Machine

/-- `DRAIN_STEREO len` (R161): every cell is read before any is cleared; the return code is 0 (R164). -/
def execDrainStereo (len : Nat) (s : State) : Out :=
  if s.config.segCap < len then .fault (.accIndex len)
  else .next ((clearCells len s).give (.stereo (stereoSamples s len) 0))

/-- `DRAIN_MONO len` (R162). -/
def execDrainMono (len : Nat) (s : State) : Out :=
  if s.config.segCap < len then .fault (.accIndex len)
  else match firstMonoOverflow s len with
    | some i => .fault (.monoSumOverflow i)
    | none => .next ((clearCells len s).give (.mono (monoSamples s len) 0))

end Sys2Proof.Machine
end

