-- ==== Sys2Proof/Machine/System.lean ====
section
/-! DEFINITION. The system transactions: `CONFIG`, `SAVE`, `RESTORE` and the debug accessors (46_config_save_debug.md R175 to
R185). -/

namespace Sys2Proof.Machine

/-- `CONFIG clockHz, outputRateHz` (R175, R176). -/
def execConfig (clockHz outputRateHz : Int) (s : State) : Out :=
  if configAccepts clockHz outputRateHz then .next (configure clockHz outputRateHz s)
  else .fault (.badConfig clockHz outputRateHz)

/-- `SAVE` (R177): reads the state and does not flush. -/
def execSave (s : State) : Out := whenConfigured .save s (fun s => .next (s.give (.saved (saveRecord s))))

/-- `RESTORE rec [n, p]` (R179): eleven bus writes, then the shift register (R181). -/
def execRestore (r : SaveRecord) (fl : FlushArgs) (s : State) : Out :=
  whenConfigured (.restore r fl) s fun s =>
    andThen (busWrites (restoreBytes r) fl s) (fun u => .next (u.setLfsr (BitVec.ofNat 16 (r.lfsrState &&& 0xFFFF))))

/-- `DBG_GETREG i` (R183). -/
def execDbgGetReg (i : Int) (s : State) : Out :=
  whenConfigured (.dbgGetReg i) s fun s =>
    match debugIndex i with
    | some r => .next (s.give (.value (s.reg.read r)))
    | none => .next (s.give (.value s.config.dbgErr))

/-- `DBG_SETREG i, v` (R185): an index in 0..7 has no meaning in the source. Log 24. -/
def execDbgSetReg (i v : Int) (s : State) : Out :=
  whenConfigured (.dbgSetReg i v) s fun s =>
    match debugIndex i with
    | some _ => .fault (.dbgSetRefused i v)
    | none => .next (s.give (.value s.config.dbgErr))

/-- `DBG_GETLATCH` (R184). -/
def execDbgGetLatch (s : State) : Out := whenConfigured .dbgGetLatch s (fun s => .next (s.give (.value s.latch.toNat)))

end Sys2Proof.Machine
end

