-- ==== Sys2Proof/Machine/Dispatch.lean ====
section
/-! DEFINITION. One arm for each transaction. -/

namespace Sys2Proof.Machine

def exec (i : Instr) (s : State) : Host.Outcome State Fault Refusal :=
  match i with
  | .latchTone0 d4 fl => Sys2Proof.Machine.execLatchTone0 d4 fl s
  | .latchVol0 d4 fl => Sys2Proof.Machine.execLatchVol0 d4 fl s
  | .latchTone1 d4 fl => Sys2Proof.Machine.execLatchTone1 d4 fl s
  | .latchVol1 d4 fl => Sys2Proof.Machine.execLatchVol1 d4 fl s
  | .latchTone2 d4 fl => Sys2Proof.Machine.execLatchTone2 d4 fl s
  | .latchVol2 d4 fl => Sys2Proof.Machine.execLatchVol2 d4 fl s
  | .latchNoise d4 fl => Sys2Proof.Machine.execLatchNoise d4 fl s
  | .latchVol3 d4 fl => Sys2Proof.Machine.execLatchVol3 d4 fl s
  | .data b6 d6 fl => Sys2Proof.Machine.execData b6 d6 fl s
  | .flush fl => Sys2Proof.Machine.execFlush fl s
  | .extAdd ix dL dR => Sys2Proof.Machine.execExtAdd ix dL dR s
  | .drainStereo len => Sys2Proof.Machine.execDrainStereo len s
  | .drainMono len => Sys2Proof.Machine.execDrainMono len s
  | .config clockHz outputRateHz => Sys2Proof.Machine.execConfig clockHz outputRateHz s
  | .save => Sys2Proof.Machine.execSave s
  | .restore r fl => Sys2Proof.Machine.execRestore r fl s
  | .dbgGetReg ix => Sys2Proof.Machine.execDbgGetReg ix s
  | .dbgSetReg ix v => Sys2Proof.Machine.execDbgSetReg ix v s
  | .dbgGetLatch => Sys2Proof.Machine.execDbgGetLatch s

end Sys2Proof.Machine
end

