-- ==== Sys2Proof/Machine/Step.lean ====
section
/-! DEFINITION. One step: the block takes the oldest transaction that the host has presented and performs it (00_scope.md R8,
20_memory.md R48). With none presented it is idle and holds its state (60_exceptions.md R207). Log 16, log 17. -/

namespace Sys2Proof.Machine

/-- One step. -/
def step (s : State) : Host.Outcome State Fault Refusal :=
  match s.pending with
  | [] => .next s
  | q :: rest => match decode q with
    | .ok i => exec i (s.setPending rest)
    | .error e => .refused (.undecodable e)

/-- The transaction of a table row's bits presented first, its operands left to words of zeros. -/
def State.withFetchWord (s : State) (nbits w : Nat) : State := s.setPending (tableRequest nbits w :: s.pending)

end Sys2Proof.Machine
end

