-- ==== Sys2Proof/Machine/Pseudo.lean ====
section
/-! DEFINITION. The pseudo-transactions of the trace notation, each the list of transactions it abbreviates, as the host
presents them (30_encoding.md R69). `cur` is the cursor as the host knows it. -/

namespace Sys2Proof.Machine

/-- `LATCH r, d [n, p]`. -/
def pseudoLatch (r : BitVec 3) (d : BitVec 4) (fl : FlushArgs) : List Request :=
  [wrRequest (BitVec.ofNat 8 (0x80 + 16 * r.toNat + d.toNat)) fl]

/-- `DATA d [n, p]`. -/
def pseudoData (d : BitVec 6) (fl : FlushArgs) : List Request := [wrRequest (BitVec.ofNat 8 d.toNat) fl]

/-- `SETTONE c, N [n, p]`: the low four bits, then the high six with `[0, p]`. -/
def pseudoSetTone (c : ToneCh) (divisor : BitVec 10) (fl : FlushArgs) : List Request :=
  let k := match c with
    | .t0 => 0
    | .t1 => 1
    | .t2 => 2
  [wrRequest (BitVec.ofNat 8 (0x80 + 32 * k + (divisor.extractLsb' 0 4).toNat)) fl,
   wrRequest (BitVec.ofNat 8 (divisor.extractLsb' 4 6).toNat) ⟨0, fl.p⟩]

/-- `SETVOL c, a [n, p]`. -/
def pseudoSetVol (c : Chan) (a : BitVec 4) (fl : FlushArgs) : List Request :=
  let k := match c with
    | .c0 => 0
    | .c1 => 1
    | .c2 => 2
    | .c3 => 3
  [wrRequest (BitVec.ofNat 8 (0x90 + 32 * k + a.toNat)) fl]

/-- `SETNOISE d [n, p]`. -/
def pseudoSetNoise (d : BitVec 3) (fl : FlushArgs) : List Request := [wrRequest (BitVec.ofNat 8 (0xE0 + d.toNat)) fl]

/-- `UPDATE n`: the cursor unchanged. -/
def pseudoUpdate (n : Nat) : List Request := [encode (.flush ⟨n, none⟩)]

/-- `RUN n`: `n` contiguous sample periods from `cur` on. -/
def pseudoRun (cur n : Nat) : List Request := [encode (.flush ⟨n, some (cur + n)⟩)]

/-- `TICK`: one sample period. -/
def pseudoTick (cur : Nat) : List Request := [encode (.flush ⟨1, some (cur + 1)⟩)]

end Sys2Proof.Machine
end

