-- ==== Sys2Proof/Safety.lean ====
section
/-! DEFINITION. The terms that the statements use: the invariant of the block, what a flush adds to each cell, when a
flush completes, and which parts of a state can be observed. -/

namespace Sys2Proof.Machine

/-! ### The invariant -/

/-- The derived elements agree with the programmable registers (10_state.md R26). -/
def Derived (s : State) : Prop :=
  (∀ c : Chan, s.volume.get c = s.levelFor (s.reg.vol.get c)) ∧
  (∀ c : ToneCh, s.cntStep.get c.chan = s.stepFor (s.reg.tone c)) ∧
  s.cntStep.q3 = s.noiseStepFor s.reg.noise ∧
  s.lfsrMask = maskFor s.reg.noise

/-- The tables are those of the last `CONFIG`, whose operands R176 accepts (R53, R175). -/
def TablesCurrent (s : State) : Prop :=
  configAccepts s.clockHz s.rateHz ∧
  s.stepTable = stepTableOf s.config s.clockHz.toNat s.rateHz.toNat ∧
  s.noiseStepTable = noiseStepTableOf s.config s.clockHz.toNat s.rateHz.toNat s.noiseStepTable.q3 ∧
  s.volumeTable = volumeTableOf s.config

/-- Both arrays are in canonical form and hold only cells that exist (R23, R40). -/
def AccForm (s : State) : Prop :=
  (Memory.wf s.accL ∧ Memory.within s.accL s.config.segCap) ∧ (Memory.wf s.accR ∧ Memory.within s.accR s.config.segCap)

/-- The invariant: admitted parameters, well-formed arrays, and in a configured block current tables and derived
elements that agree with the registers. -/
def Inv (s : State) : Prop :=
  s.config.Valid ∧ AccForm s ∧ (s.configured = true → TablesCurrent s ∧ Derived s)

/-! ### What a flush adds -/

/-- The phase of channel `c` after `k` more samples at its step. -/
def State.phaseAfter (s : State) (c : Chan) (k : Nat) : U32 := s.counter.get c + s.cntStep.get c * BitVec.ofNat 32 k

/-- What tone channel `c` adds to the cell of sample `k` of an `UPDATE` (R114 to R117). -/
def State.toneGain (s : State) (c : ToneCh) (k : Nat) : Nat :=
  if (s.cntStep.get c.chan).toNat < 0x10000 then
    if (s.phaseAfter c.chan (k + 1)).getLsbD 16 then (s.volume.get c.chan).toNat else 0
  else (s.volume.get c.chan).toNat

/-- The phase of tone channel `c` after an `UPDATE` of `n` samples (R114 to R116). -/
def State.tonePhase (s : State) (c : ToneCh) (n : Nat) : U32 :=
  if s.volume.get c.chan ≠ 0 ∧ 0x10000 ≤ (s.cntStep.get c.chan).toNat then s.counter.get c.chan
  else s.phaseAfter c.chan n

/-- Phase and shift register of the audible noise channel after `k` samples (R129). -/
def State.noiseRun (s : State) (k : Nat) : U32 × U16 :=
  match k with
  | 0 => (s.counter.q3, s.lfsr)
  | j + 1 =>
    let sum := (s.noiseRun j).1 + s.cntStep.q3
    if sum.getLsbD 16 then (sum &&& 0xFFFF#32, shiftLfsr (s.noiseRun j).2 s.lfsrMask) else (sum, (s.noiseRun j).2)

/-- What the noise channel adds to the cell of sample `k`: the bit emitted is the one before the sample's shift (R129). -/
def State.noiseGain (s : State) (k : Nat) : Nat :=
  if (s.noiseRun k).2.getLsbD 0 then s.volume.q3.toNat else 0

/-- Phase and shift register of the noise channel after an `UPDATE` of `n` samples (R129, R130). -/
def State.noiseEnd (s : State) (n : Nat) : U32 × U16 :=
  if s.volume.q3 = 0 then (s.phaseAfter .c3 n, s.lfsr) else s.noiseRun n

/-- What the four channels together add to the cell of sample `k`, on each side. -/
def State.gain (s : State) (k : Nat) : Nat :=
  s.toneGain .t2 k + s.toneGain .t1 k + s.toneGain .t0 k + s.noiseGain k

/-- `t` holds in the cells `i` to `i + n - 1` of both arrays what `s` holds there plus `g` of the sample, and every
other cell as in `s`. -/
def Added (s t : State) (n i : Nat) (g : Nat → Nat) : Prop :=
  ∀ (side : Side) (j : Nat), (t.cell side j).toInt =
    (s.cell side j).toInt + (if i ≤ j ∧ j < i + n then (g (j - i) : Int) else 0)

/-- No addition of `g` to the cells `i` to `i + n - 1` leaves `i32`. -/
def HasRoom (s : State) (n i : Nat) (g : Nat → Nat) : Prop :=
  ∀ (side : Side) (k : Nat), k < n → (s.cell side (i + k)).toInt + (g k : Int) ≤ 2147483647

/-- The state and the operands alone for which a flush completes (R142, R144, R201). -/
def FlushReady (fl : FlushArgs) (s : State) : Prop :=
  fl.n = 0 ∨ ∃ i, s.cur = some i ∧ i + fl.n ≤ s.config.segCap ∧ HasRoom s fl.n i s.gain

/-- What a completed flush leaves: the phases, the shift register, the cells and the cursor; nothing else differs. -/
def Flushed (fl : FlushArgs) (s t : State) : Prop :=
  t = { s with
    counter := ⟨s.tonePhase .t0 fl.n, s.tonePhase .t1 fl.n, s.tonePhase .t2 fl.n, (s.noiseEnd fl.n).1⟩
    lfsr := (s.noiseEnd fl.n).2
    cur := fl.p.or s.cur
    accL := t.accL
    accR := t.accR } ∧
  Added s t fl.n (s.cur.getD 0) s.gain

/-- Equal but for the phases, the shift register and the cells: what a flush that stops half way can have changed. -/
def FlushFrame (s t : State) : Prop :=
  t = { s with counter := t.counter, lfsr := t.lfsr, accL := t.accL, accR := t.accR }

/-- What channel `c` adds to the cell of sample `k`. -/
def State.chanGain (s : State) (c : Chan) (k : Nat) : Nat :=
  match c with
  | .c0 => s.toneGain .t0 k
  | .c1 => s.toneGain .t1 k
  | .c2 => s.toneGain .t2 k
  | .c3 => s.noiseGain k

/-- What the channels that `UPDATE` processes before channel `c` add to the cell of sample `k` (R120, R142). -/
def State.gainBefore (s : State) (c : Chan) (k : Nat) : Nat :=
  match c with
  | .c2 => 0
  | .c1 => s.toneGain .t2 k
  | .c0 => s.toneGain .t2 k + s.toneGain .t1 k
  | .c3 => s.toneGain .t2 k + s.toneGain .t1 k + s.toneGain .t0 k

/-- `u` is the state at the overflow of a flush of `n` samples from cell `i` on, at sample `k` of channel `c` on `side`
(R201, R204): the cells hold the additions made earlier (those of the channels before `c`, those of `c` at the samples
before `k`, and at sample `k` the left one where the right one fails) and no other; one more addition to the failing
cell would leave `i32`. -/
def Overflowed (s u : State) (n i : Nat) (c : Chan) (k : Nat) (side : Side) : Prop :=
  (∀ (sd : Side) (j : Nat), (u.cell sd j).toInt = (s.cell sd j).toInt +
    (if i ≤ j ∧ j < i + n then (s.gainBefore c (j - i) : Int) else 0) +
    (if (i ≤ j ∧ j < i + k) ∨ (j = i + k ∧ sd = .left ∧ side = .right) then (s.chanGain c (j - i) : Int) else 0)) ∧
  2147483647 < (u.cell side (i + k)).toInt + (s.chanGain c k : Int) ∧
  FlushFrame s u

/-- `mk` is a bus write whose register effect is `eff`: it completes exactly where the flush does, on the state that
the flush leaves, and its faults are those of the flush (R80). -/
def BusWriteIs (mk : FlushArgs → Instr) (eff : State → State) : Prop :=
  ∀ (fl : FlushArgs) (s : State), s.configured = true →
    (FlushReady fl s → ∃ u, Flushed fl s u ∧ exec (mk fl) s = .next (eff u)) ∧
    (∀ f, exec (.flush fl) s = .fault f → exec (mk fl) s = .fault f)

/-! ### Kinds of transactions -/

/-- The transactions on the PSG part, which need a configured block (R201). -/
def NeedsConfig (i : Instr) : Bool :=
  match i with
  | .extAdd _ _ _ => false
  | .drainStereo _ => false
  | .drainMono _ => false
  | .config _ _ => false
  | .latchTone0 _ _ => true
  | .latchVol0 _ _ => true
  | .latchTone1 _ _ => true
  | .latchVol1 _ _ => true
  | .latchTone2 _ _ => true
  | .latchVol2 _ _ => true
  | .latchNoise _ _ => true
  | .latchVol3 _ _ => true
  | .data _ _ _ => true
  | .flush _ => true
  | .save => true
  | .restore _ _ => true
  | .dbgGetReg _ => true
  | .dbgSetReg _ _ => true
  | .dbgGetLatch => true

/-- `CONFIG`. -/
def IsConfig (i : Instr) : Prop := ∃ c r, i = .config c r

/-- `RESTORE`. -/
def IsRestore (i : Instr) : Prop := ∃ r fl, i = .restore r fl

/-- `EXT_ADD` and the drains: the transactions on the accumulator alone. -/
def OnAccumulatorOnly (i : Instr) : Prop :=
  (∃ ix dL dR, i = .extAdd ix dL dR) ∨ (∃ len, i = .drainStereo len) ∨ ∃ len, i = .drainMono len

/-- The flush operands of a flushing transaction (R80, R144, R179). -/
def flushArgsOf (i : Instr) : Option FlushArgs :=
  match i with
  | .latchTone0 _ fl => some fl
  | .latchVol0 _ fl => some fl
  | .latchTone1 _ fl => some fl
  | .latchVol1 _ fl => some fl
  | .latchTone2 _ fl => some fl
  | .latchVol2 _ fl => some fl
  | .latchNoise _ fl => some fl
  | .latchVol3 _ fl => some fl
  | .data _ _ fl => some fl
  | .flush fl => some fl
  | .extAdd _ _ _ => none
  | .drainStereo _ => none
  | .drainMono _ => none
  | .config _ _ => none
  | .save => none
  | .restore _ fl => some fl
  | .dbgGetReg _ => none
  | .dbgSetReg _ _ => none
  | .dbgGetLatch => none

/-! ### What a drain leaves -/

/-- `v` held between the bounds of an `i16` (R160). -/
def clamp16 (v : Int) : Int := max (-32768) (min 32767 v)

/-- What a drain of `len` leaves: the drained cells zero, with DRAIN_CLEARS_ALL every cell zero, the result handed to
the host, nothing else changed (R161 to R163). -/
def Drained (len : Nat) (res : Result) (s t : State) : Prop :=
  (∀ (side : Side) (j : Nat), t.cell side j =
    if j < len ∨ (s.config.drainClearsAll = true ∧ j < s.config.segCap) then 0 else s.cell side j) ∧
  t = { s with accL := t.accL, accR := t.accR, returned := s.returned ++ [res] }

/-! ### What can be observed -/

/-- Equal but for bits 31:17 of the phase accumulators, which no rule tests (R15). -/
def SamePhaseBits (s t : State) : Prop :=
  (∀ c : Chan, (s.counter.get c).extractLsb' 0 17 = (t.counter.get c).extractLsb' 0 17) ∧
  t = { s with counter := t.counter }

end Sys2Proof.Machine
end

