-- ==== Sys2Proof/Certificates/Slice0/Obligations.lean ====
section
/-! DEFINITION. The statements for the provers. A docstring names the rules of spec/ that a statement formalises, and, for a
clause that rests on a decision of the spec's writer or on a choice of the model, that decision (D<n>) or the log entry. -/

open Sys2Proof Sys2Proof.Machine

/-! ### Presented words -/

/-- Decoding what the encoder writes gives the transaction back, with every operand at every value (30_encoding.md
sections 1, 3 and 6; the word and the operand list are the spec's device D27 and log 18, log 19). -/
def Obligations.DecodeInvertsEncode : Prop :=
  ∀ i : Instr, WellFormed i → decode (encode i) = .ok i

/-- The map of the 256 bus bytes: each range of R65 is one form, and every byte is in one of them. -/
def Obligations.BusByteRanges : Prop :=
  ∀ (b : Byte) (fl : FlushArgs), decode (wrRequest b fl) = .ok (
    if b.toNat < 0x80 then .data (b.extractLsb' 6 1) (b.extractLsb' 0 6) fl
    else if b.toNat < 0x90 then .latchTone0 (b.extractLsb' 0 4) fl
    else if b.toNat < 0xA0 then .latchVol0 (b.extractLsb' 0 4) fl
    else if b.toNat < 0xB0 then .latchTone1 (b.extractLsb' 0 4) fl
    else if b.toNat < 0xC0 then .latchVol1 (b.extractLsb' 0 4) fl
    else if b.toNat < 0xD0 then .latchTone2 (b.extractLsb' 0 4) fl
    else if b.toNat < 0xE0 then .latchVol2 (b.extractLsb' 0 4) fl
    else if b.toNat < 0xF0 then .latchNoise (b.extractLsb' 0 4) fl
    else .latchVol3 (b.extractLsb' 0 4) fl)

/-- The unassigned selectors 11 to 15 are refused by name, whatever the low byte and the operands (R66, U33). -/
def Obligations.UnassignedSelectorsRefused : Prop :=
  ∀ (sel : BitVec 4) (b : Byte) (ops : List Int), 11 ≤ sel.toNat →
    decode ⟨txWord sel b, ops⟩ = .error (.unassignedSelector sel.toNat)

/-- Words written out bit by bit from the spec's encodings decode to the transactions they are (R61, R62, R66), with no
operands beside them: the brackets are then [0, cur] (R69, log 20), and that the missing operands of CONFIG are 0 is the
model's choice (log 19). -/
def Obligations.WrittenWordsDecode : Prop :=
  decodeTableWord 16 0b000010001110 = some (.latchTone0 0xE ⟨0, none⟩) ∧
  decodeTableWord 16 0b000011011111 = some (.latchVol2 0xF ⟨0, none⟩) ∧
  decodeTableWord 16 0b000000001111 = some (.data 0 0x0F ⟨0, none⟩) ∧
  decodeTableWord 16 0b000001001111 = some (.data 1 0x0F ⟨0, none⟩) ∧
  decodeTableWord 16 0b010100000000 = some (.config 0 0) ∧
  decodeTableWord 16 0b101000000000 = some .dbgGetLatch

/-! ### Steps -/

/-- A step takes the oldest presented transaction, which is well formed, and performs it (R8, R48; the list of presented
transactions is the model's, log 16). -/
def Obligations.StepRunsDecodedTransaction : Prop :=
  ∀ (s : State) (q : Request) (rest : List Request) (i : Instr), s.pending = q :: rest → decode q = .ok i →
    WellFormed i ∧ step s = exec i { s with pending := rest }

/-- With nothing presented the block is idle and holds its state (R207; log 17). -/
def Obligations.StepWithoutTransactionIdles : Prop := ∀ s : State, s.pending = [] → step s = .next s

/-- A step refuses only a presented word or operand list that is no transaction (R66; log 18, log 19). -/
def Obligations.StepRefusesOnlyUndecodable : Prop :=
  ∀ (s : State) (r : Refusal), step s = .refused r →
    ∃ q rest e, s.pending = q :: rest ∧ decode q = .error e ∧ r = .undecodable e

/-! ### Invariants -/

/-- Every step keeps the invariant: parameters admitted, arrays canonical and within SEG_CAP, and in a configured block
the tables those of the last CONFIG and the derived elements those of R26. -/
def Obligations.StepKeepsInvariant : Prop := ∀ s t : State, Inv s → step s = .next t → Inv t

/-- The state after reset has the invariant. -/
def Obligations.ResetHasInvariant : Prop := Inv State.reset

/-- The reset state is what CONFIG with the operands of log 1 leaves of the power-on state, but for what CONFIG draws
(R28; log 1, log 3 to log 7). -/
def Obligations.ResetIsAfterConfig : Prop :=
  ∃ t, exec (.config 1048576 65536) State.powerOn = .next t ∧
    State.reset = { t with latch := 0, noiseStepTable := { t.noiseStepTable with q3 := 0 }, draws := 0 }

/-- Only CONFIG writes the three tables and the configuration, and nothing writes the parameters (R19, R53). -/
def Obligations.OnlyConfigWritesTables : Prop :=
  ∀ (i : Instr) (s t : State), exec i s = .next t →
    t.config = s.config ∧
    (¬ IsConfig i → t.stepTable = s.stepTable ∧ t.noiseStepTable = s.noiseStepTable ∧ t.volumeTable = s.volumeTable ∧
      t.clockHz = s.clockHz ∧ t.rateHz = s.rateHz ∧ t.configured = s.configured)

/-- The noise mask is one of its two values, and no transaction stores another (R17). -/
def Obligations.MaskStaysWhiteOrPeriodic : Prop :=
  ∀ (i : Instr) (s t : State), (s.lfsrMask = 0x0009 ∨ s.lfsrMask = 0x0001) → exec i s = .next t →
    t.lfsrMask = 0x0009 ∨ t.lfsrMask = 0x0001

/-- Only RESTORE can bring the shift register to zero (R134). -/
def Obligations.OnlyRestoreZeroesLfsr : Prop :=
  ∀ (i : Instr) (s t : State), (s.lfsrMask = 0x0009 ∨ s.lfsrMask = 0x0001) → s.lfsr ≠ 0 → ¬ IsRestore i →
    exec i s = .next t → t.lfsr ≠ 0

/-- Where the cursor goes: CONFIG unsets it, a flushing transaction moves it to its position, nothing else writes it
(R18; unset after CONFIG is decision D11). -/
def Obligations.CursorWritersAreFlushAndConfig : Prop :=
  ∀ (i : Instr) (s t : State), exec i s = .next t →
    (IsConfig i → t.cur = none) ∧
    (¬ IsConfig i → t.cur = match flushArgsOf i with
      | some fl => fl.p.or s.cur
      | none => s.cur)

/-- Only UPDATE changes the phase accumulators, as the rules of the tone and noise channels say (R114 to R116, R129, R130;
the level reading, the standing and the frozen phases and the mute test are decisions D3, D12, D13, D26: log 14, log 28;
that a noise write leaves the noise phase is log 29), and every transaction that does not flush, CONFIG apart, leaves them
and the shift register alone (R15, R16). -/
def Obligations.OnlyFlushAdvancesPhases : Prop :=
  ∀ (i : Instr) (s t : State), exec i s = .next t → ¬ IsConfig i →
    match flushArgsOf i with
    | some fl => t.counter = ⟨s.tonePhase .t0 fl.n, s.tonePhase .t1 fl.n, s.tonePhase .t2 fl.n, (s.noiseEnd fl.n).1⟩
    | none => t.counter = s.counter ∧ t.lfsr = s.lfsr

/-- No transaction touches the list of presented transactions, and what was handed to the host stays handed (the model's
own fields: log 16, log 21). -/
def Obligations.HostSideOnlyGrows : Prop :=
  ∀ (i : Instr) (s t : State), exec i s = .next t → t.pending = s.pending ∧ s.returned <+: t.returned

/-- Bits 31:17 of the phase accumulators are never observed: states that differ there only complete alike and stay so
(R15). -/
def Obligations.HighPhaseBitsUnobservable : Prop :=
  ∀ (i : Instr) (s s' t : State), SamePhaseBits s s' → exec i s = .next t →
    ∃ t', exec i s' = .next t' ∧ SamePhaseBits t t'

/-- What the PSG adds to a cell is the same on both sides, never negative, and at most the sum of the four amplitudes
(R104, R140, R148). -/
def Obligations.PsgAddsAlikeOnBothSides : Prop :=
  ∀ (i : Instr) (s t : State), ¬ OnAccumulatorOnly i → exec i s = .next t → ∀ j : Nat, ∃ d : Nat,
    (t.cell .left j).toInt = (s.cell .left j).toInt + (d : Int) ∧
    (t.cell .right j).toInt = (s.cell .right j).toInt + (d : Int) ∧
    d ≤ s.volume.q0.toNat + s.volume.q1.toNat + s.volume.q2.toNat + s.volume.q3.toNat

/-! ### The configured flag -/

/-- NotConfigured is raised exactly by the transactions on the PSG part of an unconfigured block, and records the
transaction (the spec's model fault, decision D21; R201, R216). -/
def Obligations.UnconfiguredPsgFaults : Prop :=
  ∀ (i j : Instr) (s : State), exec i s = .fault (.notConfigured j) ↔
    j = i ∧ NeedsConfig i = true ∧ s.configured = false

/-! ### The flush -/

/-- FLUSH completes where it is ready: each tone channel by its rule of R114 to R116, the noise by R129 or R130, every
cell of the range raised by the sum, the cursor moved, nothing else changed (decisions D3, D12, D13, D26: log 14,
log 28). -/
def Obligations.FlushSynthesizesPending : Prop :=
  ∀ (fl : FlushArgs) (s : State), s.configured = true → FlushReady fl s →
    ∃ t, exec (.flush fl) s = .next t ∧ Flushed fl s t

/-- FLUSH that is not ready faults: CursorUnset first, then AccIndex, then AccOverflow at a cell of the range. The state that
AccOverflow records holds the additions made earlier in the order of R204 (channels 2, 1, 0, noise, each over the samples,
left before right) and no other, so the failing cell is not written; but for phases and shift register nothing else differs
(the spec's model faults, decisions D11, D14, D15, and log 22; R120, R142, R201, R204). -/
def Obligations.FlushFaultsInOrder : Prop :=
  ∀ (fl : FlushArgs) (s : State), s.configured = true → ¬ FlushReady fl s →
    (s.cur = none ∧ exec (.flush fl) s = .fault (.cursorUnset fl.n)) ∨
    (∃ i, s.cur = some i ∧ s.config.segCap < i + fl.n ∧ exec (.flush fl) s = .fault (.accIndex (i + fl.n))) ∨
    (∃ i c k side u, s.cur = some i ∧ i + fl.n ≤ s.config.segCap ∧ k < fl.n ∧
      exec (.flush fl) s = .fault (.accOverflow (i + k) side u) ∧ Overflowed s u fl.n i c k side)

/-- Splitting a flush: FLUSH n1 + n2, p is FLUSH n1, cur + n1 and then FLUSH n2, p, on the whole state (R147). -/
def Obligations.FlushSplits : Prop :=
  ∀ (s t : State) (i n1 n2 p : Nat), AccForm s → s.configured = true → s.cur = some i →
    (exec (.flush ⟨n1 + n2, some p⟩) s = .next t ↔
      ∃ u, exec (.flush ⟨n1, some (i + n1)⟩) s = .next u ∧ exec (.flush ⟨n2, some p⟩) u = .next t)

/-- The mixer is linear: from cleared cells, what the channels of a set add and what the others add is, cell by cell and on
both sides, what all four add together (R146). -/
def Obligations.MixerIsLinear : Prop :=
  ∀ (a : Chan → Bool) (fl : FlushArgs) (s t : State), (∀ side j, s.cell side j = 0) → exec (.flush fl) s = .next t →
    ∃ ta tb,
      exec (.flush fl) { s with volume :=
        ⟨if a .c0 then s.volume.q0 else 0, if a .c1 then s.volume.q1 else 0,
         if a .c2 then s.volume.q2 else 0, if a .c3 then s.volume.q3 else 0⟩ } = .next ta ∧
      exec (.flush fl) { s with volume :=
        ⟨if a .c0 then 0 else s.volume.q0, if a .c1 then 0 else s.volume.q1,
         if a .c2 then 0 else s.volume.q2, if a .c3 then 0 else s.volume.q3⟩ } = .next tb ∧
      ∀ side j, (t.cell side j).toInt = (ta.cell side j).toInt + (tb.cell side j).toInt

/-- One sample of an audible tone below the threshold: its level flips exactly when the step carries out of bits 15:0
(R117, the level reading: conflict C1, decision D3, log 14). -/
def Obligations.ToneLevelFlipsOnCarry : Prop :=
  ∀ (c : ToneCh) (p : Option Nat) (s t : State), s.volume.get c.chan ≠ 0 → (s.cntStep.get c.chan).toNat < 0x10000 →
    exec (.flush ⟨1, p⟩) s = .next t →
    t.toneLevel c = (s.toneLevel c ^^
      decide (0x10000 ≤ (s.counter.get c.chan).toNat % 0x10000 + (s.cntStep.get c.chan).toNat))

/-- Phase continuity: below the threshold a tone's phase after a flush is the same whether it is muted or not (R119). -/
def Obligations.MutingKeepsTonePhase : Prop :=
  ∀ (c : ToneCh) (fl : FlushArgs) (s t u : State), (s.cntStep.get c.chan).toNat < 0x10000 →
    exec (.flush fl) s = .next t → exec (.flush fl) { s with volume := s.volume.set c.chan 0 } = .next u →
    t.counter.get c.chan = u.counter.get c.chan

/-! ### The shift register -/

/-- `Shift` bit by bit: one place to the right, and at the top bit 0, with the white mask exclusive-or bit 3 (R127). -/
def Obligations.ShiftTaps : Prop :=
  ∀ (l : U16) (k : Nat), k < 16 →
    (shiftLfsr l 0x0009).getLsbD k = (if k = 15 then l.getLsbD 0 ^^ l.getLsbD 3 else l.getLsbD (k + 1)) ∧
    (shiftLfsr l 0x0001).getLsbD k = (if k = 15 then l.getLsbD 0 else l.getLsbD (k + 1))

/-- The periodic sequence from 0x8000 is its single bit going round, with period 16 (R131). -/
def Obligations.PeriodicNoiseRotates : Prop :=
  ∀ k : Nat, (fun l => shiftLfsr l 0x0001)^[k] 0x8000#16 = 0x8000#16 >>> (k % 16)

/-! ### Bus writes -/

/-- LATCH_TONE0 and LATCH_TONE1: after the flush, `latch`, bits 3:0 of the divisor and the step; bits 9:4 keep their value
(R84, R86; keeping them is decision D4, log 15). -/
def Obligations.LatchToneWritesLowNibble : Prop :=
  ∀ d4 : BitVec 4,
    BusWriteIs (.latchTone0 d4) (fun u =>
      { u with
        latch := 0
        reg := { u.reg with tone0 := u.reg.tone0.extractLsb' 4 6 ++ d4 }
        cntStep := { u.cntStep with q0 := u.stepFor (u.reg.tone0.extractLsb' 4 6 ++ d4) } }) ∧
    BusWriteIs (.latchTone1 d4) (fun u =>
      { u with
        latch := 2
        reg := { u.reg with tone1 := u.reg.tone1.extractLsb' 4 6 ++ d4 }
        cntStep := { u.cntStep with q1 := u.stepFor (u.reg.tone1.extractLsb' 4 6 ++ d4) } })

/-- LATCH_TONE2: the same for channel 2, and under rate select 3 the noise step becomes half the new one (R81, R88; decision
D4 for bits 9:4, log 15). -/
def Obligations.LatchTone2DrivesNoiseStep : Prop :=
  ∀ d4 : BitVec 4,
    BusWriteIs (.latchTone2 d4) (fun u =>
      { u with
        latch := 4
        reg := { u.reg with tone2 := u.reg.tone2.extractLsb' 4 6 ++ d4 }
        cntStep := { u.cntStep with
          q2 := u.stepFor (u.reg.tone2.extractLsb' 4 6 ++ d4)
          q3 := if u.reg.noise.extractLsb' 0 2 = 3 then u.stepFor (u.reg.tone2.extractLsb' 4 6 ++ d4) >>> 1
            else u.cntStep.q3 } })

/-- The four LATCH_VOL forms, bytes 0x90, 0xB0, 0xD0 and 0xF0 with the nibble in their low bits: after the flush, `latch`, the
volume register and the amplitude from the table, and nothing else; in the table index 15 is mute and index 0 loudest
(R85, R87, R89, R91). -/
def Obligations.LatchVolSetsAmplitude : Prop :=
  (∀ s : State, Inv s → s.configured = true →
    s.levelFor 15 = 0 ∧ ∀ d4, (s.levelFor d4).toNat ≤ (s.levelFor 0).toNat) ∧
  (∀ (d4 : BitVec 4) (fl : FlushArgs),
    decode (wrRequest (0x90#8 + d4.setWidth 8) fl) = .ok (.latchVol0 d4 fl) ∧
    decode (wrRequest (0xB0#8 + d4.setWidth 8) fl) = .ok (.latchVol1 d4 fl) ∧
    decode (wrRequest (0xD0#8 + d4.setWidth 8) fl) = .ok (.latchVol2 d4 fl) ∧
    decode (wrRequest (0xF0#8 + d4.setWidth 8) fl) = .ok (.latchVol3 d4 fl)) ∧
  ∀ d4 : BitVec 4,
    BusWriteIs (.latchVol0 d4) (fun u =>
      { u with
        latch := 1
        reg := { u.reg with vol := { u.reg.vol with q0 := d4 } }
        volume := { u.volume with q0 := u.levelFor d4 } }) ∧
    BusWriteIs (.latchVol1 d4) (fun u =>
      { u with
        latch := 3
        reg := { u.reg with vol := { u.reg.vol with q1 := d4 } }
        volume := { u.volume with q1 := u.levelFor d4 } }) ∧
    BusWriteIs (.latchVol2 d4) (fun u =>
      { u with
        latch := 5
        reg := { u.reg with vol := { u.reg.vol with q2 := d4 } }
        volume := { u.volume with q2 := u.levelFor d4 } }) ∧
    BusWriteIs (.latchVol3 d4) (fun u =>
      { u with
        latch := 7
        reg := { u.reg with vol := { u.reg.vol with q3 := d4 } }
        volume := { u.volume with q3 := u.levelFor d4 } })

/-- LATCH_NOISE, byte 0xE0 with the nibble in its low bits: after the flush, `latch`, the noise register, the shift register
restarted, the step by rate select and the mask by bit 2 (R90). -/
def Obligations.LatchNoiseRestartsNoise : Prop :=
  ∀ d4 : BitVec 4,
    (∀ fl, decode (wrRequest (0xE0#8 + d4.setWidth 8) fl) = .ok (.latchNoise d4 fl)) ∧
    BusWriteIs (.latchNoise d4) (fun u =>
      { u with
        latch := 6
        reg := { u.reg with noise := d4 }
        lfsr := 0x8000
        lfsrMask := if d4.getLsbD 2 then 0x0009 else 0x0001
        cntStep := { u.cntStep with
          q3 := if d4.extractLsb' 0 2 = 0 then u.noiseStepTable.q0
          else if d4.extractLsb' 0 2 = 1 then u.noiseStepTable.q1
          else if d4.extractLsb' 0 2 = 2 then u.noiseStepTable.q2
          else u.cntStep.q2 >>> 1 } })

/-- DATA on a tone register: bits 9:4 of the divisor, the step, for channel 2 the noise step under rate select 3; `latch`
and bits 3:0 kept, bit 6 of the byte without effect; it faults as its flush does (R92, R93; bit 6 is decision D4, log 15). -/
def Obligations.DataWritesDivisorHighBits : Prop :=
  ∀ (b6 : BitVec 1) (d6 : BitVec 6) (fl : FlushArgs) (s : State), s.configured = true →
    (∀ f, exec (.flush fl) s = .fault f → exec (.data b6 d6 fl) s = .fault f) ∧
    (FlushReady fl s → ∃ u, Flushed fl s u ∧
      (s.latch = 0 → exec (.data b6 d6 fl) s = .next
        { u with
          reg := { u.reg with tone0 := d6 ++ u.reg.tone0.extractLsb' 0 4 }
          cntStep := { u.cntStep with q0 := u.stepFor (d6 ++ u.reg.tone0.extractLsb' 0 4) } }) ∧
      (s.latch = 2 → exec (.data b6 d6 fl) s = .next
        { u with
          reg := { u.reg with tone1 := d6 ++ u.reg.tone1.extractLsb' 0 4 }
          cntStep := { u.cntStep with q1 := u.stepFor (d6 ++ u.reg.tone1.extractLsb' 0 4) } }) ∧
      (s.latch = 4 → exec (.data b6 d6 fl) s = .next
        { u with
          reg := { u.reg with tone2 := d6 ++ u.reg.tone2.extractLsb' 0 4 }
          cntStep := { u.cntStep with
            q2 := u.stepFor (d6 ++ u.reg.tone2.extractLsb' 0 4)
            q3 := if u.reg.noise.extractLsb' 0 2 = 3 then u.stepFor (d6 ++ u.reg.tone2.extractLsb' 0 4) >>> 1
              else u.cntStep.q3 } }))

/-- DATA on a 4-bit register acts as the LATCH byte of the latched register with the low four bits: the noise register when
`latch` is 6, a volume register when it is odd; and it faults as its flush does (R92, R94, R95). -/
def Obligations.DataOverwritesNibble : Prop :=
  ∀ (b6 : BitVec 1) (d6 : BitVec 6) (fl : FlushArgs) (s : State), s.configured = true →
    (∀ f, exec (.flush fl) s = .fault f → exec (.data b6 d6 fl) s = .fault f) ∧
    (FlushReady fl s → ∃ t, exec (.data b6 d6 fl) s = .next t ∧ t.latch = s.latch ∧
      (s.latch = 6 → exec (.latchNoise (d6.extractLsb' 0 4) fl) s = .next t) ∧
      (s.latch = 1 → exec (.latchVol0 (d6.extractLsb' 0 4) fl) s = .next t) ∧
      (s.latch = 3 → exec (.latchVol1 (d6.extractLsb' 0 4) fl) s = .next t) ∧
      (s.latch = 5 → exec (.latchVol2 (d6.extractLsb' 0 4) fl) s = .next t) ∧
      (s.latch = 7 → exec (.latchVol3 (d6.extractLsb' 0 4) fl) s = .next t))

/-- Writing the same byte again with no samples in between leaves the same state (R97). -/
def Obligations.RepeatedWriteChangesNothing : Prop :=
  ∀ (b : Byte) (fl : FlushArgs) (s t : State), exec (busForm b fl) s = .next t → exec (busForm b ⟨0, fl.p⟩) t = .next t

/-! ### Configure -/

/-- CONFIG accepts exactly the pairs of R176 and raises BadConfig, which records them, for every other (decision D24). -/
def Obligations.ConfigAcceptsExactly : Prop :=
  ∀ (clk rate : Int) (s : State),
    (exec (.config clk rate) s = .fault (.badConfig clk rate) ↔ ¬ (1 ≤ clk ∧ 1 ≤ rate ∧ clk < 1048576 * rate)) ∧
    ((∃ t, exec (.config clk rate) s = .next t) ↔ (1 ≤ clk ∧ 1 ≤ rate ∧ clk < 1048576 * rate))

/-- CONFIG leaves the table of R28: the PSG part at its reset values, with entry 15 of the volume table, which is zero under
admitted parameters, as the amplitudes; the tables anew, the cells, the parameters and the host's side as they were; what
it draws may be anything (decisions D9 to D11, D29; log 2 to log 5, log 25). -/
def Obligations.ConfigResetsPsg : Prop :=
  ∀ (clk rate : Int) (s : State), 1 ≤ clk → 1 ≤ rate → clk < 1048576 * rate →
    (s.config.Valid → (volumeTableOf s.config)[15] = 0) ∧ ∃ l e3, exec (.config clk rate) s = .next
      { s with
        reg := ⟨0, 0, 0, 0, ⟨15, 15, 15, 15⟩⟩
        latch := l
        volume := Quad.all (volumeTableOf s.config)[15]
        cntStep := ⟨(stepTableOf s.config clk.toNat rate.toNat)[0], (stepTableOf s.config clk.toNat rate.toNat)[0],
          (stepTableOf s.config clk.toNat rate.toNat)[0], (noiseStepTableOf s.config clk.toNat rate.toNat e3).q0⟩
        counter := ⟨0, 0, 0, 0⟩
        lfsr := 0x8000
        lfsrMask := 0x0001
        cur := none
        clockHz := clk
        rateHz := rate
        configured := true
        stepTable := stepTableOf s.config clk.toNat rate.toNat
        noiseStepTable := noiseStepTableOf s.config clk.toNat rate.toNat e3
        volumeTable := volumeTableOf s.config
        draws := s.draws + 1 }

/-- The step tables after CONFIG are the floors of the rational quotients of R110 and R125, none of them cut by its 32 bits,
and the steps of divisors 0 and 1 agree, each where its parameter leaves it to the spec's decisions (D5 to D7, D24; log 11
to log 13). -/
def Obligations.ConfigStepTablesAreFloors : Prop :=
  ∀ (clk rate : Int) (s t : State), exec (.config clk rate) s = .next t →
    (s.config.stepTable = none → ∀ (n : Nat) (h : n < 1024), 1 ≤ n →
      ((t.stepTable[n]).toNat : Int) = ⌊((clk : ℚ) * 65536) / (16 * (n : ℚ) * (rate : ℚ))⌋) ∧
    (s.config.stepTable = none → s.config.stepDiv0 = none → t.stepTable[0] = t.stepTable[1]) ∧
    (s.config.noiseStep = none →
      (t.noiseStepTable.q0.toNat : Int) = ⌊((clk : ℚ) * 65536) / (512 * (rate : ℚ))⌋ ∧
      (t.noiseStepTable.q1.toNat : Int) = ⌊((clk : ℚ) * 65536) / (1024 * (rate : ℚ))⌋ ∧
      (t.noiseStepTable.q2.toNat : Int) = ⌊((clk : ℚ) * 65536) / (2048 * (rate : ℚ))⌋)

/-- Numbers that the parameters give instead of the formulas are what CONFIG stores: the 16 amplitudes, the 1024 steps,
STEP_DIV0 beside the formula's steps, and NOISE_STEP (R4, R101, R112, R125; log 10 to log 13). -/
def Obligations.ConfigTakesGivenTables : Prop :=
  ∀ (clk rate : Int) (s t : State), exec (.config clk rate) s = .next t →
    (∀ tab, s.config.volumeTable = some tab → t.volumeTable = tab) ∧
    (∀ tab, s.config.stepTable = some tab → t.stepTable = tab) ∧
    (∀ v, s.config.stepTable = none → s.config.stepDiv0 = some v → t.stepTable[0] = v) ∧
    (∀ n0 n1 n2, s.config.noiseStep = some (n0, n1, n2) →
      t.noiseStepTable.q0 = n0 ∧ t.noiseStepTable.q1 = n1 ∧ t.noiseStepTable.q2 = n2)

/-- The volume table after CONFIG, where the parameters give no other numbers, is the floor of the real number of R100, and
entry 15 is silence (R100, R101; the rounding is decision D8, log 10). -/
def Obligations.ConfigVolumeTableIsFloor : Prop :=
  ∀ (clk rate : Int) (s t : State), s.config.volumeTable = none → exec (.config clk rate) s = .next t →
    (∀ (k : Nat) (h : k < 15), ((t.volumeTable[k]).toNat : Int) =
      ⌊((s.config.maxOutput.toNat : ℝ) / 3) / (10 : ℝ) ^ ((k : ℝ) / 10)⌋) ∧
    t.volumeTable[15] = 0

/-- In every configured state with the invariant the volume table never rises, ends in zero, and stays within a third of
MAX_OUTPUT (R102): the formula's table by its arithmetic, a given one because admitted parameters have the property. -/
def Obligations.VolumeTableNeverRises : Prop :=
  ∀ s : State, Inv s → s.configured = true →
    (∀ (i j : Nat) (hi : i < 16) (hj : j < 16), i ≤ j → (s.volumeTable[j]).toNat ≤ (s.volumeTable[i]).toNat) ∧
    s.volumeTable[15] = 0 ∧
    ∀ (i : Nat) (hi : i < 16), 3 * (s.volumeTable[i]).toNat ≤ s.config.maxOutput.toNat

/-- With the default full scale the four amplitudes together stay below the 16-bit ceiling (R104; the default 0x4FFF is the
spec's, from general knowledge: log 10). -/
def Obligations.DefaultAmplitudesFitSample : Prop :=
  ∀ s : State, Inv s → s.configured = true → s.config.maxOutput = 0x4FFF →
    s.volume.q0.toNat + s.volume.q1.toNat + s.volume.q2.toNat + s.volume.q3.toNat ≤ 27304

/-- When a step of the formula's table reaches the threshold, in terms of the clock (R113; the rounding is decision D5,
log 13; divisor 0 read as 1 is decision D6, log 11). -/
def Obligations.ThresholdInClockTerms : Prop :=
  ∀ (s : State) (n : BitVec 10), Inv s → s.configured = true → s.config.stepTable = none → s.config.stepDiv0 = none →
    (0x10000 ≤ (s.stepFor n).toNat ↔ 16 * (max n.toNat 1 : Int) * s.rateHz ≤ s.clockHz)

/-- CONFIG again with the same operands changes only what it draws (R175). -/
def Obligations.ConfigTwiceIsConfigOnce : Prop :=
  ∀ (clk rate : Int) (s t : State), exec (.config clk rate) s = .next t → ∃ l e3,
    exec (.config clk rate) t = .next
      { t with latch := l, noiseStepTable := { t.noiseStepTable with q3 := e3 }, draws := t.draws + 1 }

/-! ### Save, restore, debug -/

/-- SAVE hands over the registers in their significant widths, the placeholder for the counters, the shift register and the
fixed byte, and changes nothing (R177; that it does not flush is decision D18, log 30). -/
def Obligations.SaveReturnsRecord : Prop :=
  ∀ s : State, s.configured = true → exec .save s = .next
    { s with returned := s.returned ++ [.saved
      { toneReg := ⟨s.reg.tone0.toNat, s.reg.tone1.toNat, s.reg.tone2.toNat, s.reg.noise.toNat % 8⟩
        volReg := ⟨s.reg.vol.q0.toNat, s.reg.vol.q1.toNat, s.reg.vol.q2.toNat, s.reg.vol.q3.toNat⟩
        toneCtr := ⟨0xFFFF, 0xFFFF, 0xFFFF, 0xFFFF⟩
        lfsrState := s.lfsr.toNat
        ggStereo := s.config.ggStereo.toNat }] }

/-- RESTORE completes where its flush is ready and leaves the registers of the record, the derived elements that belong to
them, the shift register of the record and `latch` 7; its faults are those of the flush (R179 to R181; the replay is
decision D18, log 30). -/
def Obligations.RestoreSetsRegisters : Prop :=
  ∀ (r : SaveRecord) (fl : FlushArgs) (s : State), s.configured = true →
    (∀ f, exec (.flush fl) s = .fault f → exec (.restore r fl) s = .fault f) ∧
    (FlushReady fl s → ∃ u t, Flushed fl s u ∧ exec (.restore r fl) s = .next t ∧ Derived t ∧
      t = { u with
        reg := ⟨BitVec.ofNat 10 r.toneReg.q0, BitVec.ofNat 10 r.toneReg.q1, BitVec.ofNat 10 r.toneReg.q2,
          BitVec.ofNat 4 r.toneReg.q3,
          ⟨BitVec.ofNat 4 r.volReg.q0, BitVec.ofNat 4 r.volReg.q1, BitVec.ofNat 4 r.volReg.q2, BitVec.ofNat 4 r.volReg.q3⟩⟩
        latch := 7
        volume := t.volume
        cntStep := t.cntStep
        lfsr := BitVec.ofNat 16 r.lfsrState
        lfsrMask := t.lfsrMask })

/-- RESTORE is the eleven bus writes of R179 presented one after another, the first with the flush operands, and then the
shift register (R179; the order of the registers is decision D18, log 30). -/
def Obligations.RestoreReplaysElevenWrites : Prop :=
  ∀ (r : SaveRecord) (fl : FlushArgs) (s t : State), exec (.restore r fl) s = .next t → ∃ u : State,
    Host.Core.run Sys2Proof.core 11 { s with pending :=
      [encode (.latchTone0 (BitVec.ofNat 4 r.toneReg.q0) fl), encode (.data 0 (BitVec.ofNat 6 (r.toneReg.q0 / 16)) ⟨0, fl.p⟩),
       encode (.latchVol0 (BitVec.ofNat 4 r.volReg.q0) ⟨0, fl.p⟩),
       encode (.latchTone1 (BitVec.ofNat 4 r.toneReg.q1) ⟨0, fl.p⟩), encode (.data 0 (BitVec.ofNat 6 (r.toneReg.q1 / 16)) ⟨0, fl.p⟩),
       encode (.latchVol1 (BitVec.ofNat 4 r.volReg.q1) ⟨0, fl.p⟩),
       encode (.latchTone2 (BitVec.ofNat 4 r.toneReg.q2) ⟨0, fl.p⟩), encode (.data 0 (BitVec.ofNat 6 (r.toneReg.q2 / 16)) ⟨0, fl.p⟩),
       encode (.latchVol2 (BitVec.ofNat 4 r.volReg.q2) ⟨0, fl.p⟩),
       encode (.latchNoise (BitVec.ofNat 4 r.toneReg.q3) ⟨0, fl.p⟩),
       encode (.latchVol3 (BitVec.ofNat 4 r.volReg.q3) ⟨0, fl.p⟩)] } = .next u ∧
    t = { u with pending := s.pending, lfsr := BitVec.ofNat 16 r.lfsrState }

/-- The round trip: saving a block and restoring the record into it, with no samples and the cursor as it is, changes only
`latch`, which becomes 7 (the last byte of the replay: decision D18, log 30), and bit 3 of the noise register, which becomes
0 (that it was stored is conflict C5, log 31) (R182). -/
def Obligations.SaveThenRestoreRoundTrips : Prop :=
  ∀ s : State, Inv s → s.configured = true → ∃ r t,
    exec .save s = .next t ∧ t = { s with returned := s.returned ++ [.saved r] } ∧
    exec (.restore r ⟨0, none⟩) t = .next { t with latch := 7, reg := { t.reg with noise := t.reg.noise &&& 7 } }

/-- And the other way: saving after a restore gives the record back, masked to the significant widths, with the
placeholders in the other fields (R182). -/
def Obligations.RestoreThenSaveRoundTrips : Prop :=
  ∀ (r : SaveRecord) (fl : FlushArgs) (s : State), s.configured = true → FlushReady fl s → ∃ t,
    exec (.restore r fl) s = .next t ∧ exec .save t = .next
      { t with returned := t.returned ++ [.saved
        { toneReg := ⟨r.toneReg.q0 % 1024, r.toneReg.q1 % 1024, r.toneReg.q2 % 1024, r.toneReg.q3 % 8⟩
          volReg := ⟨r.volReg.q0 % 16, r.volReg.q1 % 16, r.volReg.q2 % 16, r.volReg.q3 % 16⟩
          toneCtr := ⟨0xFFFF, 0xFFFF, 0xFFFF, 0xFFFF⟩
          lfsrState := r.lfsrState % 65536
          ggStereo := s.config.ggStereo.toNat }] }

/-- DBG_GETREG, selector 8 with its index beside it, hands over the register of its index, zero-extended, and outside 0..7
the negative sentinel; it changes nothing, and faults only in an unconfigured block (R183). -/
def Obligations.DbgGetRegReadsRegister : Prop :=
  (∀ i, decode ⟨txWord 8 0, [i]⟩ = .ok (.dbgGetReg i)) ∧
  ∀ s : State,
    (s.configured = false → ∀ i, exec (.dbgGetReg i) s = .fault (.notConfigured (.dbgGetReg i))) ∧
    (s.config.Valid → s.config.dbgErr < 0) ∧
    (s.configured = true →
      exec (.dbgGetReg 0) s = .next { s with returned := s.returned ++ [.value s.reg.tone0.toNat] } ∧
      exec (.dbgGetReg 1) s = .next { s with returned := s.returned ++ [.value s.reg.vol.q0.toNat] } ∧
      exec (.dbgGetReg 2) s = .next { s with returned := s.returned ++ [.value s.reg.tone1.toNat] } ∧
      exec (.dbgGetReg 3) s = .next { s with returned := s.returned ++ [.value s.reg.vol.q1.toNat] } ∧
      exec (.dbgGetReg 4) s = .next { s with returned := s.returned ++ [.value s.reg.tone2.toNat] } ∧
      exec (.dbgGetReg 5) s = .next { s with returned := s.returned ++ [.value s.reg.vol.q2.toNat] } ∧
      exec (.dbgGetReg 6) s = .next { s with returned := s.returned ++ [.value s.reg.noise.toNat] } ∧
      exec (.dbgGetReg 7) s = .next { s with returned := s.returned ++ [.value s.reg.vol.q3.toNat] } ∧
      ∀ i : Int, i < 0 ∨ 7 < i →
        exec (.dbgGetReg i) s = .next { s with returned := s.returned ++ [.value s.config.dbgErr] })

/-- DBG_SETREG outside 0..7 hands over the sentinel and changes nothing; inside it is refused (R185; the refusal is decision
D19, log 24). -/
def Obligations.DbgSetRegOutsideReturnsSentinel : Prop :=
  ∀ (s : State) (i v : Int), s.configured = true →
    (i < 0 ∨ 7 < i →
      exec (.dbgSetReg i v) s = .next { s with returned := s.returned ++ [.value s.config.dbgErr] }) ∧
    (0 ≤ i ∧ i ≤ 7 → exec (.dbgSetReg i v) s = .fault (.dbgSetRefused i v))

/-- DBG_GETLATCH, selector 10, hands over `latch`, 0 to 7, and changes nothing; it faults only in an unconfigured block (R184). -/
def Obligations.DbgGetLatchReadsLatch : Prop :=
  decode ⟨txWord 10 0, []⟩ = .ok .dbgGetLatch ∧
  ∀ s : State,
    (s.configured = false → exec .dbgGetLatch s = .fault (.notConfigured .dbgGetLatch)) ∧
    (s.configured = true →
      exec .dbgGetLatch s = .next { s with returned := s.returned ++ [.value s.latch.toNat] } ∧ s.latch.toNat ≤ 7)

/-! ### The accumulator and the quantizer -/

/-- EXT_ADD adds to one cell of each array and touches nothing else, configured or not (R145). -/
def Obligations.ExtAddAddsToOneCell : Prop :=
  ∀ (i : Nat) (dL dR : Int) (s : State), i < s.config.segCap → inI32 ((s.cell .left i).toInt + dL) →
    inI32 ((s.cell .right i).toInt + dR) → ∃ t, exec (.extAdd i dL dR) s = .next t ∧
      (t.cell .left i).toInt = (s.cell .left i).toInt + dL ∧
      (t.cell .right i).toInt = (s.cell .right i).toInt + dR ∧
      (∀ side j, j ≠ i → t.cell side j = s.cell side j) ∧
      t = { s with accL := t.accL, accR := t.accR }

/-- Where EXT_ADD faults: at a cell that does not exist; at the left sum, nothing written; at the right sum, the left
addition staying and the right cell unwritten (the spec's model faults, decisions D14, D15; R201, R204). -/
def Obligations.ExtAddFaults : Prop :=
  ∀ (i : Nat) (dL dR : Int) (s : State),
    (s.config.segCap ≤ i → exec (.extAdd i dL dR) s = .fault (.accIndex i)) ∧
    (i < s.config.segCap → ¬ inI32 ((s.cell .left i).toInt + dL) →
      exec (.extAdd i dL dR) s = .fault (.accOverflow i .left s)) ∧
    (i < s.config.segCap → inI32 ((s.cell .left i).toInt + dL) → ¬ inI32 ((s.cell .right i).toInt + dR) →
      ∃ u, exec (.extAdd i dL dR) s = .fault (.accOverflow i .right u) ∧
        (u.cell .left i).toInt = (s.cell .left i).toInt + dL ∧ u = { s with accL := u.accL })

/-- `sat16` is the clamp to the bounds of an i16, whose result is always an i16 and whose cases may be drawn at `<` or at
`<=` alike (R160). -/
def Obligations.Sat16Clamps : Prop :=
  ∀ v : Int, sat16 v = clamp16 v ∧ -32768 ≤ sat16 v ∧ sat16 v ≤ 32767 ∧ sat16 (sat16 v) = sat16 v ∧
    sat16 v = if v ≤ -0x8000 then -0x8000 else if 0x7FFF ≤ v then 0x7FFF else v

/-- DRAIN_STEREO hands over the two saturated samples of each drained cell, left first, with code 0, and clears (R161,
R163, R164; which cells beyond the drained ones are cleared is the parameter of conflict C3, log 26). -/
def Obligations.DrainStereoSaturatesAndClears : Prop :=
  ∀ (len : Nat) (s : State), len ≤ s.config.segCap → ∃ t dest,
    exec (.drainStereo len) s = .next t ∧ Drained len (.stereo dest 0) s t ∧ dest.length = 2 * len ∧
    ∀ i, i < len → dest[2 * i]? = some (clamp16 (s.cell .left i).toInt) ∧
      dest[2 * i + 1]? = some (clamp16 (s.cell .right i).toInt)

/-- DRAIN_MONO hands over, for each drained cell, the sum halved towards minus infinity and then saturated, with code 0,
and clears (R162 to R164; log 26). -/
def Obligations.DrainMonoHalvesThenSaturates : Prop :=
  ∀ (len : Nat) (s : State), len ≤ s.config.segCap →
    (∀ i, i < len → inI32 ((s.cell .left i).toInt + (s.cell .right i).toInt)) → ∃ t dest,
    exec (.drainMono len) s = .next t ∧ Drained len (.mono dest 0) s t ∧ dest.length = len ∧
    ∀ i, i < len → dest[i]? =
      some (clamp16 ⌊(((s.cell .left i).toInt + (s.cell .right i).toInt : Int) : ℚ) / 2⌋)

/-- Where the drains fault: a length beyond SEG_CAP; for the mono drain the first cell whose sum leaves i32 (the spec's model
faults, decisions D14, D15; R161, R162, R204). -/
def Obligations.DrainFaults : Prop :=
  ∀ (len : Nat) (s : State),
    (s.config.segCap < len → exec (.drainStereo len) s = .fault (.accIndex len) ∧
      exec (.drainMono len) s = .fault (.accIndex len)) ∧
    ∀ i, exec (.drainMono len) s = .fault (.monoSumOverflow i) ↔
      len ≤ s.config.segCap ∧ i < len ∧ ¬ inI32 ((s.cell .left i).toInt + (s.cell .right i).toInt) ∧
      ∀ j, j < i → inI32 ((s.cell .left j).toInt + (s.cell .right j).toInt)
end

