-- ==== Sys2Proof/Laws/Decode.lean ====
section
/-! SUPPORT. The fields of the words that the encoder writes, and the operands that it lays beside them. -/

namespace Sys2Proof

/-! ### The word and the byte -/

theorem txWord_getLsbD (sel : BitVec 4) (b : Byte) (k : Nat) :
    (txWord sel b).getLsbD k = if k < 8 then b.getLsbD k else if k < 12 then sel.getLsbD (k - 8) else false := by
  refine (BitVec.getLsbD_append (x := (0#4 ++ sel)) (y := b)).trans ?_
  by_cases h : k < 8
  · simp [h]
  · simp only [h, if_false]
    refine (BitVec.getLsbD_append (x := 0#4) (y := sel)).trans ?_
    by_cases h2 : k < 12
    · simp [h2]; intro; omega
    · simp [h2]; intro; omega

theorem txWord_high (sel : BitVec 4) (b : Byte) : (txWord sel b).extractLsb' 12 4 = 0 := by
  ext k hk
  simp only [BitVec.getElem_extractLsb', txWord_getLsbD]
  simp
  omega

theorem txWord_selector (sel : BitVec 4) (b : Byte) : selector (txWord sel b) = sel.toNat := by
  unfold selector
  congr 1
  ext k hk
  simp only [BitVec.getElem_extractLsb', txWord_getLsbD]
  simp [hk]; omega

theorem txWord_busByte (sel : BitVec 4) (b : Byte) : busByte (txWord sel b) = b := by
  unfold busByte
  ext k hk
  simp only [BitVec.getElem_extractLsb', txWord_getLsbD]
  simp [hk]

theorem latchByte_bits : ∀ (r : BitVec 3) (d4 : BitVec 4),
    isLatchByte (latchByte r d4) = true ∧ latchIndex (latchByte r d4) = r ∧ latchNibble (latchByte r d4) = d4 := by
  decide

theorem dataByte_bits : ∀ (b6 : BitVec 1) (d6 : BitVec 6),
    isLatchByte (dataByte b6 d6) = false ∧ ignoredBit (dataByte b6 d6) = b6 ∧ dataBits (dataByte b6 d6) = d6 := by
  decide

/-! ### The operands -/

@[simp] theorem naturals_nil : naturals [] = .ok [] := rfl

@[simp] theorem naturals_natCast (n : Nat) (rest : List Int) :
    naturals ((n : Int) :: rest) = match naturals rest with
      | .ok ns => .ok (n :: ns)
      | .error e => .error e := by
  have hn : ¬ (n : Int) < 0 := by omega
  cases h : naturals rest <;> simp [naturals, hn, h]

/-- Reading back a bracket. -/
theorem withBracket_bracketOps (fl : FlushArgs) (mk : FlushArgs → Instr) :
    withBracket (bracketOps fl) mk = .ok (mk fl) := by
  obtain ⟨n, p⟩ := fl
  cases p with
  | some p => simp [withBracket, bracketOps, bracket]
  | none => by_cases h : n = 0 <;> simp [withBracket, bracketOps, bracket, h, FlushArgs.leftOff]

/-- Reading back a record and its bracket. -/
theorem decodeRestore_recordOps (r : SaveRecord) (fl : FlushArgs) :
    decodeRestore (recordOps r ++ bracketOps fl) = .ok (.restore r fl) := by
  obtain ⟨n, p⟩ := fl
  cases p with
  | some p => simp [decodeRestore, recordOps, quadOps, bracketOps, bracket, recordOf, quadAt]
  | none =>
    by_cases h : n = 0 <;>
      simp [decodeRestore, recordOps, quadOps, bracketOps, bracket, recordOf, quadAt, h, FlushArgs.leftOff]

/-- Decoding a bus write is reading its byte. -/
theorem decode_wrRequest (b : Byte) (fl : FlushArgs) : decode (wrRequest b fl) = .ok (busForm b fl) := by
  unfold decode wrRequest
  simp only [txWord_high, txWord_selector, txWord_busByte, ne_eq, not_true_eq_false, if_false]
  exact withBracket_bracketOps fl _

end Sys2Proof
end

