-- ==== Sys2Proof/Laws/State.lean ====
section
/-! SUPPORT. The small lemmas of State: one per field per update, and the lookups and updates of quads and registers. -/

namespace Sys2Proof

/-! ### Quads -/

@[simp] theorem Quad.get_c0 {α : Type} (q : Quad α) : q.get .c0 = q.q0 := rfl
@[simp] theorem Quad.get_c1 {α : Type} (q : Quad α) : q.get .c1 = q.q1 := rfl
@[simp] theorem Quad.get_c2 {α : Type} (q : Quad α) : q.get .c2 = q.q2 := rfl
@[simp] theorem Quad.get_c3 {α : Type} (q : Quad α) : q.get .c3 = q.q3 := rfl
@[simp] theorem Quad.set_c0 {α : Type} (q : Quad α) (v : α) : q.set .c0 v = ⟨v, q.q1, q.q2, q.q3⟩ := rfl
@[simp] theorem Quad.set_c1 {α : Type} (q : Quad α) (v : α) : q.set .c1 v = ⟨q.q0, v, q.q2, q.q3⟩ := rfl
@[simp] theorem Quad.set_c2 {α : Type} (q : Quad α) (v : α) : q.set .c2 v = ⟨q.q0, q.q1, v, q.q3⟩ := rfl
@[simp] theorem Quad.set_c3 {α : Type} (q : Quad α) (v : α) : q.set .c3 v = ⟨q.q0, q.q1, q.q2, v⟩ := rfl
@[simp] theorem Quad.get_all {α : Type} (v : α) (c : Chan) : (Quad.all v).get c = v := by cases c <;> rfl

@[simp] theorem Quad.get_set_same {α : Type} (q : Quad α) (c : Chan) (v : α) : (q.set c v).get c = v := by
  cases c <;> rfl

theorem Quad.get_set_ne {α : Type} (q : Quad α) {c d : Chan} (v : α) (h : d ≠ c) : (q.set c v).get d = q.get d := by
  cases c <;> cases d <;> first | rfl | exact absurd rfl h

@[simp] theorem Quad.set_set {α : Type} (q : Quad α) (c : Chan) (v w : α) : (q.set c v).set c w = q.set c w := by
  cases c <;> rfl

@[simp] theorem Quad.set_get {α : Type} (q : Quad α) (c : Chan) : q.set c (q.get c) = q := by
  cases c <;> rfl

@[simp] theorem ToneCh.chan_t0 : ToneCh.t0.chan = .c0 := rfl
@[simp] theorem ToneCh.chan_t1 : ToneCh.t1.chan = .c1 := rfl
@[simp] theorem ToneCh.chan_t2 : ToneCh.t2.chan = .c2 := rfl

theorem ToneCh.chan_ne_c3 (c : ToneCh) : c.chan ≠ .c3 := by cases c <;> decide

end Sys2Proof

namespace Sys2Proof.Machine

/-! ### Registers -/

@[simp] theorem Regs.tone_t0 (r : Regs) : r.tone .t0 = r.tone0 := rfl
@[simp] theorem Regs.tone_t1 (r : Regs) : r.tone .t1 = r.tone1 := rfl
@[simp] theorem Regs.tone_t2 (r : Regs) : r.tone .t2 = r.tone2 := rfl
@[simp] theorem Regs.setTone_t0 (r : Regs) (v : BitVec 10) : r.setTone .t0 v = { r with tone0 := v } := rfl
@[simp] theorem Regs.setTone_t1 (r : Regs) (v : BitVec 10) : r.setTone .t1 v = { r with tone1 := v } := rfl
@[simp] theorem Regs.setTone_t2 (r : Regs) (v : BitVec 10) : r.setTone .t2 v = { r with tone2 := v } := rfl
@[simp] theorem Regs.setTone_noise (r : Regs) (c : ToneCh) (v : BitVec 10) : (r.setTone c v).noise = r.noise := by
  cases c <;> rfl
@[simp] theorem Regs.setTone_vol (r : Regs) (c : ToneCh) (v : BitVec 10) : (r.setTone c v).vol = r.vol := by
  cases c <;> rfl
@[simp] theorem Regs.tone_setTone_same (r : Regs) (c : ToneCh) (v : BitVec 10) : (r.setTone c v).tone c = v := by
  cases c <;> rfl
theorem Regs.tone_setTone_ne (r : Regs) {c d : ToneCh} (v : BitVec 10) (h : d ≠ c) :
    (r.setTone c v).tone d = r.tone d := by
  cases c <;> cases d <;> first | rfl | exact absurd rfl h
@[simp] theorem Regs.setNoise_noise (r : Regs) (v : BitVec 4) : (r.setNoise v).noise = v := rfl
@[simp] theorem Regs.setNoise_vol (r : Regs) (v : BitVec 4) : (r.setNoise v).vol = r.vol := rfl
@[simp] theorem Regs.setNoise_tone (r : Regs) (v : BitVec 4) (c : ToneCh) : (r.setNoise v).tone c = r.tone c := by
  cases c <;> rfl
@[simp] theorem Regs.setVol_noise (r : Regs) (c : Chan) (v : BitVec 4) : (r.setVol c v).noise = r.noise := rfl
@[simp] theorem Regs.setVol_vol (r : Regs) (c : Chan) (v : BitVec 4) : (r.setVol c v).vol = r.vol.set c v := rfl
@[simp] theorem Regs.setVol_tone (r : Regs) (c : Chan) (v : BitVec 4) (d : ToneCh) :
    (r.setVol c v).tone d = r.tone d := by
  cases d <;> rfl

/-! ### One field, one update -/


@[simp] theorem State.setReg_config (s : State) (v : Regs) : (s.setReg v).config = s.config := rfl
@[simp] theorem State.setReg_reg (s : State) (v : Regs) : (s.setReg v).reg = v := rfl
@[simp] theorem State.setReg_latch (s : State) (v : Regs) : (s.setReg v).latch = s.latch := rfl
@[simp] theorem State.setReg_volume (s : State) (v : Regs) : (s.setReg v).volume = s.volume := rfl
@[simp] theorem State.setReg_cntStep (s : State) (v : Regs) : (s.setReg v).cntStep = s.cntStep := rfl
@[simp] theorem State.setReg_counter (s : State) (v : Regs) : (s.setReg v).counter = s.counter := rfl
@[simp] theorem State.setReg_lfsr (s : State) (v : Regs) : (s.setReg v).lfsr = s.lfsr := rfl
@[simp] theorem State.setReg_lfsrMask (s : State) (v : Regs) : (s.setReg v).lfsrMask = s.lfsrMask := rfl
@[simp] theorem State.setReg_cur (s : State) (v : Regs) : (s.setReg v).cur = s.cur := rfl
@[simp] theorem State.setReg_clockHz (s : State) (v : Regs) : (s.setReg v).clockHz = s.clockHz := rfl
@[simp] theorem State.setReg_rateHz (s : State) (v : Regs) : (s.setReg v).rateHz = s.rateHz := rfl
@[simp] theorem State.setReg_configured (s : State) (v : Regs) : (s.setReg v).configured = s.configured := rfl
@[simp] theorem State.setReg_stepTable (s : State) (v : Regs) : (s.setReg v).stepTable = s.stepTable := rfl
@[simp] theorem State.setReg_noiseStepTable (s : State) (v : Regs) : (s.setReg v).noiseStepTable = s.noiseStepTable := rfl
@[simp] theorem State.setReg_volumeTable (s : State) (v : Regs) : (s.setReg v).volumeTable = s.volumeTable := rfl
@[simp] theorem State.setReg_accL (s : State) (v : Regs) : (s.setReg v).accL = s.accL := rfl
@[simp] theorem State.setReg_accR (s : State) (v : Regs) : (s.setReg v).accR = s.accR := rfl
@[simp] theorem State.setReg_pending (s : State) (v : Regs) : (s.setReg v).pending = s.pending := rfl
@[simp] theorem State.setReg_returned (s : State) (v : Regs) : (s.setReg v).returned = s.returned := rfl
@[simp] theorem State.setReg_draws (s : State) (v : Regs) : (s.setReg v).draws = s.draws := rfl

@[simp] theorem State.setLatch_config (s : State) (v : BitVec 3) : (s.setLatch v).config = s.config := rfl
@[simp] theorem State.setLatch_reg (s : State) (v : BitVec 3) : (s.setLatch v).reg = s.reg := rfl
@[simp] theorem State.setLatch_latch (s : State) (v : BitVec 3) : (s.setLatch v).latch = v := rfl
@[simp] theorem State.setLatch_volume (s : State) (v : BitVec 3) : (s.setLatch v).volume = s.volume := rfl
@[simp] theorem State.setLatch_cntStep (s : State) (v : BitVec 3) : (s.setLatch v).cntStep = s.cntStep := rfl
@[simp] theorem State.setLatch_counter (s : State) (v : BitVec 3) : (s.setLatch v).counter = s.counter := rfl
@[simp] theorem State.setLatch_lfsr (s : State) (v : BitVec 3) : (s.setLatch v).lfsr = s.lfsr := rfl
@[simp] theorem State.setLatch_lfsrMask (s : State) (v : BitVec 3) : (s.setLatch v).lfsrMask = s.lfsrMask := rfl
@[simp] theorem State.setLatch_cur (s : State) (v : BitVec 3) : (s.setLatch v).cur = s.cur := rfl
@[simp] theorem State.setLatch_clockHz (s : State) (v : BitVec 3) : (s.setLatch v).clockHz = s.clockHz := rfl
@[simp] theorem State.setLatch_rateHz (s : State) (v : BitVec 3) : (s.setLatch v).rateHz = s.rateHz := rfl
@[simp] theorem State.setLatch_configured (s : State) (v : BitVec 3) : (s.setLatch v).configured = s.configured := rfl
@[simp] theorem State.setLatch_stepTable (s : State) (v : BitVec 3) : (s.setLatch v).stepTable = s.stepTable := rfl
@[simp] theorem State.setLatch_noiseStepTable (s : State) (v : BitVec 3) : (s.setLatch v).noiseStepTable = s.noiseStepTable := rfl
@[simp] theorem State.setLatch_volumeTable (s : State) (v : BitVec 3) : (s.setLatch v).volumeTable = s.volumeTable := rfl
@[simp] theorem State.setLatch_accL (s : State) (v : BitVec 3) : (s.setLatch v).accL = s.accL := rfl
@[simp] theorem State.setLatch_accR (s : State) (v : BitVec 3) : (s.setLatch v).accR = s.accR := rfl
@[simp] theorem State.setLatch_pending (s : State) (v : BitVec 3) : (s.setLatch v).pending = s.pending := rfl
@[simp] theorem State.setLatch_returned (s : State) (v : BitVec 3) : (s.setLatch v).returned = s.returned := rfl
@[simp] theorem State.setLatch_draws (s : State) (v : BitVec 3) : (s.setLatch v).draws = s.draws := rfl

@[simp] theorem State.setVolume_config (s : State) (c : Chan) (v : U32) : (s.setVolume c v).config = s.config := rfl
@[simp] theorem State.setVolume_reg (s : State) (c : Chan) (v : U32) : (s.setVolume c v).reg = s.reg := rfl
@[simp] theorem State.setVolume_latch (s : State) (c : Chan) (v : U32) : (s.setVolume c v).latch = s.latch := rfl
@[simp] theorem State.setVolume_volume (s : State) (c : Chan) (v : U32) : (s.setVolume c v).volume = s.volume.set c v := rfl
@[simp] theorem State.setVolume_cntStep (s : State) (c : Chan) (v : U32) : (s.setVolume c v).cntStep = s.cntStep := rfl
@[simp] theorem State.setVolume_counter (s : State) (c : Chan) (v : U32) : (s.setVolume c v).counter = s.counter := rfl
@[simp] theorem State.setVolume_lfsr (s : State) (c : Chan) (v : U32) : (s.setVolume c v).lfsr = s.lfsr := rfl
@[simp] theorem State.setVolume_lfsrMask (s : State) (c : Chan) (v : U32) : (s.setVolume c v).lfsrMask = s.lfsrMask := rfl
@[simp] theorem State.setVolume_cur (s : State) (c : Chan) (v : U32) : (s.setVolume c v).cur = s.cur := rfl
@[simp] theorem State.setVolume_clockHz (s : State) (c : Chan) (v : U32) : (s.setVolume c v).clockHz = s.clockHz := rfl
@[simp] theorem State.setVolume_rateHz (s : State) (c : Chan) (v : U32) : (s.setVolume c v).rateHz = s.rateHz := rfl
@[simp] theorem State.setVolume_configured (s : State) (c : Chan) (v : U32) : (s.setVolume c v).configured = s.configured := rfl
@[simp] theorem State.setVolume_stepTable (s : State) (c : Chan) (v : U32) : (s.setVolume c v).stepTable = s.stepTable := rfl
@[simp] theorem State.setVolume_noiseStepTable (s : State) (c : Chan) (v : U32) : (s.setVolume c v).noiseStepTable = s.noiseStepTable := rfl
@[simp] theorem State.setVolume_volumeTable (s : State) (c : Chan) (v : U32) : (s.setVolume c v).volumeTable = s.volumeTable := rfl
@[simp] theorem State.setVolume_accL (s : State) (c : Chan) (v : U32) : (s.setVolume c v).accL = s.accL := rfl
@[simp] theorem State.setVolume_accR (s : State) (c : Chan) (v : U32) : (s.setVolume c v).accR = s.accR := rfl
@[simp] theorem State.setVolume_pending (s : State) (c : Chan) (v : U32) : (s.setVolume c v).pending = s.pending := rfl
@[simp] theorem State.setVolume_returned (s : State) (c : Chan) (v : U32) : (s.setVolume c v).returned = s.returned := rfl
@[simp] theorem State.setVolume_draws (s : State) (c : Chan) (v : U32) : (s.setVolume c v).draws = s.draws := rfl

@[simp] theorem State.setStep_config (s : State) (c : Chan) (v : U32) : (s.setStep c v).config = s.config := rfl
@[simp] theorem State.setStep_reg (s : State) (c : Chan) (v : U32) : (s.setStep c v).reg = s.reg := rfl
@[simp] theorem State.setStep_latch (s : State) (c : Chan) (v : U32) : (s.setStep c v).latch = s.latch := rfl
@[simp] theorem State.setStep_volume (s : State) (c : Chan) (v : U32) : (s.setStep c v).volume = s.volume := rfl
@[simp] theorem State.setStep_cntStep (s : State) (c : Chan) (v : U32) : (s.setStep c v).cntStep = s.cntStep.set c v := rfl
@[simp] theorem State.setStep_counter (s : State) (c : Chan) (v : U32) : (s.setStep c v).counter = s.counter := rfl
@[simp] theorem State.setStep_lfsr (s : State) (c : Chan) (v : U32) : (s.setStep c v).lfsr = s.lfsr := rfl
@[simp] theorem State.setStep_lfsrMask (s : State) (c : Chan) (v : U32) : (s.setStep c v).lfsrMask = s.lfsrMask := rfl
@[simp] theorem State.setStep_cur (s : State) (c : Chan) (v : U32) : (s.setStep c v).cur = s.cur := rfl
@[simp] theorem State.setStep_clockHz (s : State) (c : Chan) (v : U32) : (s.setStep c v).clockHz = s.clockHz := rfl
@[simp] theorem State.setStep_rateHz (s : State) (c : Chan) (v : U32) : (s.setStep c v).rateHz = s.rateHz := rfl
@[simp] theorem State.setStep_configured (s : State) (c : Chan) (v : U32) : (s.setStep c v).configured = s.configured := rfl
@[simp] theorem State.setStep_stepTable (s : State) (c : Chan) (v : U32) : (s.setStep c v).stepTable = s.stepTable := rfl
@[simp] theorem State.setStep_noiseStepTable (s : State) (c : Chan) (v : U32) : (s.setStep c v).noiseStepTable = s.noiseStepTable := rfl
@[simp] theorem State.setStep_volumeTable (s : State) (c : Chan) (v : U32) : (s.setStep c v).volumeTable = s.volumeTable := rfl
@[simp] theorem State.setStep_accL (s : State) (c : Chan) (v : U32) : (s.setStep c v).accL = s.accL := rfl
@[simp] theorem State.setStep_accR (s : State) (c : Chan) (v : U32) : (s.setStep c v).accR = s.accR := rfl
@[simp] theorem State.setStep_pending (s : State) (c : Chan) (v : U32) : (s.setStep c v).pending = s.pending := rfl
@[simp] theorem State.setStep_returned (s : State) (c : Chan) (v : U32) : (s.setStep c v).returned = s.returned := rfl
@[simp] theorem State.setStep_draws (s : State) (c : Chan) (v : U32) : (s.setStep c v).draws = s.draws := rfl

@[simp] theorem State.setCounter_config (s : State) (c : Chan) (v : U32) : (s.setCounter c v).config = s.config := rfl
@[simp] theorem State.setCounter_reg (s : State) (c : Chan) (v : U32) : (s.setCounter c v).reg = s.reg := rfl
@[simp] theorem State.setCounter_latch (s : State) (c : Chan) (v : U32) : (s.setCounter c v).latch = s.latch := rfl
@[simp] theorem State.setCounter_volume (s : State) (c : Chan) (v : U32) : (s.setCounter c v).volume = s.volume := rfl
@[simp] theorem State.setCounter_cntStep (s : State) (c : Chan) (v : U32) : (s.setCounter c v).cntStep = s.cntStep := rfl
@[simp] theorem State.setCounter_counter (s : State) (c : Chan) (v : U32) : (s.setCounter c v).counter = s.counter.set c v := rfl
@[simp] theorem State.setCounter_lfsr (s : State) (c : Chan) (v : U32) : (s.setCounter c v).lfsr = s.lfsr := rfl
@[simp] theorem State.setCounter_lfsrMask (s : State) (c : Chan) (v : U32) : (s.setCounter c v).lfsrMask = s.lfsrMask := rfl
@[simp] theorem State.setCounter_cur (s : State) (c : Chan) (v : U32) : (s.setCounter c v).cur = s.cur := rfl
@[simp] theorem State.setCounter_clockHz (s : State) (c : Chan) (v : U32) : (s.setCounter c v).clockHz = s.clockHz := rfl
@[simp] theorem State.setCounter_rateHz (s : State) (c : Chan) (v : U32) : (s.setCounter c v).rateHz = s.rateHz := rfl
@[simp] theorem State.setCounter_configured (s : State) (c : Chan) (v : U32) : (s.setCounter c v).configured = s.configured := rfl
@[simp] theorem State.setCounter_stepTable (s : State) (c : Chan) (v : U32) : (s.setCounter c v).stepTable = s.stepTable := rfl
@[simp] theorem State.setCounter_noiseStepTable (s : State) (c : Chan) (v : U32) : (s.setCounter c v).noiseStepTable = s.noiseStepTable := rfl
@[simp] theorem State.setCounter_volumeTable (s : State) (c : Chan) (v : U32) : (s.setCounter c v).volumeTable = s.volumeTable := rfl
@[simp] theorem State.setCounter_accL (s : State) (c : Chan) (v : U32) : (s.setCounter c v).accL = s.accL := rfl
@[simp] theorem State.setCounter_accR (s : State) (c : Chan) (v : U32) : (s.setCounter c v).accR = s.accR := rfl
@[simp] theorem State.setCounter_pending (s : State) (c : Chan) (v : U32) : (s.setCounter c v).pending = s.pending := rfl
@[simp] theorem State.setCounter_returned (s : State) (c : Chan) (v : U32) : (s.setCounter c v).returned = s.returned := rfl
@[simp] theorem State.setCounter_draws (s : State) (c : Chan) (v : U32) : (s.setCounter c v).draws = s.draws := rfl

@[simp] theorem State.setLfsr_config (s : State) (v : U16) : (s.setLfsr v).config = s.config := rfl
@[simp] theorem State.setLfsr_reg (s : State) (v : U16) : (s.setLfsr v).reg = s.reg := rfl
@[simp] theorem State.setLfsr_latch (s : State) (v : U16) : (s.setLfsr v).latch = s.latch := rfl
@[simp] theorem State.setLfsr_volume (s : State) (v : U16) : (s.setLfsr v).volume = s.volume := rfl
@[simp] theorem State.setLfsr_cntStep (s : State) (v : U16) : (s.setLfsr v).cntStep = s.cntStep := rfl
@[simp] theorem State.setLfsr_counter (s : State) (v : U16) : (s.setLfsr v).counter = s.counter := rfl
@[simp] theorem State.setLfsr_lfsr (s : State) (v : U16) : (s.setLfsr v).lfsr = v := rfl
@[simp] theorem State.setLfsr_lfsrMask (s : State) (v : U16) : (s.setLfsr v).lfsrMask = s.lfsrMask := rfl
@[simp] theorem State.setLfsr_cur (s : State) (v : U16) : (s.setLfsr v).cur = s.cur := rfl
@[simp] theorem State.setLfsr_clockHz (s : State) (v : U16) : (s.setLfsr v).clockHz = s.clockHz := rfl
@[simp] theorem State.setLfsr_rateHz (s : State) (v : U16) : (s.setLfsr v).rateHz = s.rateHz := rfl
@[simp] theorem State.setLfsr_configured (s : State) (v : U16) : (s.setLfsr v).configured = s.configured := rfl
@[simp] theorem State.setLfsr_stepTable (s : State) (v : U16) : (s.setLfsr v).stepTable = s.stepTable := rfl
@[simp] theorem State.setLfsr_noiseStepTable (s : State) (v : U16) : (s.setLfsr v).noiseStepTable = s.noiseStepTable := rfl
@[simp] theorem State.setLfsr_volumeTable (s : State) (v : U16) : (s.setLfsr v).volumeTable = s.volumeTable := rfl
@[simp] theorem State.setLfsr_accL (s : State) (v : U16) : (s.setLfsr v).accL = s.accL := rfl
@[simp] theorem State.setLfsr_accR (s : State) (v : U16) : (s.setLfsr v).accR = s.accR := rfl
@[simp] theorem State.setLfsr_pending (s : State) (v : U16) : (s.setLfsr v).pending = s.pending := rfl
@[simp] theorem State.setLfsr_returned (s : State) (v : U16) : (s.setLfsr v).returned = s.returned := rfl
@[simp] theorem State.setLfsr_draws (s : State) (v : U16) : (s.setLfsr v).draws = s.draws := rfl

@[simp] theorem State.setMask_config (s : State) (v : U16) : (s.setMask v).config = s.config := rfl
@[simp] theorem State.setMask_reg (s : State) (v : U16) : (s.setMask v).reg = s.reg := rfl
@[simp] theorem State.setMask_latch (s : State) (v : U16) : (s.setMask v).latch = s.latch := rfl
@[simp] theorem State.setMask_volume (s : State) (v : U16) : (s.setMask v).volume = s.volume := rfl
@[simp] theorem State.setMask_cntStep (s : State) (v : U16) : (s.setMask v).cntStep = s.cntStep := rfl
@[simp] theorem State.setMask_counter (s : State) (v : U16) : (s.setMask v).counter = s.counter := rfl
@[simp] theorem State.setMask_lfsr (s : State) (v : U16) : (s.setMask v).lfsr = s.lfsr := rfl
@[simp] theorem State.setMask_lfsrMask (s : State) (v : U16) : (s.setMask v).lfsrMask = v := rfl
@[simp] theorem State.setMask_cur (s : State) (v : U16) : (s.setMask v).cur = s.cur := rfl
@[simp] theorem State.setMask_clockHz (s : State) (v : U16) : (s.setMask v).clockHz = s.clockHz := rfl
@[simp] theorem State.setMask_rateHz (s : State) (v : U16) : (s.setMask v).rateHz = s.rateHz := rfl
@[simp] theorem State.setMask_configured (s : State) (v : U16) : (s.setMask v).configured = s.configured := rfl
@[simp] theorem State.setMask_stepTable (s : State) (v : U16) : (s.setMask v).stepTable = s.stepTable := rfl
@[simp] theorem State.setMask_noiseStepTable (s : State) (v : U16) : (s.setMask v).noiseStepTable = s.noiseStepTable := rfl
@[simp] theorem State.setMask_volumeTable (s : State) (v : U16) : (s.setMask v).volumeTable = s.volumeTable := rfl
@[simp] theorem State.setMask_accL (s : State) (v : U16) : (s.setMask v).accL = s.accL := rfl
@[simp] theorem State.setMask_accR (s : State) (v : U16) : (s.setMask v).accR = s.accR := rfl
@[simp] theorem State.setMask_pending (s : State) (v : U16) : (s.setMask v).pending = s.pending := rfl
@[simp] theorem State.setMask_returned (s : State) (v : U16) : (s.setMask v).returned = s.returned := rfl
@[simp] theorem State.setMask_draws (s : State) (v : U16) : (s.setMask v).draws = s.draws := rfl

@[simp] theorem State.setCur_config (s : State) (v : Option Nat) : (s.setCur v).config = s.config := rfl
@[simp] theorem State.setCur_reg (s : State) (v : Option Nat) : (s.setCur v).reg = s.reg := rfl
@[simp] theorem State.setCur_latch (s : State) (v : Option Nat) : (s.setCur v).latch = s.latch := rfl
@[simp] theorem State.setCur_volume (s : State) (v : Option Nat) : (s.setCur v).volume = s.volume := rfl
@[simp] theorem State.setCur_cntStep (s : State) (v : Option Nat) : (s.setCur v).cntStep = s.cntStep := rfl
@[simp] theorem State.setCur_counter (s : State) (v : Option Nat) : (s.setCur v).counter = s.counter := rfl
@[simp] theorem State.setCur_lfsr (s : State) (v : Option Nat) : (s.setCur v).lfsr = s.lfsr := rfl
@[simp] theorem State.setCur_lfsrMask (s : State) (v : Option Nat) : (s.setCur v).lfsrMask = s.lfsrMask := rfl
@[simp] theorem State.setCur_cur (s : State) (v : Option Nat) : (s.setCur v).cur = v := rfl
@[simp] theorem State.setCur_clockHz (s : State) (v : Option Nat) : (s.setCur v).clockHz = s.clockHz := rfl
@[simp] theorem State.setCur_rateHz (s : State) (v : Option Nat) : (s.setCur v).rateHz = s.rateHz := rfl
@[simp] theorem State.setCur_configured (s : State) (v : Option Nat) : (s.setCur v).configured = s.configured := rfl
@[simp] theorem State.setCur_stepTable (s : State) (v : Option Nat) : (s.setCur v).stepTable = s.stepTable := rfl
@[simp] theorem State.setCur_noiseStepTable (s : State) (v : Option Nat) : (s.setCur v).noiseStepTable = s.noiseStepTable := rfl
@[simp] theorem State.setCur_volumeTable (s : State) (v : Option Nat) : (s.setCur v).volumeTable = s.volumeTable := rfl
@[simp] theorem State.setCur_accL (s : State) (v : Option Nat) : (s.setCur v).accL = s.accL := rfl
@[simp] theorem State.setCur_accR (s : State) (v : Option Nat) : (s.setCur v).accR = s.accR := rfl
@[simp] theorem State.setCur_pending (s : State) (v : Option Nat) : (s.setCur v).pending = s.pending := rfl
@[simp] theorem State.setCur_returned (s : State) (v : Option Nat) : (s.setCur v).returned = s.returned := rfl
@[simp] theorem State.setCur_draws (s : State) (v : Option Nat) : (s.setCur v).draws = s.draws := rfl

@[simp] theorem State.setAccL_config (s : State) (v : Memory) : (s.setAccL v).config = s.config := rfl
@[simp] theorem State.setAccL_reg (s : State) (v : Memory) : (s.setAccL v).reg = s.reg := rfl
@[simp] theorem State.setAccL_latch (s : State) (v : Memory) : (s.setAccL v).latch = s.latch := rfl
@[simp] theorem State.setAccL_volume (s : State) (v : Memory) : (s.setAccL v).volume = s.volume := rfl
@[simp] theorem State.setAccL_cntStep (s : State) (v : Memory) : (s.setAccL v).cntStep = s.cntStep := rfl
@[simp] theorem State.setAccL_counter (s : State) (v : Memory) : (s.setAccL v).counter = s.counter := rfl
@[simp] theorem State.setAccL_lfsr (s : State) (v : Memory) : (s.setAccL v).lfsr = s.lfsr := rfl
@[simp] theorem State.setAccL_lfsrMask (s : State) (v : Memory) : (s.setAccL v).lfsrMask = s.lfsrMask := rfl
@[simp] theorem State.setAccL_cur (s : State) (v : Memory) : (s.setAccL v).cur = s.cur := rfl
@[simp] theorem State.setAccL_clockHz (s : State) (v : Memory) : (s.setAccL v).clockHz = s.clockHz := rfl
@[simp] theorem State.setAccL_rateHz (s : State) (v : Memory) : (s.setAccL v).rateHz = s.rateHz := rfl
@[simp] theorem State.setAccL_configured (s : State) (v : Memory) : (s.setAccL v).configured = s.configured := rfl
@[simp] theorem State.setAccL_stepTable (s : State) (v : Memory) : (s.setAccL v).stepTable = s.stepTable := rfl
@[simp] theorem State.setAccL_noiseStepTable (s : State) (v : Memory) : (s.setAccL v).noiseStepTable = s.noiseStepTable := rfl
@[simp] theorem State.setAccL_volumeTable (s : State) (v : Memory) : (s.setAccL v).volumeTable = s.volumeTable := rfl
@[simp] theorem State.setAccL_accL (s : State) (v : Memory) : (s.setAccL v).accL = v := rfl
@[simp] theorem State.setAccL_accR (s : State) (v : Memory) : (s.setAccL v).accR = s.accR := rfl
@[simp] theorem State.setAccL_pending (s : State) (v : Memory) : (s.setAccL v).pending = s.pending := rfl
@[simp] theorem State.setAccL_returned (s : State) (v : Memory) : (s.setAccL v).returned = s.returned := rfl
@[simp] theorem State.setAccL_draws (s : State) (v : Memory) : (s.setAccL v).draws = s.draws := rfl

@[simp] theorem State.setAccR_config (s : State) (v : Memory) : (s.setAccR v).config = s.config := rfl
@[simp] theorem State.setAccR_reg (s : State) (v : Memory) : (s.setAccR v).reg = s.reg := rfl
@[simp] theorem State.setAccR_latch (s : State) (v : Memory) : (s.setAccR v).latch = s.latch := rfl
@[simp] theorem State.setAccR_volume (s : State) (v : Memory) : (s.setAccR v).volume = s.volume := rfl
@[simp] theorem State.setAccR_cntStep (s : State) (v : Memory) : (s.setAccR v).cntStep = s.cntStep := rfl
@[simp] theorem State.setAccR_counter (s : State) (v : Memory) : (s.setAccR v).counter = s.counter := rfl
@[simp] theorem State.setAccR_lfsr (s : State) (v : Memory) : (s.setAccR v).lfsr = s.lfsr := rfl
@[simp] theorem State.setAccR_lfsrMask (s : State) (v : Memory) : (s.setAccR v).lfsrMask = s.lfsrMask := rfl
@[simp] theorem State.setAccR_cur (s : State) (v : Memory) : (s.setAccR v).cur = s.cur := rfl
@[simp] theorem State.setAccR_clockHz (s : State) (v : Memory) : (s.setAccR v).clockHz = s.clockHz := rfl
@[simp] theorem State.setAccR_rateHz (s : State) (v : Memory) : (s.setAccR v).rateHz = s.rateHz := rfl
@[simp] theorem State.setAccR_configured (s : State) (v : Memory) : (s.setAccR v).configured = s.configured := rfl
@[simp] theorem State.setAccR_stepTable (s : State) (v : Memory) : (s.setAccR v).stepTable = s.stepTable := rfl
@[simp] theorem State.setAccR_noiseStepTable (s : State) (v : Memory) : (s.setAccR v).noiseStepTable = s.noiseStepTable := rfl
@[simp] theorem State.setAccR_volumeTable (s : State) (v : Memory) : (s.setAccR v).volumeTable = s.volumeTable := rfl
@[simp] theorem State.setAccR_accL (s : State) (v : Memory) : (s.setAccR v).accL = s.accL := rfl
@[simp] theorem State.setAccR_accR (s : State) (v : Memory) : (s.setAccR v).accR = v := rfl
@[simp] theorem State.setAccR_pending (s : State) (v : Memory) : (s.setAccR v).pending = s.pending := rfl
@[simp] theorem State.setAccR_returned (s : State) (v : Memory) : (s.setAccR v).returned = s.returned := rfl
@[simp] theorem State.setAccR_draws (s : State) (v : Memory) : (s.setAccR v).draws = s.draws := rfl

@[simp] theorem State.setPending_config (s : State) (v : List Request) : (s.setPending v).config = s.config := rfl
@[simp] theorem State.setPending_reg (s : State) (v : List Request) : (s.setPending v).reg = s.reg := rfl
@[simp] theorem State.setPending_latch (s : State) (v : List Request) : (s.setPending v).latch = s.latch := rfl
@[simp] theorem State.setPending_volume (s : State) (v : List Request) : (s.setPending v).volume = s.volume := rfl
@[simp] theorem State.setPending_cntStep (s : State) (v : List Request) : (s.setPending v).cntStep = s.cntStep := rfl
@[simp] theorem State.setPending_counter (s : State) (v : List Request) : (s.setPending v).counter = s.counter := rfl
@[simp] theorem State.setPending_lfsr (s : State) (v : List Request) : (s.setPending v).lfsr = s.lfsr := rfl
@[simp] theorem State.setPending_lfsrMask (s : State) (v : List Request) : (s.setPending v).lfsrMask = s.lfsrMask := rfl
@[simp] theorem State.setPending_cur (s : State) (v : List Request) : (s.setPending v).cur = s.cur := rfl
@[simp] theorem State.setPending_clockHz (s : State) (v : List Request) : (s.setPending v).clockHz = s.clockHz := rfl
@[simp] theorem State.setPending_rateHz (s : State) (v : List Request) : (s.setPending v).rateHz = s.rateHz := rfl
@[simp] theorem State.setPending_configured (s : State) (v : List Request) : (s.setPending v).configured = s.configured := rfl
@[simp] theorem State.setPending_stepTable (s : State) (v : List Request) : (s.setPending v).stepTable = s.stepTable := rfl
@[simp] theorem State.setPending_noiseStepTable (s : State) (v : List Request) : (s.setPending v).noiseStepTable = s.noiseStepTable := rfl
@[simp] theorem State.setPending_volumeTable (s : State) (v : List Request) : (s.setPending v).volumeTable = s.volumeTable := rfl
@[simp] theorem State.setPending_accL (s : State) (v : List Request) : (s.setPending v).accL = s.accL := rfl
@[simp] theorem State.setPending_accR (s : State) (v : List Request) : (s.setPending v).accR = s.accR := rfl
@[simp] theorem State.setPending_pending (s : State) (v : List Request) : (s.setPending v).pending = v := rfl
@[simp] theorem State.setPending_returned (s : State) (v : List Request) : (s.setPending v).returned = s.returned := rfl
@[simp] theorem State.setPending_draws (s : State) (v : List Request) : (s.setPending v).draws = s.draws := rfl

@[simp] theorem State.give_config (s : State) (r : Result) : (s.give r).config = s.config := rfl
@[simp] theorem State.give_reg (s : State) (r : Result) : (s.give r).reg = s.reg := rfl
@[simp] theorem State.give_latch (s : State) (r : Result) : (s.give r).latch = s.latch := rfl
@[simp] theorem State.give_volume (s : State) (r : Result) : (s.give r).volume = s.volume := rfl
@[simp] theorem State.give_cntStep (s : State) (r : Result) : (s.give r).cntStep = s.cntStep := rfl
@[simp] theorem State.give_counter (s : State) (r : Result) : (s.give r).counter = s.counter := rfl
@[simp] theorem State.give_lfsr (s : State) (r : Result) : (s.give r).lfsr = s.lfsr := rfl
@[simp] theorem State.give_lfsrMask (s : State) (r : Result) : (s.give r).lfsrMask = s.lfsrMask := rfl
@[simp] theorem State.give_cur (s : State) (r : Result) : (s.give r).cur = s.cur := rfl
@[simp] theorem State.give_clockHz (s : State) (r : Result) : (s.give r).clockHz = s.clockHz := rfl
@[simp] theorem State.give_rateHz (s : State) (r : Result) : (s.give r).rateHz = s.rateHz := rfl
@[simp] theorem State.give_configured (s : State) (r : Result) : (s.give r).configured = s.configured := rfl
@[simp] theorem State.give_stepTable (s : State) (r : Result) : (s.give r).stepTable = s.stepTable := rfl
@[simp] theorem State.give_noiseStepTable (s : State) (r : Result) : (s.give r).noiseStepTable = s.noiseStepTable := rfl
@[simp] theorem State.give_volumeTable (s : State) (r : Result) : (s.give r).volumeTable = s.volumeTable := rfl
@[simp] theorem State.give_accL (s : State) (r : Result) : (s.give r).accL = s.accL := rfl
@[simp] theorem State.give_accR (s : State) (r : Result) : (s.give r).accR = s.accR := rfl
@[simp] theorem State.give_pending (s : State) (r : Result) : (s.give r).pending = s.pending := rfl
@[simp] theorem State.give_returned (s : State) (r : Result) : (s.give r).returned = s.returned ++ [r] := rfl
@[simp] theorem State.give_draws (s : State) (r : Result) : (s.give r).draws = s.draws := rfl

/-! ### Cells under the updates of other fields -/

@[simp] theorem State.setReg_cell (s : State) (v : Regs) (side : Side) (i : Nat) :
    (s.setReg v).cell side i = s.cell side i := by
  cases side <;> rfl
@[simp] theorem State.setLatch_cell (s : State) (v : BitVec 3) (side : Side) (i : Nat) :
    (s.setLatch v).cell side i = s.cell side i := by
  cases side <;> rfl
@[simp] theorem State.setVolume_cell (s : State) (c : Chan) (v : U32) (side : Side) (i : Nat) :
    (s.setVolume c v).cell side i = s.cell side i := by
  cases side <;> rfl
@[simp] theorem State.setStep_cell (s : State) (c : Chan) (v : U32) (side : Side) (i : Nat) :
    (s.setStep c v).cell side i = s.cell side i := by
  cases side <;> rfl
@[simp] theorem State.setCounter_cell (s : State) (c : Chan) (v : U32) (side : Side) (i : Nat) :
    (s.setCounter c v).cell side i = s.cell side i := by
  cases side <;> rfl
@[simp] theorem State.setLfsr_cell (s : State) (v : U16) (side : Side) (i : Nat) :
    (s.setLfsr v).cell side i = s.cell side i := by
  cases side <;> rfl
@[simp] theorem State.setMask_cell (s : State) (v : U16) (side : Side) (i : Nat) :
    (s.setMask v).cell side i = s.cell side i := by
  cases side <;> rfl
@[simp] theorem State.setCur_cell (s : State) (v : Option Nat) (side : Side) (i : Nat) :
    (s.setCur v).cell side i = s.cell side i := by
  cases side <;> rfl
@[simp] theorem State.setPending_cell (s : State) (v : List Request) (side : Side) (i : Nat) :
    (s.setPending v).cell side i = s.cell side i := by
  cases side <;> rfl
@[simp] theorem State.give_cell (s : State) (r : Result) (side : Side) (i : Nat) :
    (s.give r).cell side i = s.cell side i := by
  cases side <;> rfl

end Sys2Proof.Machine
end

