-- ==== Sys2Proof/Laws/Memory.lean ====
section
/-! SUPPORT. The laws of an accumulator array: read after write, and every operation keeps the canonical form and the
bound SEG_CAP. -/

namespace Sys2Proof.Machine

theorem Memory.mem_erase {m : Memory} {i : Nat} {e : Nat × CellWord} :
    e ∈ Memory.erase m i ↔ e ∈ m ∧ e.1 ≠ i := by
  simp [Memory.erase]

theorem Memory.mem_insert {m : Memory} {i : Nat} {v : CellWord} {e : Nat × CellWord} :
    e ∈ Memory.insert m i v ↔ e = (i, v) ∨ e ∈ m := by
  induction m with
  | nil => simp [Memory.insert]
  | cons x rest ih =>
    simp only [Memory.insert]
    split
    · simp
    · simp only [List.mem_cons, ih]
      tauto

@[simp] theorem Memory.read_nil (i : Nat) : Memory.read [] i = 0 := rfl

theorem Memory.read_cons (e : Nat × CellWord) (rest : Memory) (i : Nat) :
    Memory.read (e :: rest) i = if e.1 = i then e.2 else Memory.read rest i := rfl

/-- A cell that no entry lists reads as zero. -/
theorem Memory.read_of_not_mem {m : Memory} {i : Nat} (h : ∀ e ∈ m, e.1 ≠ i) : Memory.read m i = 0 := by
  induction m with
  | nil => rfl
  | cons x rest ih =>
    rw [Memory.read_cons, if_neg (h x (by simp)), ih (fun e he => h e (by simp [he]))]

/-- Dropping entries by a test on the index: what is kept reads as before, what is dropped reads as zero. -/
theorem Memory.read_filter (m : Memory) (p : Nat → Bool) (i : Nat) :
    Memory.read (m.filter (fun e => p e.1)) i = if p i then Memory.read m i else 0 := by
  induction m with
  | nil => simp
  | cons x rest ih =>
    by_cases hx : p x.1 = true
    · rw [List.filter_cons_of_pos (by simpa using hx), Memory.read_cons, Memory.read_cons, ih]
      by_cases hi : x.1 = i
      · subst hi; simp [hx]
      · simp [hi]
    · rw [List.filter_cons_of_neg (by simpa using hx), Memory.read_cons, ih]
      by_cases hi : x.1 = i
      · subst hi; simp [hx]
      · simp [hi]

theorem Memory.read_erase (m : Memory) (i j : Nat) :
    Memory.read (Memory.erase m i) j = if j = i then 0 else Memory.read m j := by
  have h := Memory.read_filter m (fun k => decide (k ≠ i)) j
  simp only [Memory.erase]
  rw [h]
  by_cases hj : j = i <;> simp [hj]

theorem Memory.read_insert (m : Memory) (i j : Nat) (v : CellWord) (h : ∀ e ∈ m, e.1 ≠ i) :
    Memory.read (Memory.insert m i v) j = if j = i then v else Memory.read m j := by
  induction m with
  | nil => simp [Memory.insert, Memory.read_cons, eq_comm]
  | cons x rest ih =>
    simp only [Memory.insert]
    split
    · rw [Memory.read_cons]
      by_cases hj : j = i
      · simp [hj]
      · simp [hj, Ne.symm hj]
    · rw [Memory.read_cons, Memory.read_cons, ih (fun e he => h e (by simp [he]))]
      have hx : x.1 ≠ i := h x (by simp)
      by_cases hj : j = i
      · subst hj; simp [hx]
      · simp [hj]

/-- READ AFTER WRITE: the written cell reads as written, every other cell as before. -/
theorem Memory.read_write (m : Memory) (i j : Nat) (v : CellWord) :
    Memory.read (Memory.write m i v) j = if j = i then v else Memory.read m j := by
  simp only [Memory.write]
  split
  · rename_i hv
    rw [Memory.read_erase]
    by_cases hj : j = i
    · simp [hj, hv, Memory.unlisted]
    · simp [hj]
  · rw [Memory.read_insert _ _ _ _ (fun e he => (Memory.mem_erase.mp he).2), Memory.read_erase]
    by_cases hj : j = i <;> simp [hj]

@[simp] theorem Memory.read_write_same (m : Memory) (i : Nat) (v : CellWord) :
    Memory.read (Memory.write m i v) i = v := by
  simp [Memory.read_write]

/-- `Clear`: zero below `k`, unchanged from `k` on. -/
theorem Memory.read_clearBelow (m : Memory) (k i : Nat) :
    Memory.read (Memory.clearBelow m k) i = if i < k then 0 else Memory.read m i := by
  have h := Memory.read_filter m (fun j => decide (k ≤ j)) i
  simp only [Memory.clearBelow]
  rw [h]
  by_cases hi : i < k
  · simp [hi]
  · simp [hi, Nat.not_lt.mp hi]

/-! ### The canonical form -/

theorem Memory.wf_nil : Memory.wf [] := by simp [Memory.wf]

theorem Memory.wf_filter {m : Memory} (p : Nat × CellWord → Bool) (h : Memory.wf m) : Memory.wf (m.filter p) :=
  ⟨h.1.filter p, fun e he => h.2 e (List.mem_of_mem_filter he)⟩

theorem Memory.pairwise_insert {m : Memory} {i : Nat} {v : CellWord} (h : m.Pairwise (fun a b => a.1 < b.1))
    (hi : ∀ e ∈ m, e.1 ≠ i) : (Memory.insert m i v).Pairwise (fun a b => a.1 < b.1) := by
  induction m with
  | nil => simp [Memory.insert]
  | cons x rest ih =>
    obtain ⟨hx, hrest⟩ := List.pairwise_cons.mp h
    simp only [Memory.insert]
    split
    · rename_i hlt
      refine List.pairwise_cons.mpr ⟨fun e he => ?_, h⟩
      rcases List.mem_cons.mp he with rfl | he
      · exact hlt
      · exact Nat.lt_trans hlt (hx e he)
    · rename_i hnlt
      refine List.pairwise_cons.mpr ⟨fun e he => ?_, ih hrest (fun e he => hi e (by simp [he]))⟩
      rcases Memory.mem_insert.mp he with rfl | he
      · have := hi x (by simp)
        simp only
        omega
      · exact hx e he

theorem Memory.wf_write {m : Memory} (i : Nat) (v : CellWord) (h : Memory.wf m) : Memory.wf (Memory.write m i v) := by
  have he : Memory.wf (Memory.erase m i) := Memory.wf_filter _ h
  simp only [Memory.write]
  split
  · exact he
  · rename_i hv
    refine ⟨Memory.pairwise_insert he.1 (fun e h' => (Memory.mem_erase.mp h').2), fun e h' => ?_⟩
    rcases Memory.mem_insert.mp h' with rfl | h'
    · exact hv
    · exact he.2 e h'

theorem Memory.wf_clearBelow {m : Memory} (k : Nat) (h : Memory.wf m) : Memory.wf (Memory.clearBelow m k) :=
  Memory.wf_filter _ h

theorem Memory.within_write {m : Memory} {i : Nat} (v : CellWord) {segCap : Nat} (h : Memory.within m segCap)
    (hi : i < segCap) : Memory.within (Memory.write m i v) segCap := by
  intro e he
  simp only [Memory.write] at he
  split at he
  · exact h e (Memory.mem_erase.mp he).1
  · rcases Memory.mem_insert.mp he with rfl | he
    · exact hi
    · exact h e (Memory.mem_erase.mp he).1

theorem Memory.within_clearBelow {m : Memory} (k : Nat) {segCap : Nat} (h : Memory.within m segCap) :
    Memory.within (Memory.clearBelow m k) segCap :=
  fun e he => h e (List.mem_of_mem_filter he)

/-- Two arrays in canonical form that read alike are the same data. -/
theorem Memory.ext_of_read {m m' : Memory} (h : Memory.wf m) (h' : Memory.wf m')
    (hr : ∀ i, Memory.read m i = Memory.read m' i) : m = m' := by
  induction m generalizing m' with
  | nil =>
    cases m' with
    | nil => rfl
    | cons y rest' =>
      have := hr y.1
      rw [Memory.read_nil, Memory.read_cons, if_pos rfl] at this
      exact absurd this.symm (h'.2 y (by simp))
  | cons x rest ih =>
    obtain ⟨hx, hrest⟩ := List.pairwise_cons.mp h.1
    cases m' with
    | nil =>
      have := hr x.1
      rw [Memory.read_nil, Memory.read_cons, if_pos rfl] at this
      exact absurd this (h.2 x (by simp))
    | cons y rest' =>
      obtain ⟨hy, hrest'⟩ := List.pairwise_cons.mp h'.1
      have hxy : x.1 = y.1 := by
        rcases Nat.lt_trichotomy x.1 y.1 with hlt | heq | hgt
        · have := hr x.1
          rw [Memory.read_cons, if_pos rfl, Memory.read_cons, if_neg (by omega),
            Memory.read_of_not_mem (fun e he => by have := hy e he; omega)] at this
          exact absurd this (h.2 x (by simp))
        · exact heq
        · have := hr y.1
          rw [Memory.read_cons, if_neg (by omega), Memory.read_of_not_mem (fun e he => by have := hx e he; omega),
            Memory.read_cons, if_pos rfl] at this
          exact absurd this.symm (h'.2 y (by simp))
      have hv : x.2 = y.2 := by
        have := hr x.1
        rw [Memory.read_cons, if_pos rfl, Memory.read_cons, if_pos hxy.symm] at this
        exact this
      have hread : ∀ i, Memory.read rest i = Memory.read rest' i := by
        intro i
        have := hr i
        rw [Memory.read_cons, Memory.read_cons, hxy] at this
        by_cases hi : y.1 = i
        · rw [Memory.read_of_not_mem (fun e he => by have := hx e he; omega),
            Memory.read_of_not_mem (fun e he => by have := hy e he; omega)]
        · simpa [hi] using this
      have hr' := ih ⟨hrest, fun e he => h.2 e (by simp [he])⟩ ⟨hrest', fun e he => h'.2 e (by simp [he])⟩ hread
      rw [hr', show x = y from Prod.ext hxy hv]

/-! ### Cells of a state -/

/-- A cell written: that cell of that array holds the value, every other cell of both arrays is as before. -/
theorem State.cell_setCell (s : State) (side side' : Side) (i j : Nat) (v : CellWord) :
    (s.setCell side i v).cell side' j = if side' = side ∧ j = i then v else s.cell side' j := by
  cases side <;> cases side' <;> simp [State.setCell, State.cell, Memory.read_write]

/-- A cell written changes nothing but that array. -/
theorem State.setCell_frame (s : State) (side : Side) (i : Nat) (v : CellWord) :
    s.setCell side i v = { s with accL := (s.setCell side i v).accL, accR := (s.setCell side i v).accR } := by
  cases side <;> rfl

end Sys2Proof.Machine
end

