-- ==== Sys2Proof/Laws/Ops.lean ====
section
/-! SUPPORT. Once for each shared operation, everything it can do: sequencing, the additions to the cells, the sample loops,
and what the register effects write. -/

namespace Sys2Proof.Machine

/-! ### Sequencing -/

@[simp] theorem andThen_next (s : State) (k : State → Out) : andThen (.next s) k = k s := rfl
@[simp] theorem andThen_fault (f : Fault) (k : State → Out) : andThen (.fault f) k = .fault f := rfl
@[simp] theorem andThen_refused (r : Refusal) (k : State → Out) : andThen (.refused r) k = .refused r := rfl

@[simp] theorem andThen_pure (o : Out) : andThen o (fun s => .next s) = o := by
  cases o <;> rfl

theorem andThen_eq_next {o : Out} {k : State → Out} {t : State} :
    andThen o k = .next t ↔ ∃ u, o = .next u ∧ k u = .next t := by
  cases o <;> simp

theorem andThen_eq_fault {o : Out} {k : State → Out} {f : Fault} :
    andThen o k = .fault f ↔ o = .fault f ∨ ∃ u, o = .next u ∧ k u = .fault f := by
  cases o <;> simp

theorem andThen_assoc (o : Out) (k l : State → Out) :
    andThen (andThen o k) l = andThen o (fun s => andThen (k s) l) := by
  cases o <;> rfl

theorem andThen_ne_refused {o : Out} {k : State → Out} {r : Refusal} (ho : ∀ r, o ≠ .refused r)
    (hk : ∀ u r, k u ≠ .refused r) : andThen o k ≠ .refused r := by
  cases o with
  | next u => exact hk u r
  | fault f => simp
  | refused r' => exact absurd rfl (ho r')

theorem whenConfigured_true {i : Instr} {s : State} {k : State → Out} (h : s.configured = true) :
    whenConfigured i s k = k s := by
  simp [whenConfigured, h]

theorem whenConfigured_false {i : Instr} {s : State} {k : State → Out} (h : s.configured = false) :
    whenConfigured i s k = .fault (.notConfigured i) := by
  simp [whenConfigured, h]

theorem whenConfigured_eq_next {i : Instr} {s t : State} {k : State → Out} :
    whenConfigured i s k = .next t ↔ s.configured = true ∧ k s = .next t := by
  cases h : s.configured <;> simp [whenConfigured, h]

/-! ### Adding to cells -/

theorem FlushFrame.refl (s : State) : FlushFrame s s := rfl

theorem FlushFrame.trans {s t u : State} (h1 : FlushFrame s t) (h2 : FlushFrame t u) : FlushFrame s u :=
  Eq.trans h2 (congrArg
    (fun x : State => { x with counter := u.counter, lfsr := u.lfsr, accL := u.accL, accR := u.accR }) h1)

/-- The state with both arrays replaced. -/
def State.withAcc (s : State) (l r : Memory) : State := { s with accL := l, accR := r }

@[simp] theorem State.withAcc_self (s : State) : s.withAcc s.accL s.accR = s := rfl
@[simp] theorem State.withAcc_withAcc (s : State) (l r l' r' : Memory) :
    (s.withAcc l r).withAcc l' r' = s.withAcc l' r' := rfl
@[simp] theorem State.withAcc_accL (s : State) (l r : Memory) : (s.withAcc l r).accL = l := rfl
@[simp] theorem State.withAcc_accR (s : State) (l r : Memory) : (s.withAcc l r).accR = r := rfl

theorem toInt_ofInt_of_inI32 {v : Int} (h : inI32 v) : (BitVec.ofInt 32 v).toInt = v := by
  obtain ⟨h1, h2⟩ := h
  rw [BitVec.toInt_ofInt]
  apply Int.bmod_eq_of_le <;> omega

theorem inI32_toInt (v : CellWord) : inI32 v.toInt := by
  have h1 := BitVec.le_toInt v
  have h2 := BitVec.toInt_lt (x := v)
  norm_num at h1 h2
  constructor <;> omega

/-- `addCell` completes exactly where the sum is an `i32`. -/
theorem addCell_eq_next {side : Side} {i : Nat} {d : Int} {s t : State} :
    addCell side i d s = .next t ↔ inI32 ((s.cell side i).toInt + d) ∧
      t = s.setCell side i (BitVec.ofInt 32 ((s.cell side i).toInt + d)) := by
  by_cases h : inI32 ((s.cell side i).toInt + d)
  · rw [addCell, if_pos h]
    exact ⟨fun e => ⟨h, by cases e; rfl⟩, fun e => by rw [e.2]⟩
  · rw [addCell, if_neg h]
    exact ⟨(nomatch ·), fun e => absurd e.1 h⟩

/-- Where it does not complete, it faults with the cell unwritten. -/
theorem addCell_of_not {side : Side} {i : Nat} {d : Int} {s : State} (h : ¬ inI32 ((s.cell side i).toInt + d)) :
    addCell side i d s = .fault (.accOverflow i side s) := by
  rw [addCell, if_neg h]

/-- Everything `addBoth` can do: it completes exactly where both sums are `i32`s, and then adds to those two cells
and changes nothing else. -/
theorem addBoth_eq_next {i : Nat} {dL dR : Int} {s t : State} :
    addBoth i dL dR s = .next t ↔
      inI32 ((s.cell .left i).toInt + dL) ∧ inI32 ((s.cell .right i).toInt + dR) ∧
      t = s.withAcc (Memory.write s.accL i (BitVec.ofInt 32 ((s.cell .left i).toInt + dL)))
        (Memory.write s.accR i (BitVec.ofInt 32 ((s.cell .right i).toInt + dR))) := by
  simp only [addBoth, andThen_eq_next, addCell_eq_next]
  constructor
  · rintro ⟨u, ⟨hl, rfl⟩, hr, rfl⟩
    exact ⟨hl, hr, rfl⟩
  · rintro ⟨hl, hr, rfl⟩
    exact ⟨_, ⟨hl, rfl⟩, hr, rfl⟩

theorem addBoth_ne_refused (i : Nat) (dL dR : Int) (s : State) (r : Refusal) : addBoth i dL dR s ≠ .refused r := by
  refine andThen_ne_refused (fun r => ?_) (fun u r => ?_) <;> (simp only [addCell]; split <;> simp)

/-- Cell `i` of both arrays raised by `g`, every other cell as before. -/
def AddedAt (s t : State) (i g : Nat) : Prop :=
  ∀ (side : Side) (j : Nat), (t.cell side j).toInt = (s.cell side j).toInt + if j = i then (g : Int) else 0

/-- Cell `i` of both arrays can take `g` more. -/
def RoomAt (s : State) (i g : Nat) : Prop := ∀ side : Side, (s.cell side i).toInt + (g : Int) ≤ 2147483647

theorem accAdd_of_room {i : Nat} {v : U32} {s : State} (h : RoomAt s i v.toNat) :
    ∃ t, accAdd i v s = .next t ∧ AddedAt s t i v.toNat ∧ t = s.withAcc t.accL t.accR := by
  have hin : ∀ side, inI32 ((s.cell side i).toInt + (v.toNat : Int)) := fun side => by
    have := (inI32_toInt (s.cell side i)).1
    exact ⟨by omega, h side⟩
  refine ⟨_, addBoth_eq_next.mpr ⟨hin .left, hin .right, rfl⟩, ?_, rfl⟩
  intro side j
  cases side <;> simp only [State.cell, State.withAcc_accL, State.withAcc_accR, Memory.read_write]
  · split
    · rename_i hj; subst hj; exact toInt_ofInt_of_inI32 (hin .left)
    · simp
  · split
    · rename_i hj; subst hj; exact toInt_ofInt_of_inI32 (hin .right)
    · simp

/-- `u` is where a pair of additions of `g` to cell `i` stopped on `side`: only the left cell is written, and only if
the right one fails; the failing cell cannot take `g` more. -/
def StoppedAt (s u : State) (i g : Nat) (side : Side) : Prop :=
  (∀ (sd : Side) (j : Nat), (u.cell sd j).toInt =
    (s.cell sd j).toInt + if j = i ∧ sd = .left ∧ side = .right then (g : Int) else 0) ∧
  2147483647 < (u.cell side i).toInt + (g : Int) ∧ FlushFrame s u

theorem accAdd_of_full {i : Nat} {v : U32} {s : State} (h : ¬ RoomAt s i v.toNat) :
    ∃ side u, accAdd i v s = .fault (.accOverflow i side u) ∧ StoppedAt s u i v.toNat side := by
  by_cases hl : inI32 ((s.cell .left i).toInt + (v.toNat : Int))
  · have hr : ¬ inI32 ((s.cell .right i).toInt + (v.toNat : Int)) := fun hr =>
      h (fun side => by cases side <;> [exact hl.2; exact hr.2])
    refine ⟨.right, s.setCell .left i (BitVec.ofInt 32 ((s.cell .left i).toInt + (v.toNat : Int))), ?_, ?_, ?_, rfl⟩
    · rw [accAdd, addBoth, addCell_eq_next.mpr ⟨hl, rfl⟩, andThen_next, addCell_of_not]
      simpa [State.cell_setCell] using hr
    · intro sd j
      rw [State.cell_setCell]
      cases sd
      · by_cases hj : j = i
        · subst hj
          rw [if_pos ⟨rfl, rfl⟩, if_pos ⟨rfl, rfl, rfl⟩, toInt_ofInt_of_inI32 hl]
        · rw [if_neg (fun e => hj e.2), if_neg (fun e => hj e.1), Int.add_zero]
      · rw [if_neg (fun e => nomatch e.1), if_neg (fun e => nomatch e.2.1), Int.add_zero]
    · have := (inI32_toInt (s.cell .right i)).1
      simp only [State.cell_setCell, reduceCtorEq, false_and, if_false]
      by_contra hc
      exact hr ⟨by omega, by omega⟩
  · refine ⟨.left, s, ?_, fun sd j => ?_, ?_, rfl⟩
    · rw [accAdd, addBoth, addCell_of_not hl, andThen_fault]
    · rw [if_neg (fun e => nomatch e.2.2), Int.add_zero]
    · have := (inI32_toInt (s.cell .left i)).1
      by_contra hc
      exact hl ⟨by omega, by omega⟩

/-! ### The sample loops -/

theorem forSamples_zero (f : Nat → State → Out) (i : Nat) (s : State) : forSamples f 0 i s = .next s := rfl

theorem forSamples_succ (f : Nat → State → Out) (n i : Nat) (s : State) :
    forSamples f (n + 1) i s = andThen (f i s) (forSamples f n (i + 1)) := rfl

/-- A property that every sample keeps, the loop keeps. -/
theorem forSamples_keeps {f : Nat → State → Out} {P : State → Prop} {n i : Nat} {s t : State}
    (hf : ∀ k u v, i ≤ k → k < i + n → P u → f k u = .next v → P v) (hs : P s) (h : forSamples f n i s = .next t) :
    P t := by
  induction n generalizing i s with
  | zero => cases h; exact hs
  | succ n ih =>
    obtain ⟨u, hu, h⟩ := andThen_eq_next.mp h
    exact ih (fun k u v h1 h2 => hf k u v (by omega) (by omega)) (hf i s u (by omega) (by omega) hs hu) h

/-- One loop of `m + n` samples is a loop of `m` and then one of `n`. -/
theorem forSamples_add (f : Nat → State → Out) (m n i : Nat) (s : State) :
    forSamples f (m + n) i s = andThen (forSamples f m i s) (forSamples f n (i + m)) := by
  induction m generalizing i s with
  | zero => simp [forSamples_zero]
  | succ m ih =>
    rw [show m + 1 + n = (m + n) + 1 by omega, forSamples_succ, forSamples_succ, andThen_assoc]
    congr 1
    funext u
    rw [ih, show i + 1 + m = i + (m + 1) by omega]

theorem forSamples_ne_refused {f : Nat → State → Out} (hf : ∀ i s r, f i s ≠ .refused r) (n i : Nat) (s : State)
    (r : Refusal) : forSamples f n i s ≠ .refused r := by
  induction n generalizing i s r with
  | zero => simp [forSamples_zero]
  | succ n ih => exact andThen_ne_refused (hf i s) (fun u r => ih (i + 1) u r)

/-- `u` is where a loop of additions of `g` to the cells from `i` on stopped, at sample `k` on `side`. -/
def StoppedIn (s u : State) (i k : Nat) (side : Side) (g : Nat → Nat) : Prop :=
  (∀ (sd : Side) (j : Nat), (u.cell sd j).toInt = (s.cell sd j).toInt +
    if (i ≤ j ∧ j < i + k) ∨ (j = i + k ∧ sd = .left ∧ side = .right) then (g (j - i) : Int) else 0) ∧
  2147483647 < (u.cell side (i + k)).toInt + (g k : Int) ∧ FlushFrame s u

/-- A sample that adds `gain s` to its cell and moves the rest of the state by `move`, neither of which looks at the
cells. -/
structure SampleAdds (f : Nat → State → Out) (gain : State → Nat) (move : State → State) : Prop where
  next : ∀ i s, RoomAt s i (gain s) →
    ∃ t, f i s = .next t ∧ AddedAt s t i (gain s) ∧ t = (move s).withAcc t.accL t.accR
  full : ∀ i s, ¬ RoomAt s i (gain s) →
    ∃ side u, f i s = .fault (.accOverflow i side u) ∧ StoppedAt s u i (gain s) side
  move_frame : ∀ s, FlushFrame s (move s)
  gain_withAcc : ∀ s l r, gain (s.withAcc l r) = gain s
  move_withAcc : ∀ s l r, move (s.withAcc l r) = (move s).withAcc l r

theorem SampleAdds.iterate_withAcc {f : Nat → State → Out} {gain : State → Nat} {move : State → State}
    (h : SampleAdds f gain move) (k : Nat) (s : State) (l r : Memory) :
    move^[k] (s.withAcc l r) = (move^[k] s).withAcc l r := by
  induction k generalizing s with
  | zero => rfl
  | succ k ih => rw [Function.iterate_succ_apply, Function.iterate_succ_apply, h.move_withAcc, ih]

/-- Everything such a loop does where there is room: the gains land in their cells and the state has moved `n` times. -/
theorem SampleAdds.loop_next {f : Nat → State → Out} {gain : State → Nat} {move : State → State}
    (h : SampleAdds f gain move) (n i : Nat) (s : State)
    (hroom : ∀ (side : Side) (k : Nat), k < n → (s.cell side (i + k)).toInt + (gain (move^[k] s) : Int) ≤ 2147483647) :
    ∃ t, forSamples f n i s = .next t ∧
      (∀ (side : Side) (j : Nat), (t.cell side j).toInt =
        (s.cell side j).toInt + (if i ≤ j ∧ j < i + n then (gain (move^[j - i] s) : Int) else 0)) ∧
      t = (move^[n] s).withAcc t.accL t.accR := by
  induction n generalizing i s with
  | zero =>
    refine ⟨s, rfl, fun side j => ?_, by simp⟩
    rw [if_neg (by omega), Int.add_zero]
  | succ n ih =>
    obtain ⟨u, hu, hadd, hfr⟩ := h.next i s (fun side => hroom side 0 (by omega))
    have hmove : ∀ k, move^[k] u = (move^[k + 1] s).withAcc u.accL u.accR := fun k => by
      rw [hfr, h.iterate_withAcc, Function.iterate_succ_apply]
      rfl
    have hgain : ∀ k, gain (move^[k] u) = gain (move^[k + 1] s) := fun k => by rw [hmove, h.gain_withAcc]
    obtain ⟨t, ht, hcells, htf⟩ := ih (i + 1) u (fun side k hk => by
      have := hroom side (k + 1) (by omega)
      rw [hgain, hadd side (i + 1 + k), if_neg (by omega), Int.add_zero, show i + 1 + k = i + (k + 1) by omega]
      exact this)
    refine ⟨t, by rw [forSamples_succ, hu, andThen_next, ht], fun side j => ?_, ?_⟩
    · rw [hcells, hadd, hgain]
      by_cases hj : j = i
      · subst hj
        rw [if_pos rfl, if_neg (by omega), if_pos (by omega), Nat.sub_self]
        simp
      · by_cases hj' : i + 1 ≤ j ∧ j < i + 1 + n
        · rw [if_neg hj, if_pos hj', if_pos (by omega), show j - (i + 1) + 1 = j - i by omega]
          simp
        · rw [if_neg hj, if_neg hj', if_neg (by omega)]
          simp
    · rw [htf, hmove]
      rfl

/-- And where there is not: it faults at the first addition that would pass the top of `i32`, the earlier ones made. -/
theorem SampleAdds.loop_full {f : Nat → State → Out} {gain : State → Nat} {move : State → State}
    (h : SampleAdds f gain move) (n i : Nat) (s : State)
    (hfull : ¬ ∀ (side : Side) (k : Nat), k < n → (s.cell side (i + k)).toInt + (gain (move^[k] s) : Int) ≤ 2147483647) :
    ∃ k side u, k < n ∧ forSamples f n i s = .fault (.accOverflow (i + k) side u) ∧
      StoppedIn s u i k side (fun m => gain (move^[m] s)) := by
  induction n generalizing i s with
  | zero => exact absurd (fun side k hk => absurd hk (by omega)) hfull
  | succ n ih =>
    by_cases h0 : RoomAt s i (gain s)
    · obtain ⟨u, hu, hadd, hfr⟩ := h.next i s h0
      have hgain : ∀ k, gain (move^[k] u) = gain (move^[k + 1] s) := fun k => by
        rw [hfr, h.iterate_withAcc, h.gain_withAcc, Function.iterate_succ_apply]
      obtain ⟨k, side, v, hk, hf, hv⟩ := ih (i + 1) u (fun hall => hfull (fun side k hk => by
        cases k with
        | zero => exact h0 side
        | succ k =>
          have := hall side k (by omega)
          rw [hgain, hadd side (i + 1 + k), if_neg (by omega), Int.add_zero, show i + 1 + k = i + (k + 1) by omega] at this
          exact this))
      refine ⟨k + 1, side, v, by omega, ?_, ?_⟩
      · rw [forSamples_succ, hu, andThen_next, hf, show i + 1 + k = i + (k + 1) by omega]
      · obtain ⟨hcells, hbig, hvf⟩ := hv
        have hsu : FlushFrame s u := (h.move_frame s).trans (by rw [hfr]; rfl)
        refine ⟨fun sd j => ?_, ?_, hsu.trans hvf⟩ <;> beta_reduce at hcells hbig ⊢
        · rw [hcells, hadd, hgain]
          by_cases hj : j = i
          · subst hj
            rw [if_pos rfl, if_neg (by omega), if_pos (.inl (by omega)), Nat.sub_self]
            simp
          · rw [if_neg hj, Int.add_zero]
            have hiff : (i + 1 ≤ j ∧ j < i + 1 + k ∨ j = i + 1 + k ∧ sd = .left ∧ side = .right) ↔
                (i ≤ j ∧ j < i + (k + 1) ∨ j = i + (k + 1) ∧ sd = .left ∧ side = .right) :=
              or_congr (by omega) (and_congr_left' (by omega))
            by_cases hj' : i ≤ j ∧ j < i + (k + 1) ∨ j = i + (k + 1) ∧ sd = .left ∧ side = .right
            · rw [if_pos (hiff.mpr hj'), if_pos hj', show j - (i + 1) + 1 = j - i by omega]
            · rw [if_neg (fun e => hj' (hiff.mp e)), if_neg hj']
        · rw [← hgain, show i + (k + 1) = i + 1 + k by omega]
          exact hbig
    · obtain ⟨side, u, hf, hcells, hbig, huf⟩ := h.full i s h0
      refine ⟨0, side, u, by omega, by rw [forSamples_succ, hf, andThen_fault]; rfl, fun sd j => ?_, hbig, huf⟩
      rw [hcells]
      by_cases hj : j = i ∧ sd = .left ∧ side = .right
      · rw [if_pos hj, if_pos (.inr hj), hj.1, Nat.sub_self]
        rfl
      · rw [if_neg hj, if_neg (fun e => e.elim (fun e => by omega) hj)]

end Sys2Proof.Machine
end

