-- ==== Sys2Proof/Laws/Update.lean ====
section
/-! SUPPORT. `UPDATE` and the flush: where each completes and, in closed form, what it leaves. -/

namespace Sys2Proof.Machine

/-! ### One sample of each rule -/

/-- A sample of the shape all three rules have: a first move that leaves the cells, then an addition of `amount` or
nothing, then a second move that leaves the cells. -/
theorem sampleAdds_of {f : Nat → State → Out} {pre post : State → State} {amount : State → U32} {high : State → Bool}
    (hf : ∀ i s, f i s = andThen (if high s then accAdd i (amount s) (pre s) else .next (pre s))
      (fun t => .next (post t)))
    (hh : ∀ s l r, high (s.withAcc l r) = high s) (ha : ∀ s l r, amount (s.withAcc l r) = amount s)
    (hpre : ∀ s l r, pre (s.withAcc l r) = (pre s).withAcc l r)
    (hpost : ∀ s l r, post (s.withAcc l r) = (post s).withAcc l r)
    (hfpre : ∀ s, FlushFrame s (pre s)) (hfpost : ∀ s, FlushFrame s (post s)) :
    SampleAdds f (fun s => if high s then (amount s).toNat else 0) (fun s => post (pre s)) := by
  have hcell : ∀ g : State → State, (∀ s l r, g (s.withAcc l r) = (g s).withAcc l r) →
      ∀ s side j, (g s).cell side j = s.cell side j := fun g hg s side j => by
    have := hg s s.accL s.accR
    rw [State.withAcc_self] at this
    rw [this]
    cases side <;> rfl
  refine ⟨fun i s hroom => ?_, fun i s hfull => ?_, fun s => (hfpre s).trans (hfpost _), fun s l r => by rw [hh, ha],
    fun s l r => by rw [hpre, hpost]⟩
  · by_cases h : high s = true
    · have hroom' : RoomAt (pre s) i (amount s).toNat := fun side => by
        have := hroom side
        rw [if_pos h] at this
        rw [hcell pre hpre]
        exact this
      obtain ⟨t, ht, hadd, hfr⟩ := accAdd_of_room hroom'
      refine ⟨post t, by rw [hf, if_pos h, ht, andThen_next], fun side j => ?_, ?_⟩
      · rw [hcell post hpost, hadd, hcell pre hpre, if_pos h]
      · rw [hfr, hpost]
        rfl
    · refine ⟨post (pre s), by rw [hf, if_neg h, andThen_next], fun side j => ?_, (State.withAcc_self _).symm⟩
      rw [hcell post hpost, hcell pre hpre, if_neg h]
      simp
  · by_cases h : high s = true
    · have hfull' : ¬ RoomAt (pre s) i (amount s).toNat := fun hr => hfull (fun side => by
        rw [if_pos h, ← hcell pre hpre]
        exact hr side)
      obtain ⟨side, u, hu, hcells, hbig, huf⟩ := accAdd_of_full hfull'
      refine ⟨side, u, by rw [hf, if_pos h, hu, andThen_fault], fun sd j => ?_, ?_, (hfpre s).trans huf⟩
      · rw [hcells, hcell pre hpre, if_pos h]
      · rw [if_pos h]
        exact hbig
    · refine absurd (fun side => ?_) hfull
      have := (inI32_toInt (s.cell side i)).2
      rw [if_neg h]
      omega

/-- What one sample of an audible tone adds (R114). -/
def toneSampleGain (c : ToneCh) (s : State) : Nat :=
  if (advance c.chan s).toneLevel c then (s.volume.get c.chan).toNat else 0

/-- What one sample of audible noise adds (R129). -/
def noiseSampleGain (s : State) : Nat := if s.noiseBit then (s.volume.get .c3).toNat else 0

/-- What one sample of audible noise does to the rest of the state (R129). -/
def noiseMove (s : State) : State := noiseClock (advance .c3 s)

theorem noiseClock_withAcc (s : State) (l r : Memory) : noiseClock (s.withAcc l r) = (noiseClock s).withAcc l r := by
  by_cases h : overflowBit (s.counter.get .c3) = true
  · rw [noiseClock, noiseClock, if_pos h, if_pos (show overflowBit ((s.withAcc l r).counter.get .c3) = true from h)]
    rfl
  · rw [noiseClock, noiseClock, if_neg h, if_neg (show ¬ overflowBit ((s.withAcc l r).counter.get .c3) = true from h)]

theorem toneSample_adds (c : ToneCh) : SampleAdds (toneSample c) (toneSampleGain c) (advance c.chan) :=
  sampleAdds_of (pre := advance c.chan) (post := id) (amount := fun s => s.volume.get c.chan)
    (high := fun s => (advance c.chan s).toneLevel c) (fun _ _ => (andThen_pure _).symm)
    (fun _ _ _ => rfl) (fun _ _ _ => rfl) (fun _ _ _ => rfl) (fun _ _ _ => rfl) (fun _ => rfl) (fun _ => rfl)

theorem steadySample_adds (c : ToneCh) : SampleAdds (steadySample c) (fun s => (s.volume.get c.chan).toNat) id :=
  sampleAdds_of (pre := id) (post := id) (amount := fun s => s.volume.get c.chan) (high := fun _ => true)
    (fun _ _ => (andThen_pure _).symm)
    (fun _ _ _ => rfl) (fun _ _ _ => rfl) (fun _ _ _ => rfl) (fun _ _ _ => rfl) (fun _ => rfl) (fun _ => rfl)

theorem noiseClock_frame (s : State) : FlushFrame s (noiseClock s) := by
  unfold noiseClock
  split <;> rfl

theorem noiseSample_adds : SampleAdds noiseSample noiseSampleGain noiseMove :=
  sampleAdds_of (pre := advance .c3) (post := noiseClock) (amount := fun s => s.volume.get .c3)
    (high := fun s => s.noiseBit) (fun _ _ => rfl)
    (fun _ _ _ => rfl) (fun _ _ _ => rfl) (fun _ _ _ => rfl) noiseClock_withAcc (fun _ => rfl) noiseClock_frame

/-! ### The moves in closed form -/

theorem phaseAfter_succ (s : State) (c : Chan) (k : Nat) :
    s.phaseAfter c (k + 1) = s.phaseAfter c k + s.cntStep.get c := by
  simp only [State.phaseAfter, BitVec.ofNat_add, BitVec.mul_add, BitVec.mul_one, BitVec.add_assoc]

@[simp] theorem phaseAfter_zero (s : State) (c : Chan) : s.phaseAfter c 0 = s.counter.get c := by
  simp [State.phaseAfter]

theorem advance_iterate (c : Chan) (k : Nat) (s : State) :
    (advance c)^[k] s = s.setCounter c (s.phaseAfter c k) := by
  induction k with
  | zero => simp [State.setCounter]
  | succ k ih =>
    rw [Function.iterate_succ_apply', ih, phaseAfter_succ]
    simp only [advance, State.setCounter, Quad.get_set_same, Quad.set_set]

theorem noiseMove_iterate (k : Nat) (s : State) :
    noiseMove^[k] s = (s.setCounter .c3 (s.noiseRun k).1).setLfsr (s.noiseRun k).2 := by
  induction k with
  | zero => rfl
  | succ k ih =>
    rw [Function.iterate_succ_apply', ih, State.noiseRun]
    simp only [noiseMove, noiseClock, advance, overflowBit, State.setCounter, State.setLfsr, Quad.get_c3, Quad.set_c3]
    split <;> rename_i h
    · simp only [h, if_true]
    · simp only [h, Bool.false_eq_true, if_false]

/-! ### One channel in one `UPDATE` -/

theorem toneGain_of_muted {s : State} {c : ToneCh} (h : s.volume.get c.chan = 0) (k : Nat) : s.toneGain c k = 0 := by
  simp [State.toneGain, h]

theorem noiseGain_of_muted {s : State} (h : s.volume.q3 = 0) (k : Nat) : s.noiseGain k = 0 := by
  simp [State.noiseGain, h]

theorem toneSampleGain_iterate {s : State} {c : ToneCh} (h : (s.cntStep.get c.chan).toNat < 0x10000) (k : Nat) :
    toneSampleGain c ((advance c.chan)^[k] s) = s.toneGain c k := by
  rw [advance_iterate, State.toneGain, if_pos h, phaseAfter_succ]
  simp only [toneSampleGain, State.toneLevel, overflowBit, advance, State.setCounter, Quad.get_set_same]

theorem noiseSampleGain_iterate (s : State) (k : Nat) : noiseSampleGain (noiseMove^[k] s) = s.noiseGain k := by
  rw [noiseMove_iterate]
  rfl

/-- Nothing is added: every other state with the same cells. -/
theorem added_nothing {s t : State} {n i : Nat} {g : Nat → Nat} (hc : ∀ side j, t.cell side j = s.cell side j)
    (hg : ∀ k, g k = 0) : Added s t n i g := by
  intro side j
  rw [hc]
  simp [hg]

/-- Everything `updateTone` does where there is room. -/
theorem updateTone_next {c : ToneCh} {n i : Nat} {s : State} (hroom : HasRoom s n i (s.toneGain c)) :
    ∃ t, updateTone c n i s = .next t ∧ Added s t n i (s.toneGain c) ∧
      t = (s.setCounter c.chan (s.tonePhase c n)).withAcc t.accL t.accR := by
  by_cases hv : s.volume.get c.chan = 0
  · refine ⟨advanceMuted c.chan n s, by rw [updateTone, if_pos hv],
      added_nothing (fun side j => State.setCounter_cell s _ _ side j) (toneGain_of_muted hv), ?_⟩
    rw [State.tonePhase, if_neg (fun h => h.1 hv)]
    rfl
  · by_cases hs : (s.cntStep.get c.chan).toNat < 0x10000
    · obtain ⟨t, ht, hcells, hfr⟩ := (toneSample_adds c).loop_next n i s
        (fun side k hk => by rw [toneSampleGain_iterate hs]; exact hroom side k hk)
      refine ⟨t, by rw [updateTone, if_neg hv, if_pos hs, ht], fun side j => ?_, ?_⟩
      · rw [hcells, toneSampleGain_iterate hs]
      · rw [hfr, advance_iterate, State.tonePhase, if_neg (fun h => by omega)]
        rfl
    · have hg : ∀ k, s.toneGain c k = (s.volume.get c.chan).toNat := fun k => by rw [State.toneGain, if_neg hs]
      obtain ⟨t, ht, hcells, hfr⟩ := (steadySample_adds c).loop_next n i s
        (fun side k hk => by rw [Function.iterate_id, id, ← hg k]; exact hroom side k hk)
      refine ⟨t, by rw [updateTone, if_neg hv, if_neg hs, ht], fun side j => ?_, ?_⟩
      · rw [hcells, Function.iterate_id, id, hg]
      · rw [hfr, Function.iterate_id, id, State.tonePhase, if_pos ⟨hv, by omega⟩, State.setCounter, Quad.set_get]
        rfl

/-- And where there is not. -/
theorem updateTone_full {c : ToneCh} {n i : Nat} {s : State} (hfull : ¬ HasRoom s n i (s.toneGain c)) :
    ∃ k side u, k < n ∧ updateTone c n i s = .fault (.accOverflow (i + k) side u) ∧
      StoppedIn s u i k side (s.toneGain c) := by
  by_cases hv : s.volume.get c.chan = 0
  · refine absurd (fun side k _ => ?_) hfull
    have := (inI32_toInt (s.cell side (i + k))).2
    rw [toneGain_of_muted hv]
    omega
  · by_cases hs : (s.cntStep.get c.chan).toNat < 0x10000
    · obtain ⟨k, side, u, hk, hf, hu⟩ := (toneSample_adds c).loop_full n i s
        (fun h => hfull (fun side k hk => by rw [← toneSampleGain_iterate hs]; exact h side k hk))
      have hg : (fun m => toneSampleGain c ((advance c.chan)^[m] s)) = s.toneGain c := funext (toneSampleGain_iterate hs)
      exact ⟨k, side, u, hk, by rw [updateTone, if_neg hv, if_pos hs, hf], hg ▸ hu⟩
    · have hg : ∀ k, s.toneGain c k = (s.volume.get c.chan).toNat := fun k => by rw [State.toneGain, if_neg hs]
      obtain ⟨k, side, u, hk, hf, hu⟩ := (steadySample_adds c).loop_full n i s
        (fun h => hfull (fun side k hk => by
          have := h side k hk
          rw [Function.iterate_id, id] at this
          rw [hg]
          exact this))
      have hg' : (fun m => ((id^[m] s).volume.get c.chan).toNat) = s.toneGain c := funext fun m => by
        rw [Function.iterate_id, id, hg]
      exact ⟨k, side, u, hk, by rw [updateTone, if_neg hv, if_neg hs, hf], hg' ▸ hu⟩

/-- Everything `updateNoise` does where there is room. -/
theorem updateNoise_next {n i : Nat} {s : State} (hroom : HasRoom s n i s.noiseGain) :
    ∃ t, updateNoise n i s = .next t ∧ Added s t n i s.noiseGain ∧
      t = ((s.setCounter .c3 (s.noiseEnd n).1).setLfsr (s.noiseEnd n).2).withAcc t.accL t.accR := by
  by_cases hv : s.volume.q3 = 0
  · refine ⟨advanceMuted .c3 n s, by rw [updateNoise, Quad.get_c3, if_pos hv],
      added_nothing (fun side j => State.setCounter_cell s _ _ side j) (noiseGain_of_muted hv), ?_⟩
    rw [State.noiseEnd, if_pos hv]
    rfl
  · obtain ⟨t, ht, hcells, hfr⟩ := noiseSample_adds.loop_next n i s
      (fun side k hk => by rw [noiseSampleGain_iterate]; exact hroom side k hk)
    refine ⟨t, by rw [updateNoise, Quad.get_c3, if_neg hv, ht], fun side j => ?_, ?_⟩
    · rw [hcells, noiseSampleGain_iterate]
    · rw [hfr, noiseMove_iterate, State.noiseEnd, if_neg hv]
      rfl

/-- And where there is not. -/
theorem updateNoise_full {n i : Nat} {s : State} (hfull : ¬ HasRoom s n i s.noiseGain) :
    ∃ k side u, k < n ∧ updateNoise n i s = .fault (.accOverflow (i + k) side u) ∧
      StoppedIn s u i k side s.noiseGain := by
  by_cases hv : s.volume.q3 = 0
  · refine absurd (fun side k _ => ?_) hfull
    have := (inI32_toInt (s.cell side (i + k))).2
    rw [noiseGain_of_muted hv]
    omega
  · obtain ⟨k, side, u, hk, hf, hu⟩ := noiseSample_adds.loop_full n i s
      (fun h => hfull (fun side k hk => by rw [← noiseSampleGain_iterate]; exact h side k hk))
    have hg : (fun m => noiseSampleGain (noiseMove^[m] s)) = s.noiseGain := funext (noiseSampleGain_iterate s)
    exact ⟨k, side, u, hk, by rw [updateNoise, Quad.get_c3, if_neg hv, hf], hg ▸ hu⟩

/-! ### The four channels -/

theorem toneGain_congr {s t : State} {c : ToneCh} (hv : t.volume = s.volume) (hs : t.cntStep = s.cntStep)
    (hc : t.counter.get c.chan = s.counter.get c.chan) : t.toneGain c = s.toneGain c := by
  funext k
  unfold State.toneGain State.phaseAfter
  rw [hv, hs, hc]

theorem tonePhase_congr {s t : State} {c : ToneCh} (hv : t.volume = s.volume) (hs : t.cntStep = s.cntStep)
    (hc : t.counter.get c.chan = s.counter.get c.chan) (n : Nat) : t.tonePhase c n = s.tonePhase c n := by
  unfold State.tonePhase State.phaseAfter
  rw [hv, hs, hc]

theorem noiseRun_congr {s t : State} (hs : t.cntStep.q3 = s.cntStep.q3) (hc : t.counter.q3 = s.counter.q3)
    (hl : t.lfsr = s.lfsr) (hm : t.lfsrMask = s.lfsrMask) (k : Nat) : t.noiseRun k = s.noiseRun k := by
  induction k with
  | zero => simp only [State.noiseRun, hc, hl]
  | succ k ih => simp only [State.noiseRun, ih, hs, hm]

theorem noiseGain_congr {s t : State} (hv : t.volume = s.volume) (hs : t.cntStep = s.cntStep)
    (hc : t.counter.q3 = s.counter.q3) (hl : t.lfsr = s.lfsr) (hm : t.lfsrMask = s.lfsrMask) :
    t.noiseGain = s.noiseGain := by
  funext k
  unfold State.noiseGain
  rw [noiseRun_congr (congrArg Quad.q3 hs) hc hl hm, hv]

theorem noiseEnd_congr {s t : State} (hv : t.volume = s.volume) (hs : t.cntStep = s.cntStep)
    (hc : t.counter.q3 = s.counter.q3) (hl : t.lfsr = s.lfsr) (hm : t.lfsrMask = s.lfsrMask) (n : Nat) :
    t.noiseEnd n = s.noiseEnd n := by
  unfold State.noiseEnd State.phaseAfter
  rw [noiseRun_congr (congrArg Quad.q3 hs) hc hl hm, hv, hs, Quad.get_c3, Quad.get_c3, Quad.get_c3, hc, hl]

theorem Added.trans {s t u : State} {n i : Nat} {g h : Nat → Nat} (h1 : Added s t n i g) (h2 : Added t u n i h) :
    Added s u n i (fun k => g k + h k) := by
  intro side j
  rw [h2, h1]
  split <;> push_cast <;> omega

theorem HasRoom.after {s t : State} {n i : Nat} {g h : Nat → Nat} (h1 : Added s t n i g) :
    HasRoom t n i h ↔ HasRoom s n i (fun k => g k + h k) := by
  have hcell : ∀ side k, k < n → (t.cell side (i + k)).toInt = (s.cell side (i + k)).toInt + (g k : Int) :=
    fun side k hk => by rw [h1, if_pos ⟨by omega, by omega⟩, Nat.add_sub_cancel_left]
  constructor <;> intro hr side k hk <;> have := hr side k hk <;> have := hcell side k hk <;>
    push_cast at * <;> omega

theorem HasRoom.mono {s : State} {n i : Nat} {g h : Nat → Nat} (hr : HasRoom s n i h) (hgh : ∀ k, g k ≤ h k) :
    HasRoom s n i g := by
  intro side k hk
  have := hr side k hk
  have := hgh k
  omega

/-- The state after the four channels, but for the cells. -/
def State.ranChannels (s : State) (n : Nat) : State :=
  { s with
    counter := ⟨s.tonePhase .t0 n, s.tonePhase .t1 n, s.tonePhase .t2 n, (s.noiseEnd n).1⟩
    lfsr := (s.noiseEnd n).2 }

/-- What a tone channel leaves alone, and its phase. -/
theorem tone_frame {c : Chan} {s t : State} {v : U32} (f : t = (s.setCounter c v).withAcc t.accL t.accR) :
    t.volume = s.volume ∧ t.cntStep = s.cntStep ∧ t.lfsr = s.lfsr ∧ t.lfsrMask = s.lfsrMask ∧
      t.counter = s.counter.set c v := by
  refine ⟨?_, ?_, ?_, ?_, ?_⟩ <;> · rw [f]; rfl

theorem tone_after_one {c d : ToneCh} {s t : State} {v : U32} (f : t = (s.setCounter c.chan v).withAcc t.accL t.accR)
    (hd : d.chan ≠ c.chan) (n : Nat) : t.toneGain d = s.toneGain d ∧ t.tonePhase d n = s.tonePhase d n := by
  obtain ⟨h1, h2, _, _, h5⟩ := tone_frame f
  have hc : t.counter.get d.chan = s.counter.get d.chan := by rw [h5, Quad.get_set_ne _ _ hd]
  exact ⟨toneGain_congr h1 h2 hc, tonePhase_congr h1 h2 hc n⟩

theorem noise_after_one {c : ToneCh} {s t : State} {v : U32} (f : t = (s.setCounter c.chan v).withAcc t.accL t.accR)
    (n : Nat) : t.noiseGain = s.noiseGain ∧ t.noiseEnd n = s.noiseEnd n := by
  obtain ⟨h1, h2, h3, h4, h5⟩ := tone_frame f
  have hc : t.counter.q3 = s.counter.q3 := by rw [h5]; cases c <;> rfl
  exact ⟨noiseGain_congr h1 h2 hc h3 h4, noiseEnd_congr h1 h2 hc h3 h4 n⟩

theorem frames_compose {s s2 s1 s0 t : State} {a b c d : U32} {l : U16}
    (f2 : s2 = (s.setCounter .c2 a).withAcc s2.accL s2.accR) (f1 : s1 = (s2.setCounter .c1 b).withAcc s1.accL s1.accR)
    (f0 : s0 = (s1.setCounter .c0 c).withAcc s0.accL s0.accR)
    (fn : t = ((s0.setCounter .c3 d).setLfsr l).withAcc t.accL t.accR) :
    t = State.withAcc { s with counter := ⟨c, b, a, d⟩, lfsr := l } t.accL t.accR := by
  generalize s2.accL = x at f2
  generalize s2.accR = y at f2
  subst f2
  generalize s1.accL = x at f1
  generalize s1.accR = y at f1
  subst f1
  generalize s0.accL = x at f0
  generalize s0.accR = y at f0
  subst f0
  refine fn.trans ?_
  simp only [State.withAcc, State.setCounter, State.setLfsr, Quad.set_c0, Quad.set_c1, Quad.set_c2, Quad.set_c3]

/-- Everything the four channels do where there is room. -/
theorem updateChannels_next {n i : Nat} {s : State} (hroom : HasRoom s n i s.gain) :
    ∃ t, updateChannels n i s = .next t ∧ Added s t n i s.gain ∧ t = (s.ranChannels n).withAcc t.accL t.accR := by
  obtain ⟨s2, h2, a2, f2⟩ := updateTone_next (c := .t2) (hroom.mono (fun k => by simp only [State.gain]; omega))
  obtain ⟨g1, p1⟩ := tone_after_one (d := .t1) f2 (by decide) n
  have r1 : HasRoom s2 n i (s2.toneGain .t1) := by
    rw [g1, HasRoom.after a2]
    exact hroom.mono (fun k => by simp only [State.gain]; omega)
  obtain ⟨s1, h1, a1, f1⟩ := updateTone_next r1
  rw [g1] at a1
  rw [p1] at f1
  obtain ⟨g0, p0⟩ := tone_after_one (d := .t0) f1 (by decide) n
  obtain ⟨g0', p0'⟩ := tone_after_one (d := .t0) f2 (by decide) n
  have r0 : HasRoom s1 n i (s1.toneGain .t0) := by
    rw [g0, g0', HasRoom.after (a2.trans a1)]
    exact hroom.mono (fun k => by simp only [State.gain]; omega)
  obtain ⟨s0, h0, a0, f0⟩ := updateTone_next r0
  rw [g0, g0'] at a0
  rw [p0, p0'] at f0
  have gn : s0.noiseGain = s.noiseGain :=
    (noise_after_one f0 n).1.trans ((noise_after_one f1 n).1.trans (noise_after_one f2 n).1)
  have pn : s0.noiseEnd n = s.noiseEnd n :=
    (noise_after_one f0 n).2.trans ((noise_after_one f1 n).2.trans (noise_after_one f2 n).2)
  have rn : HasRoom s0 n i s0.noiseGain := by
    rw [gn, HasRoom.after ((a2.trans a1).trans a0)]
    exact hroom
  obtain ⟨t, hn, an, fn⟩ := updateNoise_next rn
  rw [gn] at an
  rw [pn] at fn
  have hadd : Added s t n i s.gain := ((a2.trans a1).trans a0).trans an
  have hfr : t = (s.ranChannels n).withAcc t.accL t.accR := frames_compose f2 f1 f0 fn
  refine ⟨t, ?_, hadd, hfr⟩
  rw [updateChannels, h2, andThen_next, h1, andThen_next, h0, andThen_next, hn]

/-- A channel that stops, after channels that completed. -/
theorem StoppedIn.overflowed {s t u : State} {n i k : Nat} {side : Side} {c : Chan} {g : Nat → Nat}
    (ha : Added s t n i (s.gainBefore c)) (hf : FlushFrame s t) (hg : g = s.chanGain c) (h : StoppedIn t u i k side g) :
    Overflowed s u n i c k side := by
  subst hg
  obtain ⟨hcells, hbig, huf⟩ := h
  exact ⟨fun sd j => by rw [hcells, ha], hbig, hf.trans huf⟩

theorem tone_flushFrame {c : Chan} {s t : State} {v : U32} (f : t = (s.setCounter c v).withAcc t.accL t.accR) :
    FlushFrame s t := by
  generalize t.accL = l at f
  generalize t.accR = r at f
  subst f
  rfl

/-- And where there is not: it faults at the first addition, in the order of R204, that would pass the top of `i32`. -/
theorem updateChannels_full {n i : Nat} {s : State} (hfull : ¬ HasRoom s n i s.gain) :
    ∃ c k side u, k < n ∧ updateChannels n i s = .fault (.accOverflow (i + k) side u) ∧ Overflowed s u n i c k side := by
  by_cases r2 : HasRoom s n i (s.toneGain .t2)
  · obtain ⟨s2, h2, a2, f2⟩ := updateTone_next r2
    obtain ⟨g1, _⟩ := tone_after_one (d := .t1) f2 (by decide) n
    by_cases r1 : HasRoom s2 n i (s2.toneGain .t1)
    · obtain ⟨s1, h1, a1, f1⟩ := updateTone_next r1
      rw [g1] at a1
      have g0 : s1.toneGain .t0 = s.toneGain .t0 :=
        (tone_after_one (d := .t0) f1 (by decide) n).1.trans (tone_after_one (d := .t0) f2 (by decide) n).1
      have fr1 := (tone_flushFrame f2).trans (tone_flushFrame f1)
      by_cases r0 : HasRoom s1 n i (s1.toneGain .t0)
      · obtain ⟨s0, h0, a0, f0⟩ := updateTone_next r0
        rw [g0] at a0
        have gn : s0.noiseGain = s.noiseGain :=
          (noise_after_one f0 n).1.trans ((noise_after_one f1 n).1.trans (noise_after_one f2 n).1)
        have rn : ¬ HasRoom s0 n i s0.noiseGain := fun rn => hfull (by
          rw [gn, HasRoom.after ((a2.trans a1).trans a0)] at rn
          exact rn)
        obtain ⟨k, side, u, hk, hf, hu⟩ := updateNoise_full rn
        refine ⟨.c3, k, side, u, hk, ?_, hu.overflowed ((a2.trans a1).trans a0) (fr1.trans (tone_flushFrame f0)) gn⟩
        rw [updateChannels, h2, andThen_next, h1, andThen_next, h0, andThen_next, hf]
      · obtain ⟨k, side, u, hk, hf, hu⟩ := updateTone_full r0
        refine ⟨.c0, k, side, u, hk, ?_, hu.overflowed (a2.trans a1) fr1 g0⟩
        rw [updateChannels, h2, andThen_next, h1, andThen_next, hf, andThen_fault]
    · obtain ⟨k, side, u, hk, hf, hu⟩ := updateTone_full r1
      refine ⟨.c1, k, side, u, hk, ?_, hu.overflowed a2 (tone_flushFrame f2) g1⟩
      rw [updateChannels, h2, andThen_next, hf, andThen_fault]
  · obtain ⟨k, side, u, hk, hf, hu⟩ := updateTone_full r2
    refine ⟨.c2, k, side, u, hk, ?_, hu.overflowed (added_nothing (fun _ _ => rfl) (fun _ => rfl)) (.refl s) rfl⟩
    rw [updateChannels, hf, andThen_fault]

/-! ### `UPDATE` and the flush -/

theorem ranChannels_zero (s : State) : s.ranChannels 0 = s := by
  have ht : ∀ c, s.tonePhase c 0 = s.counter.get c.chan := fun c => by simp [State.tonePhase]
  have hn : s.noiseEnd 0 = (s.counter.q3, s.lfsr) := by simp [State.noiseEnd, State.noiseRun]
  simp only [State.ranChannels, ht, hn, ToneCh.chan_t0, ToneCh.chan_t1, ToneCh.chan_t2, Quad.get_c0, Quad.get_c1, Quad.get_c2]

theorem flushed_of {fl : FlushArgs} {s u : State} (hf : u = (s.ranChannels fl.n).withAcc u.accL u.accR)
    (ha : Added s u fl.n (s.cur.getD 0) s.gain) : Flushed fl s (moveCursor fl.p u) := by
  have hp : moveCursor fl.p u = { u with cur := fl.p.or u.cur } := by cases fl.p <;> rfl
  have hc : u.cur = s.cur := by rw [hf]; rfl
  rw [hp]
  refine ⟨?_, fun side j => ?_⟩
  · rw [hc]
    simp only []
    rw [hf]
    rfl
  · exact (congrArg BitVec.toInt (by cases side <;> rfl)).trans (ha side j)

/-- A flush that is ready completes, and leaves what `Flushed` says. -/
theorem flush_next {fl : FlushArgs} {s : State} (h : FlushReady fl s) : ∃ t, flush fl s = .next t ∧ Flushed fl s t := by
  by_cases hn : fl.n = 0
  · refine ⟨moveCursor fl.p s, by rw [flush, update, if_pos hn, andThen_next], flushed_of ?_ ?_⟩
    · rw [hn, ranChannels_zero, State.withAcc_self]
    · intro side j
      rw [hn, if_neg (by omega), Int.add_zero]
  · obtain hz | ⟨i, hi, hcap, hroom⟩ := h
    · exact absurd hz hn
    · obtain ⟨u, hu, ha, hf⟩ := updateChannels_next hroom
      refine ⟨moveCursor fl.p u, ?_, flushed_of hf ?_⟩
      · rw [flush, update, if_neg hn, hi]
        simp only []
        rw [if_neg (by omega), hu, andThen_next]
      · rw [hi]
        exact ha

/-- A flush that is not ready faults, in the order of R204. -/
theorem flush_fault {fl : FlushArgs} {s : State} (h : ¬ FlushReady fl s) :
    (s.cur = none ∧ flush fl s = .fault (.cursorUnset fl.n)) ∨
    (∃ i, s.cur = some i ∧ s.config.segCap < i + fl.n ∧ flush fl s = .fault (.accIndex (i + fl.n))) ∨
    (∃ i c k side u, s.cur = some i ∧ i + fl.n ≤ s.config.segCap ∧ k < fl.n ∧
      flush fl s = .fault (.accOverflow (i + k) side u) ∧ Overflowed s u fl.n i c k side) := by
  have hn : fl.n ≠ 0 := fun hn => h (.inl hn)
  cases hc : s.cur with
  | none =>
    refine .inl ⟨rfl, ?_⟩
    rw [flush, update, if_neg hn, hc]
    rfl
  | some i =>
    by_cases hcap : s.config.segCap < i + fl.n
    · refine .inr (.inl ⟨i, rfl, hcap, ?_⟩)
      rw [flush, update, if_neg hn, hc]
      simp only []
      rw [if_pos hcap, andThen_fault]
    · have hroom : ¬ HasRoom s fl.n i s.gain := fun hroom => h (.inr ⟨i, hc, by omega, hroom⟩)
      obtain ⟨c, k, side, u, hk, hf, hu⟩ := updateChannels_full hroom
      refine .inr (.inr ⟨i, c, k, side, u, rfl, by omega, hk, ?_, hu⟩)
      rw [flush, update, if_neg hn, hc]
      simp only []
      rw [if_neg hcap, hf, andThen_fault]

/-- What a flush that answers a next state was and left. -/
theorem flush_eq_next {fl : FlushArgs} {s t : State} (h : flush fl s = .next t) : FlushReady fl s ∧ Flushed fl s t := by
  by_cases hr : FlushReady fl s
  · obtain ⟨u, hu, hfl⟩ := flush_next hr
    rw [h] at hu
    cases hu
    exact ⟨hr, hfl⟩
  · obtain ⟨_, hf⟩ | ⟨_, _, _, hf⟩ | ⟨_, _, _, _, _, _, _, _, hf, _⟩ := flush_fault hr <;> rw [h] at hf <;> cases hf

theorem flush_ne_refused (fl : FlushArgs) (s : State) (r : Refusal) : flush fl s ≠ .refused r := by
  intro h
  by_cases hr : FlushReady fl s
  · obtain ⟨u, hu, _⟩ := flush_next hr
    rw [h] at hu
    cases hu
  · obtain ⟨_, hf⟩ | ⟨_, _, _, hf⟩ | ⟨_, _, _, _, _, _, _, _, hf, _⟩ := flush_fault hr <;> rw [h] at hf <;> cases hf

/-! ### The arrays stay well formed -/

theorem addCell_keeps_accForm {side : Side} {i : Nat} {d : Int} {s t : State} (hi : i < s.config.segCap)
    (h : AccForm s) (ht : addCell side i d s = .next t) : AccForm t := by
  obtain ⟨_, rfl⟩ := addCell_eq_next.mp ht
  obtain ⟨⟨hlw, hli⟩, hrw, hri⟩ := h
  cases side
  · exact ⟨⟨Memory.wf_write _ _ hlw, Memory.within_write _ hli hi⟩, hrw, hri⟩
  · exact ⟨⟨hlw, hli⟩, Memory.wf_write _ _ hrw, Memory.within_write _ hri hi⟩

/-- The arrays in form and the capacity as given: what the parts of a transaction keep. -/
def AccFormAt (segCap : Nat) (s : State) : Prop := s.config.segCap = segCap ∧ AccForm s

theorem addBoth_keeps_accFormAt {segCap i : Nat} {dL dR : Int} {s t : State} (hi : i < segCap)
    (h : AccFormAt segCap s) (ht : addBoth i dL dR s = .next t) : AccFormAt segCap t := by
  obtain ⟨u, hu, ht⟩ := andThen_eq_next.mp ht
  have hcu : u.config = s.config := by obtain ⟨_, rfl⟩ := addCell_eq_next.mp hu; rfl
  have hct : t.config = u.config := by obtain ⟨_, rfl⟩ := addCell_eq_next.mp ht; rfl
  have h1 := addCell_keeps_accForm (by rw [h.1]; exact hi) h.2 hu
  exact ⟨by rw [hct, hcu, h.1], addCell_keeps_accForm (by rw [hcu, h.1]; exact hi) h1 ht⟩

theorem flush_keeps_accForm {fl : FlushArgs} {s t : State} (h : AccForm s) (ht : flush fl s = .next t) : AccForm t := by
  obtain ⟨u, hu, ht⟩ := andThen_eq_next.mp ht
  have hmove : AccForm u → AccForm t := fun hu => by
    cases hp : fl.p with
    | none => rw [hp] at ht; cases ht; exact hu
    | some p => rw [hp] at ht; cases ht; exact hu
  refine hmove ?_
  simp only [update] at hu
  split at hu
  · cases hu; exact h
  · split at hu
    · cases hu
    · rename_i i _
      split at hu
      · cases hu
      · rename_i hcap
        have hs : AccFormAt s.config.segCap s := ⟨rfl, h⟩
        obtain ⟨s2, h2, hu⟩ := andThen_eq_next.mp hu
        obtain ⟨s1, h1, hu⟩ := andThen_eq_next.mp hu
        obtain ⟨s0, h0, hu⟩ := andThen_eq_next.mp hu
        have htone : ∀ c v w, AccFormAt s.config.segCap v → updateTone c fl.n i v = .next w →
            AccFormAt s.config.segCap w := fun c v w hv hw => by
          simp only [updateTone] at hw
          split at hw
          · cases hw; exact hv
          · split at hw
            · refine forSamples_keeps (fun k a b _ hk ha hb => ?_) hv hw
              simp only [toneSample] at hb
              split at hb
              · exact addBoth_keeps_accFormAt (by omega) (s := advance c.chan a) ha hb
              · cases hb; exact ha
            · exact forSamples_keeps (fun k a b _ hk ha hb => addBoth_keeps_accFormAt (by omega) ha hb) hv hw
        have hn : AccFormAt s.config.segCap u := by
          have hs0 := htone _ _ _ (htone _ _ _ (htone _ _ _ hs h2) h1) h0
          simp only [updateNoise] at hu
          split at hu
          · cases hu; exact hs0
          · refine forSamples_keeps (fun k a b _ hk ha hb => ?_) hs0 hu
            obtain ⟨v, hv, hb⟩ := andThen_eq_next.mp hb
            have hav : AccFormAt s.config.segCap v := by
              split at hv
              · exact addBoth_keeps_accFormAt (by omega) (s := advance .c3 a) ha hv
              · cases hv; exact ha
            cases hb
            simp only [noiseClock]
            split
            · exact hav
            · exact hav
        exact hn.2

end Sys2Proof.Machine
end

