-- ==== Sys2Proof/Laws/Effects.lean ====
section
/-! SUPPORT. The register effects, each once: what they write, what they leave alone, and every flushing transaction as one
flush and one effect. -/

namespace Sys2Proof.Machine

/-! ### The part of a state that a register effect reads and writes -/

/-- `e` writes the registers and their derived elements only, and looks at nothing but them and the tables. -/
structure RegEffect (e : State → State) : Prop where
  frame : ∀ s, e s = { s with
    reg := (e s).reg, latch := (e s).latch, volume := (e s).volume, cntStep := (e s).cntStep, lfsr := (e s).lfsr,
    lfsrMask := (e s).lfsrMask }
  counter : ∀ s v, e { s with counter := v } = { e s with counter := v }
  host : ∀ s p r, e { s with pending := p, returned := r } = { e s with pending := p, returned := r }

theorem latchEffect_regEffect (r : BitVec 3) (d4 : BitVec 4) : RegEffect (latchEffect r d4) := by
  constructor <;> intros <;> unfold latchEffect <;> generalize target r = x <;>
    (cases x with
    | tone c =>
      cases c <;> first
        | rfl
        | (simp only [latchTone, effTone]; split <;> split <;> first | rfl | simp_all [State.setReg, State.setLatch])
        | (simp only [latchTone, effTone]; split <;> rfl)
    | noise => rfl
    | vol c => rfl)

theorem dataEffect_regEffect (d6 : BitVec 6) : RegEffect (dataEffect d6) := by
  constructor <;> intro s <;> intros <;> unfold dataEffect <;> generalize hx : target s.latch = x <;>
    (cases x with
    | tone c =>
      cases c <;> first
        | rfl
        | (simp only [dataTone, effTone]; split <;> split <;> first | rfl | simp_all [State.setReg])
        | (simp only [dataTone, effTone]; split <;> rfl)
    | noise => rfl
    | vol c => rfl)


theorem byteEffect_regEffect (b : Byte) : RegEffect (byteEffect b) := by
  cases h : isLatchByte b
  · simpa only [show byteEffect b = dataEffect (dataBits b) from funext fun s => by simp [byteEffect, h]]
      using dataEffect_regEffect (dataBits b)
  · simpa only [show byteEffect b = latchEffect (latchIndex b) (latchNibble b) from funext fun s => by
      simp [byteEffect, h]] using latchEffect_regEffect (latchIndex b) (latchNibble b)

theorem RegEffect.id : RegEffect id := ⟨fun _ => rfl, fun _ _ => rfl, fun _ _ _ => rfl⟩

theorem RegEffect.setLfsr (v : U16) : RegEffect (fun s => s.setLfsr v) := ⟨fun _ => rfl, fun _ _ => rfl, fun _ _ _ => rfl⟩

theorem RegEffect.comp {e f : State → State} (he : RegEffect e) (hf : RegEffect f) : RegEffect (fun s => f (e s)) where
  frame s := by
    have h1 := he.frame s
    have h2 := hf.frame (e s)
    generalize hu : e s = u at h1 h2 ⊢
    generalize hv : f u = v at h2 ⊢
    rw [h1] at h2
    exact h2
  counter s v := by rw [he.counter, hf.counter]
  host s p r := by rw [he.host, hf.host]

/-- Bytes one after another, with no flush between them. -/
def bytesEffect (bytes : List Byte) (s : State) : State := bytes.foldl (fun u b => byteEffect b u) s

theorem bytesEffect_regEffect (bytes : List Byte) : RegEffect (bytesEffect bytes) := by
  induction bytes with
  | nil => exact RegEffect.id
  | cons b rest ih => exact (byteEffect_regEffect b).comp ih

theorem RegEffect.cur {e : State → State} (h : RegEffect e) (s : State) : (e s).cur = s.cur := by rw [h.frame]

/-! ### The flush of no samples -/

theorem flush_none (p : Option Nat) (s : State) : flush ⟨0, p⟩ s = .next (moveCursor p s) := rfl

theorem moveCursor_eq (p : Option Nat) (s : State) : moveCursor p s = { s with cur := p.or s.cur } := by cases p <;> rfl

/-- Moving the cursor to where it already is. -/
theorem moveCursor_of_moved {p : Option Nat} {s : State} (h : p.or s.cur = s.cur) : moveCursor p s = s := by
  rw [moveCursor_eq, h]

theorem Flushed.moved {fl : FlushArgs} {s u : State} (h : Flushed fl s u) : fl.p.or u.cur = u.cur := by
  rw [h.1]
  cases fl.p <;> rfl

/-- The bytes of `RESTORE` are one flush and then their effects in order (R179). -/
theorem busWrites_moved {bytes : List Byte} {p : Option Nat} {s : State} (h : p.or s.cur = s.cur) :
    busWrites bytes ⟨0, p⟩ s = .next (bytesEffect bytes s) := by
  induction bytes generalizing s with
  | nil => rfl
  | cons b rest ih =>
    rw [busWrites, busWrite, flush_none, moveCursor_of_moved h, andThen_next, andThen_next,
      ih (by rw [(byteEffect_regEffect b).cur, h])]
    rfl

theorem busWrites_eq (b : Byte) (rest : List Byte) (fl : FlushArgs) (s : State) :
    busWrites (b :: rest) fl s = andThen (flush fl s) (fun u => .next (bytesEffect (b :: rest) u)) := by
  rw [busWrites, busWrite, andThen_assoc]
  cases hf : flush fl s with
  | next u =>
    have hm := (flush_eq_next hf).2.moved
    rw [andThen_next, andThen_next, andThen_next, busWrites_moved (by rw [(byteEffect_regEffect b).cur, hm])]
    rfl
  | fault f => rfl
  | refused r => rfl

/-! ### Every flushing transaction -/

/-- What `RESTORE` does after its flush (R179, R181). -/
def restoreEffect (r : SaveRecord) (s : State) : State :=
  (bytesEffect (restoreBytes r) s).setLfsr (BitVec.ofNat 16 (r.lfsrState &&& 0xFFFF))

/-- What a flushing transaction does after its flush; nothing for the others. -/
def effectOf (i : Instr) : State → State :=
  match i with
  | .latchTone0 d4 _ => latchEffect 0 d4
  | .latchVol0 d4 _ => latchEffect 1 d4
  | .latchTone1 d4 _ => latchEffect 2 d4
  | .latchVol1 d4 _ => latchEffect 3 d4
  | .latchTone2 d4 _ => latchEffect 4 d4
  | .latchVol2 d4 _ => latchEffect 5 d4
  | .latchNoise d4 _ => latchEffect 6 d4
  | .latchVol3 d4 _ => latchEffect 7 d4
  | .data _ d6 _ => dataEffect d6
  | .flush _ => id
  | .extAdd _ _ _ => id
  | .drainStereo _ => id
  | .drainMono _ => id
  | .config _ _ => id
  | .save => id
  | .restore r _ => restoreEffect r
  | .dbgGetReg _ => id
  | .dbgSetReg _ _ => id
  | .dbgGetLatch => id

theorem effectOf_regEffect (i : Instr) : RegEffect (effectOf i) := by
  cases i <;> simp only [effectOf] <;> first
    | exact RegEffect.id
    | exact latchEffect_regEffect _ _
    | exact dataEffect_regEffect _
    | exact (bytesEffect_regEffect _).comp (RegEffect.setLfsr _)

/-- A flushing transaction is the flush under the old registers and then its effect (R80, R144, R179). -/
theorem exec_flushing {i : Instr} {fl : FlushArgs} (h : flushArgsOf i = some fl) (s : State) :
    exec i s = whenConfigured i s (fun s => andThen (flush fl s) (fun u => .next (effectOf i u))) := by
  cases i <;> simp only [flushArgsOf, Option.some.injEq, reduceCtorEq] at h <;> subst h <;> first
    | rfl
    | (simp only [exec, execFlush, effectOf, id, andThen_pure]; done)
    | (simp only [exec, execRestore, restoreBytes, busWrites_eq, andThen_assoc, andThen_next]; rfl)

/-- Everything a flushing transaction can do when it completes. -/
theorem flushing_eq_next {i : Instr} {fl : FlushArgs} (h : flushArgsOf i = some fl) {s t : State}
    (ht : exec i s = .next t) :
    s.configured = true ∧ ∃ u, flush fl s = .next u ∧ FlushReady fl s ∧ Flushed fl s u ∧ t = effectOf i u := by
  rw [exec_flushing h, whenConfigured_eq_next, andThen_eq_next] at ht
  obtain ⟨hc, u, hu, ht⟩ := ht
  obtain ⟨hr, hf⟩ := flush_eq_next hu
  exact ⟨hc, u, hu, hr, hf, by cases ht; rfl⟩

/-- Where a flushing transaction completes. -/
theorem flushing_next {i : Instr} {fl : FlushArgs} (h : flushArgsOf i = some fl) {s : State} (hc : s.configured = true)
    (hr : FlushReady fl s) : ∃ u, flush fl s = .next u ∧ Flushed fl s u ∧ exec i s = .next (effectOf i u) := by
  obtain ⟨u, hu, hf⟩ := flush_next hr
  exact ⟨u, hu, hf, by rw [exec_flushing h, whenConfigured_true hc, hu, andThen_next]⟩

theorem index_cases : ∀ r : BitVec 3, r = 0 ∨ r = 1 ∨ r = 2 ∨ r = 3 ∨ r = 4 ∨ r = 5 ∨ r = 6 ∨ r = 7 := by decide

/-- The transaction of a byte has the effect of the byte. -/
theorem busForm_flushArgs (b : Byte) (fl : FlushArgs) : flushArgsOf (busForm b fl) = some fl := by
  unfold busForm latchForm
  split
  · split <;> rfl
  · rfl

theorem busForm_effect (b : Byte) (fl : FlushArgs) : effectOf (busForm b fl) = byteEffect b := by
  funext s
  cases h : isLatchByte b
  · simp only [busForm, byteEffect, h, Bool.false_eq_true, if_false]
    rfl
  · simp only [busForm, byteEffect, h, if_true]
    obtain h | h | h | h | h | h | h | h := index_cases (latchIndex b) <;> rw [h] <;> rfl

/-! ### The two parts of a divisor -/

theorem divisor_high : ∀ (x : BitVec 6) (d : BitVec 4), BitVec.extractLsb' 4 6 (x ++ d : BitVec 10) = x := by
  decide +kernel

theorem divisor_low : ∀ (x : BitVec 6) (d : BitVec 4), BitVec.extractLsb' 0 4 (x ++ d : BitVec 10) = d := by
  decide +kernel

theorem divisor_parts (x : BitVec 10) : x.extractLsb' 4 6 ++ x.extractLsb' 0 4 = x := by
  revert x
  decide +kernel

/-! ### What the effects write -/

theorem latchEffect_vol {r : BitVec 3} {c : Chan} (h : target r = .vol c) (d4 : BitVec 4) (s : State) :
    latchEffect r d4 s = { s with
      latch := r, reg := { s.reg with vol := s.reg.vol.set c d4 }, volume := s.volume.set c (s.levelFor d4) } := by
  unfold latchEffect
  rw [h]
  simp only [writeVol, effVol, State.setVolume, State.setReg, State.setLatch, Regs.setVol, Quad.get_set_same]
  rfl

theorem latchEffect_noise {r : BitVec 3} (h : target r = .noise) (d4 : BitVec 4) (s : State) :
    latchEffect r d4 s = { s with
      latch := r, reg := { s.reg with noise := d4 }, lfsr := 0x8000, lfsrMask := maskFor d4,
      cntStep := s.cntStep.set .c3 (s.noiseStepFor d4) } := by
  unfold latchEffect
  rw [h]
  rfl

theorem latchEffect_tone {r : BitVec 3} {c : ToneCh} (h : target r = .tone c) (hc : c ≠ .t2) (d4 : BitVec 4) (s : State) :
    latchEffect r d4 s = { s with
      latch := r, reg := s.reg.setTone c (latchDivisor (s.reg.tone c) d4),
      cntStep := s.cntStep.set c.chan (s.stepFor (latchDivisor (s.reg.tone c) d4)) } := by
  unfold latchEffect
  rw [h]
  simp only [latchTone, effTone, hc, false_and, if_false]
  simp only [State.setStep, State.setReg, State.setLatch, Regs.tone_setTone_same]
  rfl

theorem latchEffect_tone2 {r : BitVec 3} (h : target r = .tone .t2) (d4 : BitVec 4) (s : State) :
    latchEffect r d4 s = { s with
      latch := r, reg := { s.reg with tone2 := latchDivisor s.reg.tone2 d4 },
      cntStep := { s.cntStep with
        q2 := s.stepFor (latchDivisor s.reg.tone2 d4),
        q3 := if rateSelect s.reg.noise = 3 then s.stepFor (latchDivisor s.reg.tone2 d4) >>> 1 else s.cntStep.q3 } } := by
  unfold latchEffect
  rw [h]
  simp only [latchTone, effTone, true_and]
  split <;> rename_i hr <;> [rw [if_pos (by simpa using hr)]; rw [if_neg (by simpa using hr)]] <;> rfl

theorem dataEffect_tone {s : State} {c : ToneCh} (h : target s.latch = .tone c) (hc : c ≠ .t2) (d6 : BitVec 6) :
    dataEffect d6 s = { s with
      reg := s.reg.setTone c (dataDivisor (s.reg.tone c) d6),
      cntStep := s.cntStep.set c.chan (s.stepFor (dataDivisor (s.reg.tone c) d6)) } := by
  unfold dataEffect
  rw [h]
  simp only [dataTone, effTone, hc, false_and, if_false]
  simp only [State.setStep, State.setReg, Regs.tone_setTone_same]
  rfl

theorem dataEffect_tone2 {s : State} (h : target s.latch = .tone .t2) (d6 : BitVec 6) :
    dataEffect d6 s = { s with
      reg := { s.reg with tone2 := dataDivisor s.reg.tone2 d6 },
      cntStep := { s.cntStep with
        q2 := s.stepFor (dataDivisor s.reg.tone2 d6),
        q3 := if rateSelect s.reg.noise = 3 then s.stepFor (dataDivisor s.reg.tone2 d6) >>> 1 else s.cntStep.q3 } } := by
  unfold dataEffect
  rw [h]
  simp only [dataTone, effTone, true_and]
  split <;> rename_i hr <;> [rw [if_pos (by simpa using hr)]; rw [if_neg (by simpa using hr)]] <;> rfl

/-- A DATA byte on a 4-bit register is the LATCH byte of the latched register with its low four bits (R94, R95). -/
theorem dataEffect_nibble {s : State} (h : ∀ c, target s.latch ≠ .tone c) (d6 : BitVec 6) :
    dataEffect d6 s = latchEffect s.latch (dataNibble d6) s := by
  unfold dataEffect latchEffect
  split
  · rename_i c hc
    exact absurd hc (h c)
  · rfl
  · rfl

end Sys2Proof.Machine
end

