-- ==== Sys2Proof/Laws/Derived.lean ====
section
/-! SUPPORT. The derived elements follow the registers through every register effect (R26), what the eleven writes of
`RESTORE` leave (R179), and what the transactions that do not flush can do. -/

namespace Sys2Proof.Machine

/-! ### The noise step -/

theorem noiseStepFor_congr {s t : State} (hn : t.noiseStepTable = s.noiseStepTable) (hq : t.cntStep.q2 = s.cntStep.q2)
    (d : BitVec 4) : t.noiseStepFor d = s.noiseStepFor d := by
  unfold State.noiseStepFor
  rw [hn, hq]

theorem noiseStepFor_driven {d : BitVec 4} (h : rateSelect d = 3) (s : State) : s.noiseStepFor d = s.cntStep.q2 >>> 1 := by
  unfold State.noiseStepFor
  rw [h]
  rfl

theorem noiseStepFor_fixed {s t : State} {d : BitVec 4} (h : rateSelect d ≠ 3) (hn : t.noiseStepTable = s.noiseStepTable) :
    t.noiseStepFor d = s.noiseStepFor d := by
  have hb : ∀ d : BitVec 4, rateSelect d ≠ 3 → ¬ ((rateSelect d).getLsbD 1 = true ∧ (rateSelect d).getLsbD 0 = true) := by
    decide
  have hd := hb d h
  unfold State.noiseStepFor
  rw [hn]
  split <;> simp_all

/-! ### The effects keep the derived elements current -/

theorem derived_setTone {s : State} (h : Derived s) (c : ToneCh) (v : BitVec 10) :
    Derived (effTone c (s.setReg (s.reg.setTone c v))) := by
  obtain ⟨hvol, htone, hnoise, hmask⟩ := h
  have e : effTone c (s.setReg (s.reg.setTone c v)) =
      { s with reg := s.reg.setTone c v, cntStep := (effTone c (s.setReg (s.reg.setTone c v))).cntStep } := by
    unfold effTone
    simp only []
    split <;> rfl
  have eq3 : ¬ (c = .t2 ∧ rateSelect s.reg.noise = 3) →
      (effTone c (s.setReg (s.reg.setTone c v))).cntStep = s.cntStep.set c.chan (s.stepFor v) := fun hh => by
    unfold effTone
    simp only []
    rw [if_neg (by simpa using hh)]
    simp only [State.setStep, State.setReg, Regs.tone_setTone_same]
    rfl
  refine ⟨fun d => ?_, fun d => ?_, ?_, ?_⟩
  · rw [e]
    simp only [Regs.setTone_vol]
    exact hvol d
  · by_cases hd : d = c
    · subst hd
      unfold effTone
      simp only []
      split
      · obtain ⟨rfl, _⟩ := ‹_ ∧ _›
        rfl
      · simp only [State.setStep, Quad.get_set_same]
        rfl
    · have hr : (effTone c (s.setReg (s.reg.setTone c v))).reg.tone d = s.reg.tone d := by
        rw [e]
        exact Regs.tone_setTone_ne _ _ hd
      have hs : (effTone c (s.setReg (s.reg.setTone c v))).stepFor (s.reg.tone d) = s.stepFor (s.reg.tone d) := by
        rw [e]
        rfl
      rw [hr, hs, ← htone d]
      unfold effTone
      simp only []
      split <;> (cases c <;> cases d <;> first | rfl | exact absurd rfl hd)
  · have hr : (effTone c (s.setReg (s.reg.setTone c v))).reg.noise = s.reg.noise := by
      rw [e]
      simp
    rw [hr]
    by_cases hh : c = .t2 ∧ rateSelect s.reg.noise = 3
    · rw [noiseStepFor_driven hh.2]
      unfold effTone
      simp only []
      rw [if_pos (by simpa using hh)]
      obtain ⟨rfl, _⟩ := hh
      rfl
    · rw [eq3 hh]
      by_cases h3 : rateSelect s.reg.noise = 3
      · rw [noiseStepFor_driven h3, eq3 hh]
        rw [noiseStepFor_driven h3] at hnoise
        cases c <;> first | exact hnoise | exact absurd ⟨rfl, h3⟩ hh
      · rw [noiseStepFor_fixed (s := s) h3 (by rw [e]), ← hnoise]
        cases c <;> rfl
  · rw [e]
    simp only [Regs.setTone_noise]
    exact hmask

theorem derived_writeNoise {s : State} (h : Derived s) (d : BitVec 4) : Derived (writeNoise d s) := by
  refine ⟨h.1, fun c => ?_, ?_, rfl⟩
  · have := h.2.1 c
    cases c <;> exact this
  · unfold writeNoise effNoise
    simp only [State.setStep]
    exact noiseStepFor_congr rfl rfl _

theorem derived_writeVol {s : State} (h : Derived s) (c : Chan) (d : BitVec 4) : Derived (writeVol c d s) := by
  refine ⟨fun c' => ?_, h.2⟩
  simp only [writeVol, effVol, State.setVolume, State.setReg, Regs.setVol]
  by_cases hc : c' = c
  · subst hc
    simp only [Quad.get_set_same]
    rfl
  · rw [Quad.get_set_ne _ _ hc, Quad.get_set_ne _ _ hc]
    exact h.1 c'

theorem derived_latchEffect {s : State} (h : Derived s) (r : BitVec 3) (d4 : BitVec 4) : Derived (latchEffect r d4 s) := by
  have hl : Derived (s.setLatch r) := h
  unfold latchEffect
  split
  · exact derived_setTone hl _ _
  · exact derived_writeNoise hl _
  · exact derived_writeVol hl _ _

theorem derived_dataEffect {s : State} (h : Derived s) (d6 : BitVec 6) : Derived (dataEffect d6 s) := by
  unfold dataEffect
  split
  · exact derived_setTone h _ _
  · exact derived_writeNoise h _
  · exact derived_writeVol h _ _

theorem derived_bytesEffect {s : State} (h : Derived s) (bytes : List Byte) : Derived (bytesEffect bytes s) := by
  induction bytes generalizing s with
  | nil => exact h
  | cons b rest ih =>
    refine ih ?_
    show Derived (byteEffect b s)
    unfold byteEffect
    split
    · exact derived_latchEffect h _ _
    · exact derived_dataEffect h _

theorem derived_effectOf {s : State} (h : Derived s) (i : Instr) : Derived (effectOf i s) := by
  cases i with
  | latchTone0 d _ | latchVol0 d _ | latchTone1 d _ | latchVol1 d _ | latchTone2 d _ | latchVol2 d _ | latchNoise d _
  | latchVol3 d _ => exact derived_latchEffect h _ d
  | data _ d _ => exact derived_dataEffect h d
  | restore r _ => exact derived_bytesEffect h (restoreBytes r)
  | _ => exact h

/-! ### The eleven writes of `RESTORE` -/

theorem byteEffect_replayLatch {r : Nat} (hr : r < 8) (t : Nat) (s : State) :
    byteEffect (replayLatch r t) s = latchEffect (BitVec.ofNat 3 r) (BitVec.ofNat 4 t) s := by
  have hb : ∀ r < 8, ∀ m < 16, isLatchByte (BitVec.ofNat 8 (0x80 ||| (r <<< 4) ||| m)) = true ∧
      latchIndex (BitVec.ofNat 8 (0x80 ||| (r <<< 4) ||| m)) = BitVec.ofNat 3 r ∧
      latchNibble (BitVec.ofNat 8 (0x80 ||| (r <<< 4) ||| m)) = BitVec.ofNat 4 m := by decide
  obtain ⟨h1, h2, h3⟩ := hb r hr (t % 16) (Nat.mod_lt _ (by decide))
  unfold byteEffect replayLatch
  rw [show t &&& 0xF = t % 16 from Nat.and_two_pow_sub_one_eq_mod t 4, if_pos h1, h2, h3]
  congr 1
  apply BitVec.eq_of_toNat_eq
  simp

theorem byteEffect_replayData (t : Nat) (s : State) :
    byteEffect (replayData t) s = dataEffect (BitVec.ofNat 6 (t / 16)) s := by
  have hb : ∀ m < 64, isLatchByte (BitVec.ofNat 8 m) = false ∧ dataBits (BitVec.ofNat 8 m) = BitVec.ofNat 6 m := by decide
  obtain ⟨h1, h2⟩ := hb (t / 16 % 64) (Nat.mod_lt _ (by decide))
  have e : t >>> 4 &&& 0x3F = t / 16 % 64 := by
    rw [Nat.shiftRight_eq_div_pow]
    exact Nat.and_two_pow_sub_one_eq_mod _ 6
  unfold byteEffect replayData
  rw [e, h1, h2, if_neg (by decide)]
  congr 1
  apply BitVec.eq_of_toNat_eq
  simp

theorem dataDivisor_latchDivisor (x : BitVec 10) (t : Nat) :
    dataDivisor (latchDivisor x (BitVec.ofNat 4 t)) (BitVec.ofNat 6 (t / 16)) = BitVec.ofNat 10 t := by
  unfold dataDivisor latchDivisor
  rw [divisor_low]
  apply BitVec.eq_of_toNat_eq
  refine (BitVec.toNat_append (BitVec.ofNat 6 (t / 16)) (BitVec.ofNat 4 t)).trans ?_
  rw [← Nat.shiftLeft_add_eq_or_of_lt (by simp; omega)]
  simp [Nat.shiftLeft_eq]
  omega

theorem replayTone_effect {r : BitVec 3} {c : ToneCh} (h : target r = .tone c) (hc : c ≠ .t2) (t : Nat) (s : State) :
    dataEffect (BitVec.ofNat 6 (t / 16)) (latchEffect r (BitVec.ofNat 4 t) s) = { s with
      latch := r, reg := s.reg.setTone c (BitVec.ofNat 10 t),
      cntStep := s.cntStep.set c.chan (s.stepFor (BitVec.ofNat 10 t)) } := by
  rw [latchEffect_tone h hc, dataEffect_tone (by exact h) hc]
  simp only [Regs.tone_setTone_same, dataDivisor_latchDivisor, Quad.set_set]
  cases c <;> rfl

theorem replayTone2_effect {r : BitVec 3} (h : target r = .tone .t2) (t : Nat) (s : State) :
    dataEffect (BitVec.ofNat 6 (t / 16)) (latchEffect r (BitVec.ofNat 4 t) s) = { s with
      latch := r, reg := { s.reg with tone2 := BitVec.ofNat 10 t },
      cntStep := { s.cntStep with
        q2 := s.stepFor (BitVec.ofNat 10 t),
        q3 := if rateSelect s.reg.noise = 3 then s.stepFor (BitVec.ofNat 10 t) >>> 1 else s.cntStep.q3 } } := by
  rw [latchEffect_tone2 h, dataEffect_tone2 (by exact h)]
  simp only [dataDivisor_latchDivisor]
  split <;> rfl

/-- The eleven writes leave the registers of the record and the derived elements that belong to them, whatever was there
before. -/
theorem restoreBytes_effect (r : SaveRecord) (u : State) :
    bytesEffect (restoreBytes r) u = { u with
      reg := ⟨BitVec.ofNat 10 r.toneReg.q0, BitVec.ofNat 10 r.toneReg.q1, BitVec.ofNat 10 r.toneReg.q2,
        BitVec.ofNat 4 r.toneReg.q3,
        ⟨BitVec.ofNat 4 r.volReg.q0, BitVec.ofNat 4 r.volReg.q1, BitVec.ofNat 4 r.volReg.q2, BitVec.ofNat 4 r.volReg.q3⟩⟩,
      latch := 7,
      volume := ⟨u.levelFor (BitVec.ofNat 4 r.volReg.q0), u.levelFor (BitVec.ofNat 4 r.volReg.q1),
        u.levelFor (BitVec.ofNat 4 r.volReg.q2), u.levelFor (BitVec.ofNat 4 r.volReg.q3)⟩,
      cntStep := ⟨u.stepFor (BitVec.ofNat 10 r.toneReg.q0), u.stepFor (BitVec.ofNat 10 r.toneReg.q1),
        u.stepFor (BitVec.ofNat 10 r.toneReg.q2),
        (u.setStep .c2 (u.stepFor (BitVec.ofNat 10 r.toneReg.q2))).noiseStepFor (BitVec.ofNat 4 r.toneReg.q3)⟩,
      lfsr := 0x8000,
      lfsrMask := maskFor (BitVec.ofNat 4 r.toneReg.q3) } := by
  simp only [bytesEffect, restoreBytes, List.foldl_cons, List.foldl_nil]
  rw [byteEffect_replayLatch (r := 7) (by decide), byteEffect_replayLatch (r := 6) (by decide),
    byteEffect_replayLatch (r := 5) (by decide), byteEffect_replayLatch (r := 4) (by decide),
    byteEffect_replayLatch (r := 3) (by decide), byteEffect_replayLatch (r := 2) (by decide),
    byteEffect_replayLatch (r := 1) (by decide), byteEffect_replayLatch (r := 0) (by decide)]
  simp only [byteEffect_replayData]
  rw [replayTone_effect (r := BitVec.ofNat 3 0) (c := .t0) rfl (by decide),
    latchEffect_vol (r := BitVec.ofNat 3 1) (c := .c0) rfl,
    replayTone_effect (r := BitVec.ofNat 3 2) (c := .t1) rfl (by decide),
    latchEffect_vol (r := BitVec.ofNat 3 3) (c := .c1) rfl,
    replayTone2_effect (r := BitVec.ofNat 3 4) rfl, latchEffect_vol (r := BitVec.ofNat 3 5) (c := .c2) rfl,
    latchEffect_noise (r := BitVec.ofNat 3 6) rfl, latchEffect_vol (r := BitVec.ofNat 3 7) (c := .c3) rfl]
  rfl

theorem restoreBytes_derived (r : SaveRecord) (u : State) : Derived (bytesEffect (restoreBytes r) u) := by
  rw [restoreBytes_effect]
  refine ⟨fun c => ?_, fun c => ?_, noiseStepFor_congr rfl rfl _, rfl⟩ <;> cases c <;> rfl

/-! ### The transactions that do not flush -/

/-- Everything they can do when they complete. -/
theorem not_flushing_next {i : Instr} (hf : flushArgsOf i = none) {s t : State} (h : exec i s = .next t) :
    (∃ c r, i = .config c r ∧ configAccepts c r ∧ t = configure c r s) ∨
    (¬ IsConfig i ∧ ¬ OnAccumulatorOnly i ∧ ∃ res, t = s.give res) ∨
    (∃ ix dL dR, i = .extAdd ix dL dR ∧ ix < s.config.segCap ∧ addBoth ix dL dR s = .next t) ∨
    (¬ IsConfig i ∧ OnAccumulatorOnly i ∧ ∃ len res, t = (clearCells len s).give res) := by
  cases i with
  | config c r =>
    simp only [exec, execConfig] at h
    split at h <;> cases h
    exact .inl ⟨c, r, rfl, ‹_›, rfl⟩
  | extAdd ix dL dR =>
    simp only [exec, execExtAdd] at h
    split at h
    · cases h
    · exact .inr (.inr (.inl ⟨ix, dL, dR, rfl, by omega, h⟩))
  | drainStereo len =>
    simp only [exec, execDrainStereo] at h
    split at h <;> cases h
    exact .inr (.inr (.inr ⟨by simp [IsConfig], .inr (.inl ⟨len, rfl⟩), _, _, rfl⟩))
  | drainMono len =>
    simp only [exec, execDrainMono] at h
    split at h
    · cases h
    · split at h <;> cases h
      exact .inr (.inr (.inr ⟨by simp [IsConfig], .inr (.inr ⟨len, rfl⟩), _, _, rfl⟩))
  | save =>
    simp only [exec, execSave] at h
    cases (whenConfigured_eq_next.mp h).2
    exact .inr (.inl ⟨by simp [IsConfig], by simp [OnAccumulatorOnly], _, rfl⟩)
  | dbgGetLatch =>
    simp only [exec, execDbgGetLatch] at h
    cases (whenConfigured_eq_next.mp h).2
    exact .inr (.inl ⟨by simp [IsConfig], by simp [OnAccumulatorOnly], _, rfl⟩)
  | dbgGetReg ix =>
    simp only [exec, execDbgGetReg] at h
    have h := (whenConfigured_eq_next.mp h).2
    split at h <;> cases h <;> exact .inr (.inl ⟨by simp [IsConfig], by simp [OnAccumulatorOnly], _, rfl⟩)
  | dbgSetReg ix v =>
    simp only [exec, execDbgSetReg] at h
    have h := (whenConfigured_eq_next.mp h).2
    split at h <;> cases h
    exact .inr (.inl ⟨by simp [IsConfig], by simp [OnAccumulatorOnly], _, rfl⟩)
  | _ => simp only [flushArgsOf, reduceCtorEq] at hf

end Sys2Proof.Machine
end

