-- ==== Sys2Proof/Laws/Follow.lean ====
section
/-! SUPPORT. Two states that agree on all a flush looks at run alike: said once for a relation, and then for the two relations
that the statements use, the host's side replaced and the unobserved bits of the phase accumulators replaced. -/

namespace Sys2Proof.Machine

/-- `R` relates states that a flush cannot tell apart, and is kept by each of its moves. -/
structure RunsAlike (R : State → State → Prop) : Prop where
  same : ∀ s s', R s s' → s'.config = s.config ∧ s'.volume = s.volume ∧ s'.cntStep = s.cntStep ∧ s'.lfsr = s.lfsr ∧
    s'.cur = s.cur ∧ s'.accL = s.accL ∧ s'.accR = s.accR
  bit : ∀ s s' c, R s s' → overflowBit (s'.counter.get c) = overflowBit (s.counter.get c)
  advance : ∀ s s' c, R s s' → R (advance c s) (advance c s')
  muted : ∀ s s' c n, R s s' → R (advanceMuted c n s) (advanceMuted c n s')
  clock : ∀ s s', R s s' → R (noiseClock s) (noiseClock s')
  acc : ∀ s s' l r, R s s' → R (s.withAcc l r) (s'.withAcc l r)
  move : ∀ s s' p, R s s' → R (moveCursor p s) (moveCursor p s')

/-- What completes from one state completes from every related one, in related states. -/
def Follows (R : State → State → Prop) (f : State → Out) : Prop :=
  ∀ s s' t, R s s' → f s = .next t → ∃ t', f s' = .next t' ∧ R t t'

variable {R : State → State → Prop}

theorem Follows.andThen {f g : State → Out} (hf : Follows R f) (hg : Follows R g) :
    Follows R (fun s => andThen (f s) g) := by
  intro s s' t h ht
  obtain ⟨u, hu, ht⟩ := andThen_eq_next.mp ht
  obtain ⟨u', hu', hr⟩ := hf s s' u h hu
  obtain ⟨t', ht', hr'⟩ := hg u u' t hr ht
  exact ⟨t', by simp only [hu', andThen_next, ht'], hr'⟩

theorem Follows.pure {e : State → State} (he : ∀ s s', R s s' → R (e s) (e s')) : Follows R (fun s => .next (e s)) :=
  fun s s' _ h ht => ⟨e s', rfl, by cases ht; exact he s s' h⟩

theorem Follows.ite {P : State → Prop} [DecidablePred P] {f g : State → Out} (hp : ∀ s s', R s s' → (P s ↔ P s'))
    (hf : Follows R f) (hg : Follows R g) : Follows R (fun s => if P s then f s else g s) := by
  intro s s' t h ht
  by_cases hs : P s
  · simp only [if_pos hs, if_pos ((hp s s' h).mp hs)] at ht ⊢
    exact hf s s' t h ht
  · simp only [if_neg hs, if_neg (mt (hp s s' h).mpr hs)] at ht ⊢
    exact hg s s' t h ht

theorem Follows.samples {f : Nat → State → Out} (hf : ∀ i, Follows R (f i)) (n i : Nat) : Follows R (forSamples f n i) := by
  induction n generalizing i with
  | zero => exact Follows.pure fun _ _ h => h
  | succ n ih => exact (hf i).andThen (ih (i + 1))

namespace RunsAlike

theorem cell (h : RunsAlike R) {s s' : State} (hr : R s s') (side : Side) (i : Nat) : s'.cell side i = s.cell side i := by
  obtain ⟨_, _, _, _, _, hl, hrr⟩ := h.same s s' hr
  cases side <;> simp only [State.cell, hl, hrr]

theorem accAdd_volume (h : RunsAlike R) (i : Nat) (c : Chan) : Follows R (fun s => accAdd i (s.volume.get c) s) := by
  intro s s' t hr ht
  obtain ⟨_, hv, _, _, _, hl, hrr⟩ := h.same s s' hr
  simp only [accAdd, addBoth_eq_next] at ht ⊢
  obtain ⟨h1, h2, rfl⟩ := ht
  rw [hv, h.cell hr, h.cell hr, hl, hrr]
  exact ⟨_, ⟨h1, h2, rfl⟩, h.acc s s' _ _ hr⟩

theorem tone (h : RunsAlike R) (c : ToneCh) (n i : Nat) : Follows R (updateTone c n i) := by
  refine Follows.ite (fun s s' hr => by rw [(h.same s s' hr).2.1]) (Follows.pure fun s s' hr => h.muted s s' _ n hr) ?_
  refine Follows.ite (fun s s' hr => by rw [(h.same s s' hr).2.2.1]) (Follows.samples (fun i => ?_) n i)
    (Follows.samples (fun i => h.accAdd_volume i c.chan) n i)
  exact (Follows.pure (e := Machine.advance c.chan) fun s s' hr => h.advance s s' _ hr).andThen
    (g := fun u => if u.toneLevel c = true then accAdd i (u.volume.get c.chan) u else .next u)
    (Follows.ite (fun s s' hr => by simp only [State.toneLevel, h.bit s s' _ hr]) (h.accAdd_volume i c.chan)
      (Follows.pure fun _ _ hr => hr))

theorem noise (h : RunsAlike R) (n i : Nat) : Follows R (updateNoise n i) := by
  refine Follows.ite (fun s s' hr => by rw [(h.same s s' hr).2.1]) (Follows.pure fun s s' hr => h.muted s s' _ n hr)
    (Follows.samples (fun i => ?_) n i)
  exact ((Follows.pure (e := Machine.advance .c3) fun s s' hr => h.advance s s' _ hr).andThen
    (g := fun u => if u.noiseBit = true then accAdd i (u.volume.get .c3) u else .next u)
    (Follows.ite (fun s s' hr => by simp only [State.noiseBit, (h.same s s' hr).2.2.2.1]) (h.accAdd_volume i .c3)
      (Follows.pure fun _ _ hr => hr))).andThen (Follows.pure h.clock)

theorem channels (h : RunsAlike R) (n i : Nat) : Follows R (updateChannels n i) :=
  (h.tone .t2 n i).andThen ((h.tone .t1 n i).andThen ((h.tone .t0 n i).andThen (h.noise n i)))

theorem flush (h : RunsAlike R) (fl : FlushArgs) : Follows R (flush fl) := by
  refine Follows.andThen (f := update fl.n) (fun s s' t hr ht => ?_) (Follows.pure fun s s' hr => h.move s s' fl.p hr)
  obtain ⟨hk, _, _, _, hc, _, _⟩ := h.same s s' hr
  unfold update at ht ⊢
  rw [hc, hk]
  split at ht
  · cases ht
    exact ⟨s', by rw [if_pos ‹_›], hr⟩
  · rw [if_neg ‹_›]
    split at ht
    · cases ht
    · split at ht
      · cases ht
      · rw [if_neg ‹_›]
        exact h.channels _ _ s s' t hr ht

end RunsAlike

/-! ### The host's side -/

/-- `s'` is `s` with these presented transactions and results. -/
def HostReplaced (p : List Request) (r : List Result) (s s' : State) : Prop := s' = { s with pending := p, returned := r }

theorem hostReplaced_runsAlike (p : List Request) (r : List Result) : RunsAlike (HostReplaced p r) where
  same := by rintro s _ rfl; exact ⟨rfl, rfl, rfl, rfl, rfl, rfl, rfl⟩
  bit := by rintro s _ c rfl; rfl
  advance := by rintro s _ c rfl; rfl
  muted := by rintro s _ c n rfl; rfl
  clock := by
    rintro s _ rfl
    simp only [HostReplaced, noiseClock]
    split <;> rfl
  acc := by rintro s _ l m rfl; rfl
  move := by rintro s _ p rfl; cases p <;> rfl

/-- A flush that completes does so whatever the host has presented and been handed. -/
theorem flush_host {fl : FlushArgs} {s t : State} (h : flush fl s = .next t) (p : List Request) (r : List Result) :
    flush fl { s with pending := p, returned := r } = .next { t with pending := p, returned := r } := by
  obtain ⟨t', ht', hr⟩ := (hostReplaced_runsAlike p r).flush fl s _ t rfl h
  rw [ht', hr]

/-- And so does a flushing transaction. -/
theorem flushing_host {i : Instr} {fl : FlushArgs} (hf : flushArgsOf i = some fl) {s t : State} (h : exec i s = .next t)
    (p : List Request) (r : List Result) :
    exec i { s with pending := p, returned := r } = .next { t with pending := p, returned := r } := by
  obtain ⟨hc, u, hu, _, _, rfl⟩ := flushing_eq_next hf h
  rw [exec_flushing hf, whenConfigured_true (by exact hc), flush_host hu, andThen_next, (effectOf_regEffect i).host]

/-! ### Bits 31:17 of the phase accumulators -/

theorem lowBits_add {a b c d : U32} (h1 : a.extractLsb' 0 17 = b.extractLsb' 0 17)
    (h2 : c.extractLsb' 0 17 = d.extractLsb' 0 17) : (a + c).extractLsb' 0 17 = (b + d).extractLsb' 0 17 := by
  apply BitVec.eq_of_toNat_eq
  have h1 := congrArg BitVec.toNat h1
  have h2 := congrArg BitVec.toNat h2
  simp only [BitVec.extractLsb'_toNat, BitVec.toNat_add, Nat.shiftRight_zero] at *
  omega

theorem lowBits_overflow {a b : U32} (h : a.extractLsb' 0 17 = b.extractLsb' 0 17) : overflowBit a = overflowBit b := by
  have := congrArg (fun x => x.getLsbD 16) h
  simpa [overflowBit] using this

theorem lowBits_cut {a b : U32} (h : a.extractLsb' 0 17 = b.extractLsb' 0 17) :
    (a &&& 0xFFFF#32).extractLsb' 0 17 = (b &&& 0xFFFF#32).extractLsb' 0 17 := by
  have e : ∀ x : U32, (x &&& 0xFFFF#32).extractLsb' 0 17 = x.extractLsb' 0 17 &&& 0xFFFF#17 := by
    intro x
    ext k hk
    interval_cases k <;> simp
  rw [e, e, h]

theorem samePhaseBits_iff {s s' : State} : SamePhaseBits s s' ↔ ∃ v : Quad U32,
    s' = { s with counter := v } ∧ ∀ c, (s.counter.get c).extractLsb' 0 17 = (v.get c).extractLsb' 0 17 := by
  constructor
  · rintro ⟨h1, h2⟩
    exact ⟨s'.counter, h2, h1⟩
  · rintro ⟨v, rfl, h⟩
    exact ⟨h, rfl⟩

theorem samePhaseBits_setCounter {s s' : State} (h : SamePhaseBits s s') (c : Chan) {a b : U32}
    (hab : a.extractLsb' 0 17 = b.extractLsb' 0 17) : SamePhaseBits (s.setCounter c a) (s'.setCounter c b) := by
  obtain ⟨v, rfl, hv⟩ := samePhaseBits_iff.mp h
  refine samePhaseBits_iff.mpr ⟨v.set c b, rfl, fun d => ?_⟩
  by_cases hd : d = c
  · subst hd
    simpa only [State.setCounter, Quad.get_set_same] using hab
  · simpa only [State.setCounter, Quad.get_set_ne _ _ hd] using hv d

theorem samePhaseBits_runsAlike : RunsAlike SamePhaseBits where
  same s s' h := by obtain ⟨v, rfl, _⟩ := samePhaseBits_iff.mp h; exact ⟨rfl, rfl, rfl, rfl, rfl, rfl, rfl⟩
  bit s s' c h := (lowBits_overflow (h.1 c)).symm
  advance s s' c h := by
    have hs : s'.cntStep = s.cntStep := by rw [h.2]
    exact samePhaseBits_setCounter h c (lowBits_add (h.1 c) (by rw [hs]))
  muted s s' c n h := by
    have hs : s'.cntStep = s.cntStep := by rw [h.2]
    exact samePhaseBits_setCounter h c (lowBits_add (h.1 c) (by rw [hs]))
  clock s s' h := by
    have hl : s'.lfsr = s.lfsr ∧ s'.lfsrMask = s.lfsrMask := by rw [h.2]; exact ⟨rfl, rfl⟩
    unfold noiseClock
    rw [← lowBits_overflow (h.1 .c3), hl.1, hl.2]
    split
    · obtain ⟨v, e, hv⟩ := samePhaseBits_iff.mp (samePhaseBits_setCounter h .c3 (lowBits_cut (h.1 .c3)))
      exact samePhaseBits_iff.mpr ⟨v, by rw [e]; rfl, hv⟩
    · exact h
  acc s s' l r h := by
    obtain ⟨v, rfl, hv⟩ := samePhaseBits_iff.mp h
    exact samePhaseBits_iff.mpr ⟨v, rfl, hv⟩
  move s s' p h := by
    obtain ⟨v, rfl, hv⟩ := samePhaseBits_iff.mp h
    cases p <;> exact samePhaseBits_iff.mpr ⟨v, rfl, hv⟩

end Sys2Proof.Machine
end

