-- ==== Sys2Proof/Laws/PerInstr.lean ====
section
/-! SUPPORT. The family of statements about every instruction as syntax: the word that the encoder writes lies in the row of
spec/opcode_table.json that the instruction belongs to. -/

namespace Sys2Proof.Laws

/-- The encoded word agrees with the row's `match` under the row's `mask`. -/
def EncodedWordMatchesRow.Statement (i : Instr) : Prop := (encode i).word &&& tableMask i = tableMatch i

theorem EncodedWordMatchesRow.latchTone0 (d4 : BitVec 4) (fl : FlushArgs) :
    EncodedWordMatchesRow.Statement (.latchTone0 d4 fl) :=
  (by decide : ∀ d : BitVec 4, txWord 0 (latchByte 0 d) &&& 0xFF0 = 0x80) d4

theorem EncodedWordMatchesRow.latchVol0 (d4 : BitVec 4) (fl : FlushArgs) :
    EncodedWordMatchesRow.Statement (.latchVol0 d4 fl) :=
  (by decide : ∀ d : BitVec 4, txWord 0 (latchByte 1 d) &&& 0xFF0 = 0x90) d4

theorem EncodedWordMatchesRow.latchTone1 (d4 : BitVec 4) (fl : FlushArgs) :
    EncodedWordMatchesRow.Statement (.latchTone1 d4 fl) :=
  (by decide : ∀ d : BitVec 4, txWord 0 (latchByte 2 d) &&& 0xFF0 = 0xa0) d4

theorem EncodedWordMatchesRow.latchVol1 (d4 : BitVec 4) (fl : FlushArgs) :
    EncodedWordMatchesRow.Statement (.latchVol1 d4 fl) :=
  (by decide : ∀ d : BitVec 4, txWord 0 (latchByte 3 d) &&& 0xFF0 = 0xb0) d4

theorem EncodedWordMatchesRow.latchTone2 (d4 : BitVec 4) (fl : FlushArgs) :
    EncodedWordMatchesRow.Statement (.latchTone2 d4 fl) :=
  (by decide : ∀ d : BitVec 4, txWord 0 (latchByte 4 d) &&& 0xFF0 = 0xc0) d4

theorem EncodedWordMatchesRow.latchVol2 (d4 : BitVec 4) (fl : FlushArgs) :
    EncodedWordMatchesRow.Statement (.latchVol2 d4 fl) :=
  (by decide : ∀ d : BitVec 4, txWord 0 (latchByte 5 d) &&& 0xFF0 = 0xd0) d4

theorem EncodedWordMatchesRow.latchNoise (d4 : BitVec 4) (fl : FlushArgs) :
    EncodedWordMatchesRow.Statement (.latchNoise d4 fl) :=
  (by decide : ∀ d : BitVec 4, txWord 0 (latchByte 6 d) &&& 0xFF0 = 0xe0) d4

theorem EncodedWordMatchesRow.latchVol3 (d4 : BitVec 4) (fl : FlushArgs) :
    EncodedWordMatchesRow.Statement (.latchVol3 d4 fl) :=
  (by decide : ∀ d : BitVec 4, txWord 0 (latchByte 7 d) &&& 0xFF0 = 0xf0) d4

theorem EncodedWordMatchesRow.data (b6 : BitVec 1) (d6 : BitVec 6) (fl : FlushArgs) :
    EncodedWordMatchesRow.Statement (.data b6 d6 fl) :=
  (by decide : ∀ (b : BitVec 1) (d : BitVec 6), txWord 0 (dataByte b d) &&& 0xF80 = 0) b6 d6

theorem EncodedWordMatchesRow.flush (fl : FlushArgs) : EncodedWordMatchesRow.Statement (.flush fl) :=
  (by decide : txWord 1 0 &&& 0xF00 = 0x100)

theorem EncodedWordMatchesRow.extAdd (i : Nat) (dL dR : Int) : EncodedWordMatchesRow.Statement (.extAdd i dL dR) :=
  (by decide : txWord 2 0 &&& 0xF00 = 0x200)

theorem EncodedWordMatchesRow.drainStereo (len : Nat) : EncodedWordMatchesRow.Statement (.drainStereo len) :=
  (by decide : txWord 3 0 &&& 0xF00 = 0x300)

theorem EncodedWordMatchesRow.drainMono (len : Nat) : EncodedWordMatchesRow.Statement (.drainMono len) :=
  (by decide : txWord 4 0 &&& 0xF00 = 0x400)

theorem EncodedWordMatchesRow.config (c r : Int) : EncodedWordMatchesRow.Statement (.config c r) :=
  (by decide : txWord 5 0 &&& 0xF00 = 0x500)

theorem EncodedWordMatchesRow.save : EncodedWordMatchesRow.Statement (.save) :=
  (by decide : txWord 6 0 &&& 0xF00 = 0x600)

theorem EncodedWordMatchesRow.restore (r : SaveRecord) (fl : FlushArgs) :
    EncodedWordMatchesRow.Statement (.restore r fl) :=
  (by decide : txWord 7 0 &&& 0xF00 = 0x700)

theorem EncodedWordMatchesRow.dbgGetReg (i : Int) : EncodedWordMatchesRow.Statement (.dbgGetReg i) :=
  (by decide : txWord 8 0 &&& 0xF00 = 0x800)

theorem EncodedWordMatchesRow.dbgSetReg (i v : Int) : EncodedWordMatchesRow.Statement (.dbgSetReg i v) :=
  (by decide : txWord 9 0 &&& 0xF00 = 0x900)

theorem EncodedWordMatchesRow.dbgGetLatch : EncodedWordMatchesRow.Statement (.dbgGetLatch) :=
  (by decide : txWord 10 0 &&& 0xF00 = 0xa00)

end Sys2Proof.Laws
end

