-- ==== Sys2Proof/Laws/Tables.lean ====
section
/-! SUPPORT. The entries of the three tables, and that the digit search of `volumeLevel` finds the floor of R100. -/

namespace Sys2Proof.Machine

theorem stepTableOf_of_none {k : Config} (hk : k.stepTable = none) (clk rate : Nat) :
    stepTableOf k clk rate = stepTableByFormula k clk rate := by
  simp only [stepTableOf, hk]

theorem stepTableOf_of_some {k : Config} {t : Vector U32 1024} (hk : k.stepTable = some t) (clk rate : Nat) :
    stepTableOf k clk rate = t := by
  simp only [stepTableOf, hk]

theorem volumeTableOf_of_none {k : Config} (hk : k.volumeTable = none) : volumeTableOf k = volumeTableByFormula k := by
  simp only [volumeTableOf, hk]

theorem volumeTableOf_of_some {k : Config} {t : Vector U32 16} (hk : k.volumeTable = some t) : volumeTableOf k = t := by
  simp only [volumeTableOf, hk]

@[simp] theorem stepTableByFormula_getElem (k : Config) (clk rate n : Nat) (h : n < 1024) :
    (stepTableByFormula k clk rate)[n] = stepTableEntry k clk rate n := by
  simp [stepTableByFormula]

@[simp] theorem volumeTableByFormula_getElem (k : Config) (n : Nat) (h : n < 16) :
    (volumeTableByFormula k)[n] = volumeTableEntry k n := by
  simp [volumeTableByFormula]

/-- Entry 15 is silence (R100). -/
@[simp] theorem volumeTableEntry_15 (k : Config) : volumeTableEntry k 15 = 0 := rfl

@[simp] theorem noiseStepTableOf_q3 (k : Config) (clk rate : Nat) (e : U32) :
    (noiseStepTableOf k clk rate e).q3 = e := by
  simp only [noiseStepTableOf]
  split <;> rfl

/-- Only entry 3 depends on the drawn value. -/
theorem noiseStepTableOf_redraw (k : Config) (clk rate : Nat) (e e' : U32) :
    noiseStepTableOf k clk rate e' = { noiseStepTableOf k clk rate e with q3 := e' } := by
  simp only [noiseStepTableOf]
  split <;> rfl

theorem levelFits_mono {maxOutput k v w : Nat} (h : levelFits maxOutput k w) (hvw : v ≤ w) :
    levelFits maxOutput k v :=
  Nat.le_trans (Nat.mul_le_mul_right _ (Nat.pow_le_pow_left (by omega) 10)) h

/-- What fits is at most a third of full scale. -/
theorem levelFits_le {maxOutput k v : Nat} (h : levelFits maxOutput k v) : 3 * v ≤ maxOutput := by
  by_contra hlt
  have h1 : maxOutput ^ 10 < (3 * v) ^ 10 := Nat.pow_lt_pow_left (by omega) (by decide)
  have h2 : (3 * v) ^ 10 ≤ (3 * v) ^ 10 * 10 ^ k := Nat.le_mul_of_pos_right _ (Nat.pos_of_ne_zero (by positivity))
  exact absurd h (by simp only [levelFits]; omega)

/-- The search: from a `v` that fits, with everything from `v + 2^bits` on not fitting, it finds the greatest that
fits. -/
theorem levelSearch_spec (maxOutput k : Nat) (bits v : Nat) (h : levelFits maxOutput k v)
    (hi : ¬ levelFits maxOutput k (v + 2 ^ bits)) :
    levelFits maxOutput k (levelSearch maxOutput k bits v) ∧
      ¬ levelFits maxOutput k (levelSearch maxOutput k bits v + 1) := by
  induction bits generalizing v with
  | zero => exact ⟨h, by simpa [levelSearch] using hi⟩
  | succ j ih =>
    simp only [levelSearch]
    split
    · rename_i hf
      refine ih _ hf ?_
      rw [show v + 2 ^ j + 2 ^ j = v + 2 ^ (j + 1) by rw [Nat.pow_succ]; omega]
      exact hi
    · rename_i hf
      exact ih _ h hf

/-- `volumeLevel` is the floor of R100: the greatest number at most `(MAX_OUTPUT / 3) / 10^(k/10)`. -/
theorem volumeLevel_spec (maxOutput k : Nat) (h : maxOutput < 2 ^ 32) :
    levelFits maxOutput k (volumeLevel maxOutput k) ∧ ¬ levelFits maxOutput k (volumeLevel maxOutput k + 1) := by
  refine levelSearch_spec _ _ _ _ (by simp [levelFits]) (fun hf => ?_)
  have := levelFits_le hf
  omega

theorem volumeLevel_le (maxOutput k : Nat) (h : maxOutput < 2 ^ 32) : 3 * volumeLevel maxOutput k ≤ maxOutput :=
  levelFits_le (volumeLevel_spec maxOutput k h).1

/-- A larger attenuation never gives a larger level. -/
theorem volumeLevel_anti (maxOutput : Nat) (h : maxOutput < 2 ^ 32) {i j : Nat} (hij : i ≤ j) :
    volumeLevel maxOutput j ≤ volumeLevel maxOutput i := by
  by_contra hlt
  refine (volumeLevel_spec maxOutput i h).2 (levelFits_mono (w := volumeLevel maxOutput j) ?_ (by omega))
  exact Nat.le_trans (Nat.mul_le_mul_left _ (Nat.pow_le_pow_right (by decide) hij)) (volumeLevel_spec maxOutput j h).1

/-- An entry below 15 as a number. -/
theorem volumeTableEntry_toNat (k : Config) {a : Nat} (ha : a ≠ 15) :
    (volumeTableEntry k a).toNat = volumeLevel k.maxOutput.toNat a := by
  have := volumeLevel_le k.maxOutput.toNat a k.maxOutput.isLt
  have hlt := k.maxOutput.isLt
  rw [volumeTableEntry, if_neg ha, BitVec.toNat_ofNat, Nat.mod_eq_of_lt (by omega)]

/-- The table of R100 has the property of R102, whatever MAX_OUTPUT is. -/
theorem volumeTableByFormula_admitted (k : Config) : VolumeTableAdmitted k.maxOutput (volumeTableByFormula k) := by
  have hM := k.maxOutput.isLt
  refine ⟨fun i j hij => ?_, by simp, fun i => ?_⟩ <;>
    simp only [Fin.getElem_fin, volumeTableByFormula_getElem]
  · have hij : (i : Nat) ≤ j := hij
    by_cases h15 : (j : Nat) = 15
    · rw [h15]
      simp
    · rw [volumeTableEntry_toNat _ h15, volumeTableEntry_toNat _ (by omega)]
      exact volumeLevel_anti _ hM hij
  · by_cases h15 : (i : Nat) = 15
    · rw [h15]
      simp
    · rw [volumeTableEntry_toNat _ h15]
      exact volumeLevel_le _ _ hM

/-- The table that `CONFIG` stores has the property of R102 under admitted parameters. -/
theorem volumeTableOf_admitted {k : Config} (hk : k.Valid) : VolumeTableAdmitted k.maxOutput (volumeTableOf k) := by
  cases h : k.volumeTable with
  | none =>
    rw [volumeTableOf_of_none h]
    exact volumeTableByFormula_admitted k
  | some t =>
    rw [volumeTableOf_of_some h]
    exact hk.2.2 t h

theorem Config_default_valid : Config.default.Valid := ⟨by decide, by decide, fun _ h => nomatch h⟩

/-- For operands that `CONFIG` accepts, every step entry fits 32 bits (R112, R176). -/
theorem stepEntry_lt {clk rate : Int} (h : configAccepts clk rate) {n : Nat} (hn : 1 ≤ n) :
    stepEntry clk.toNat rate.toNat n < 2 ^ 32 := by
  obtain ⟨h1, h2, h3⟩ := h
  have hr : 0 < rate.toNat := by omega
  have hd : 0 < 16 * n * rate.toNat := Nat.mul_pos (by omega) hr
  rw [stepEntry, Nat.div_lt_iff_lt_mul hd]
  have hc : clk.toNat < 1048576 * rate.toNat := by omega
  have : rate.toNat ≤ n * rate.toNat := Nat.le_mul_of_pos_left _ hn
  rw [Nat.mul_assoc 16]
  omega

/-- And so does every noise step entry (R125, R176). -/
theorem noiseStepEntry_lt {clk rate : Int} (h : configAccepts clk rate) (k : Nat) :
    noiseStepEntry clk.toNat rate.toNat k < 2 ^ 32 := by
  obtain ⟨h1, h2, h3⟩ := h
  have hr : 0 < rate.toNat := by omega
  have hp : 0 < 2 ^ (9 + k) := Nat.pos_of_ne_zero (by positivity)
  rw [noiseStepEntry, Nat.div_lt_iff_lt_mul (Nat.mul_pos hp hr)]
  have hc : clk.toNat < 1048576 * rate.toNat := by omega
  have h512 : 2 ^ 9 ≤ 2 ^ (9 + k) := Nat.pow_le_pow_right (by decide) (by omega)
  have : 2 ^ 9 * rate.toNat ≤ 2 ^ (9 + k) * rate.toNat := Nat.mul_le_mul_right _ h512
  omega

end Sys2Proof.Machine
end

