-- ==== Sys2Proof/Tests/Slice0.lean ====
section
/-! SUPPORT. The model's own tests: single steps with results taken from 95_test_vectors.md or worked by hand from the rules,
the decoding of words written out from 30_encoding.md, and for every statement with hypotheses a state and operands that meet
them. -/

namespace Sys2Proof.Tests

open Sys2Proof Sys2Proof.Machine

/-! ### Helpers -/

/-- The outcome is a next state with property `p`. -/
def nextWith (o : Out) (p : State → Bool) : Bool :=
  match o with
  | .next t => p t
  | .fault _ => false
  | .refused _ => false

/-- The outcome is this fault. -/
def faultIs (o : Out) (f : Fault) : Bool :=
  match o with
  | .next _ => false
  | .fault g => g = f
  | .refused _ => false

/-- The outcome is AccOverflow at this cell and side, the state at the fault having property `p`. -/
def overflowAt (o : Out) (cell : Nat) (side : Side) (p : State → Bool) : Bool :=
  match o with
  | .fault (.accOverflow c d u) => c = cell ∧ d = side ∧ p u
  | _ => false

/-- The outcome is a fault. -/
def isFault (o : Out) : Bool :=
  match o with
  | .next _ => false
  | .fault _ => true
  | .refused _ => false

theorem completes {o : Out} (h : nextWith o (fun _ => true) = true) : ∃ t, o = .next t := by
  cases o with
  | next t => exact ⟨t, rfl⟩
  | fault f => cases h
  | refused r => cases h

theorem faults {o : Out} (h : isFault o = true) : ∃ f, o = .fault f := by
  cases o with
  | next t => cases h
  | fault f => exact ⟨f, rfl⟩
  | refused r => cases h

/-- The bracket left off. -/
def off : FlushArgs := FlushArgs.leftOff

/-- Configuration A of the vectors after `FLUSH 0, 0`. -/
def atZero : State := { State.reset with cur := some 0 }

/-- The same with the cursor at 14 and `latch` chosen. -/
def latched (r : BitVec 3) : State := { State.reset with cur := some 14, latch := r }

/-- Two samples from the end of the arrays, tone 0 toggling, tone 1 above the threshold, tone 2 muted, white noise about to
emit a 1, and one cell on each side that the flush fills to the limit of `i32`. -/
def brim : State :=
  { State.reset with
    cur := some 14
    cntStep := ⟨0x8000, 0x10000, 0, 0x8000⟩
    volume := ⟨100, 10, 0, 1000⟩
    lfsr := 1
    lfsrMask := 9
    accL := [(14, 2147482637)]
    accR := [(15, 2147482537)] }

/-- The flush of both samples. -/
def lastTwo : FlushArgs := ⟨2, some 16⟩

/-! ### Well-formedness -/

theorem test_wellFormed_limits : WellFormed (.extAdd 0 (-2147483648) 2147483647) := by decide
theorem test_illFormed_left : ¬ WellFormed (.extAdd 0 2147483648 0) := by decide
theorem test_illFormed_right : ¬ WellFormed (.extAdd 0 0 (-2147483649)) := by decide
theorem test_decode_refuses_amount :
    decode ⟨0b0000001000000000, [0, 2147483648, 0]⟩ = .error (.amountOutOfRange 2147483648) := by decide

/-! ### Decoding, the words written out bit by bit (30_encoding.md; vectors 2.1) -/

theorem test_decode_latchTone0 : decodeTableWord 16 0b000010001110 = some (.latchTone0 0xE off) := by decide
theorem test_decode_latchVol0 : decodeTableWord 16 0b000010011111 = some (.latchVol0 0xF off) := by decide
theorem test_decode_latchTone1 : decodeTableWord 16 0b000010100100 = some (.latchTone1 0x4 off) := by decide
theorem test_decode_latchVol1 : decodeTableWord 16 0b000010110010 = some (.latchVol1 0x2 off) := by decide
theorem test_decode_latchTone2 : decodeTableWord 16 0b000011000010 = some (.latchTone2 0x2 off) := by decide
theorem test_decode_latchVol2 : decodeTableWord 16 0b000011011111 = some (.latchVol2 0xF off) := by decide
theorem test_decode_latchNoise : decodeTableWord 16 0b000011100101 = some (.latchNoise 0x5 off) := by decide
theorem test_decode_latchVol3 : decodeTableWord 16 0b000011110100 = some (.latchVol3 0x4 off) := by decide
theorem test_decode_data : decodeTableWord 16 0b000001001111 = some (.data 1 0x0F off) := by decide
theorem test_decode_flush : decode ⟨0b000100000000, [3, 17]⟩ = .ok (.flush ⟨3, some 17⟩) := by decide
theorem test_decode_extAdd : decode ⟨0b001000000000, [0, -40000, 7]⟩ = .ok (.extAdd 0 (-40000) 7) := by decide
theorem test_decode_drainStereo : decode ⟨0b001100000000, [16]⟩ = .ok (.drainStereo 16) := by decide
theorem test_decode_drainMono : decode ⟨0b010000000000, [16]⟩ = .ok (.drainMono 16) := by decide
theorem test_decode_config : decode ⟨0b010100000000, [3579545, 44100]⟩ = .ok (.config 3579545 44100) := by decide
theorem test_decode_save : decodeTableWord 16 0b011000000000 = some .save := by decide
theorem test_decode_restore : decode ⟨0b011100000000, [0xFE, 0, 0, 5, 15, 15, 15, 15, 1, 2, 3, 4, 0x8000, 9, 0, 10]⟩ =
    .ok (.restore ⟨⟨0xFE, 0, 0, 5⟩, ⟨15, 15, 15, 15⟩, ⟨1, 2, 3, 4⟩, 0x8000, 9⟩ ⟨0, some 10⟩) := by decide
theorem test_decode_dbgGetReg : decode ⟨0b100000000000, [-1]⟩ = .ok (.dbgGetReg (-1)) := by decide
theorem test_decode_dbgSetReg : decode ⟨0b100100000000, [9, 5]⟩ = .ok (.dbgSetReg 9 5) := by decide
theorem test_decode_dbgGetLatch : decodeTableWord 16 0b101000000000 = some .dbgGetLatch := by decide
theorem test_decode_refuses_selector : decode ⟨0b101100000000, []⟩ = .error (.unassignedSelector 11) := by decide
theorem test_decode_refuses_wide_word : decode ⟨0b0001000000000000, []⟩ = .error (.wordTooWide 0x1000) := by decide

/-! ### One step each -/

/-- V-WR-1, through the fetch. -/
theorem test_step_latchTone0 : nextWith (step (State.reset.withFetchWord 16 0x08E))
    (fun t => t.latch = 0 ∧ t.reg.tone0 = 0x00E ∧ t.cntStep.q0 = 0x1249 ∧ t.pending = []) = true := by decide

/-- Bits 9:4 kept; the step of divisor 19 is that of V-WR-3. -/
theorem test_latchTone0_keeps_high : nextWith
    (exec (.latchTone0 0x3 off) { atZero with reg := { Regs.silent with tone0 := 0x01E } })
    (fun t => t.reg.tone0 = 0x013 ∧ t.cntStep.q0 = 0xD79) = true := by decide

/-- 0xA4, configuration A: divisor 4. -/
theorem test_latchTone1 : nextWith (exec (.latchTone1 0x4 off) atZero)
    (fun t => t.latch = 2 ∧ t.reg.tone1 = 4 ∧ t.cntStep = ⟨0x10000, 0x4000, 0x10000, 0x800⟩) = true := by decide

/-- V-WR-5: rate select 3, the noise step follows. -/
theorem test_latchTone2_drives_noise : nextWith
    (exec (.latchTone2 0x4 off) { atZero with reg := { Regs.silent with noise := 7 }, lfsr := 0x0100 })
    (fun t => t.latch = 4 ∧ t.reg.tone2 = 4 ∧ t.cntStep.q2 = 0x4000 ∧ t.cntStep.q3 = 0x2000 ∧ t.lfsr = 0x0100) = true := by
  decide

/-- V-WR-5, the last byte: another rate select, the noise step stays. -/
theorem test_latchTone2_leaves_noise : nextWith
    (exec (.latchTone2 0x2 off) { atZero with reg := { Regs.silent with noise := 4, tone2 := 0x014 } })
    (fun t => t.reg.tone2 = 0x012 ∧ t.cntStep.q2 = 0xE38 ∧ t.cntStep.q3 = 0x800) = true := by decide

/-- V-WR-9: the flush comes first, at the old volume. -/
theorem test_latchVol0_flushes_first : nextWith
    (exec (.latchVol0 0xF ⟨4, some 4⟩) { atZero with
      reg := { Regs.silent with tone0 := 2, vol := ⟨0, 15, 15, 15⟩ }
      cntStep := ⟨0x8000, 0x10000, 0x10000, 0x800⟩
      volume := ⟨6826, 0, 0, 0⟩ })
    (fun t => t.accL = [(1, 6826), (2, 6826)] ∧ t.accR = t.accL ∧ t.volume.q0 = 0 ∧ t.cur = some 4) = true := by decide

/-- V-WR-4, first byte. -/
theorem test_latchVol1 : nextWith (exec (.latchVol1 2 off) atZero)
    (fun t => t.latch = 3 ∧ t.reg.vol = ⟨15, 2, 15, 15⟩ ∧ t.volume = ⟨0, 4307, 0, 0⟩) = true := by decide

/-- 0xDF of P6, from an audible channel. -/
theorem test_latchVol2 : nextWith (exec (.latchVol2 0xF off) { atZero with volume := ⟨0, 0, 6826, 0⟩ })
    (fun t => t.latch = 5 ∧ t.reg.vol.q2 = 15 ∧ t.volume.q2 = 0) = true := by decide

/-- 0xF4 of program 4. -/
theorem test_latchVol3 : nextWith (exec (.latchVol3 4 off) atZero)
    (fun t => t.latch = 7 ∧ t.reg.vol.q3 = 4 ∧ t.volume.q3 = 2717) = true := by decide

/-- V-WR-5 and V-NOI-6: 0xE7. -/
theorem test_latchNoise_driven : nextWith (exec (.latchNoise 7 off) { atZero with lfsr := 0x0100 })
    (fun t => t.latch = 6 ∧ t.reg.noise = 7 ∧ t.lfsr = 0x8000 ∧ t.lfsrMask = 0x0009 ∧ t.cntStep.q3 = 0x8000) = true := by
  decide

/-- V-WR-6: 0xE2. -/
theorem test_latchNoise_periodic : nextWith (exec (.latchNoise 2 off) { atZero with lfsrMask := 9 })
    (fun t => t.lfsrMask = 0x0001 ∧ t.cntStep.q3 = 0x200) = true := by decide

/-- P6: DATA on the latched volume register. -/
theorem test_data_volume : nextWith (exec (.data 0 0 off) (latched 5))
    (fun t => t.latch = 5 ∧ t.reg.vol.q2 = 0 ∧ t.volume.q2 = 6826) = true := by decide

/-- V-WR-7: 0x33 on the noise register. -/
theorem test_data_noise : nextWith (exec (.data 0 0x33 off) { latched 6 with lfsr := 0x0100, lfsrMask := 9 })
    (fun t => t.latch = 6 ∧ t.reg.noise = 3 ∧ t.lfsr = 0x8000 ∧ t.lfsrMask = 0x0001 ∧ t.cntStep.q3 = 0x8000) = true := by
  decide

/-- Two samples worked by hand by R114, R115, R116 and R129. -/
theorem test_flush_two_samples : nextWith (exec (.flush lastTwo) brim) (fun t =>
    t.accL = [(14, 2147483647), (15, 1110)] ∧ t.accR = [(14, 1010), (15, 2147483647)] ∧
    t.counter = ⟨0x10000, 0, 0, 0⟩ ∧ t.lfsr = 0x8000 ∧ t.cur = some 16) = true := by decide

/-- V-NOI-7, the first two ticks: a noise step above 0x10000 overflows one sample in two. -/
theorem test_flush_fast_noise : nextWith
    (exec (.flush ⟨2, some 2⟩) { atZero with
      cntStep := ⟨0x10000, 0x10000, 0x512B3, 0x28959⟩, volume := ⟨0, 0, 0, 6826⟩, lfsrMask := 9 })
    (fun t => t.counter.q3 = 0x12B2 ∧ t.lfsr = 0x4000) = true := by decide

/-- V-ACC-2. -/
theorem test_extAdd : nextWith (exec (.extAdd 0 (-40000) 7) State.powerOn)
    (fun t => (t.cell .left 0).toInt = -40000 ∧ (t.cell .right 0).toInt = 7) = true := by decide

/-- V-ACC-2: the cell is left. -/
theorem test_extAdd_overflow : overflowAt (exec (.extAdd 0 1 0) { State.reset with accL := [(0, 2147483647)] }) 0 .left
    (fun u => u.accL = [(0, 2147483647)] ∧ u.accR = []) = true := by decide

/-- V-QNT-1, its second and third cells. -/
theorem test_drainStereo : nextWith
    (exec (.drainStereo 2) { State.reset with accL := [(0, 40000), (1, -40000)], accR := [(1, -32768), (3, 5)] })
    (fun t => t.returned = [.stereo [32767, 0, -32768, -32768] 0] ∧ t.accL = [] ∧ t.accR = []) = true := by decide

/-- V-QNT-4 with DRAIN_CLEARS_ALL false. -/
theorem test_drainStereo_clears_some : nextWith
    (exec (.drainStereo 1) { State.reset with
      config := { Config.default with drainClearsAll := false }, accL := [(0, 1), (1, 2)], accR := [(0, -1), (1, -2)] })
    (fun t => t.returned = [.stereo [1, -1] 0] ∧ t.accL = [(1, 2)] ∧ t.accR = [(1, -2)]) = true := by decide

/-- V-QNT-2, its second, third and sixth cells. -/
theorem test_drainMono : nextWith
    (exec (.drainMono 3) { State.reset with accL := [(0, -3), (1, 40000), (2, 65535)], accR := [(1, -40000)] })
    (fun t => t.returned = [.mono [-2, 0, 32767] 0] ∧ t.accL = [] ∧ t.accR = []) = true := by decide

/-- V-QNT-3. -/
theorem test_drainMono_sum : faultIs
    (exec (.drainMono 1) { State.reset with accL := [(0, 2147483647)], accR := [(0, 1)] }) (.monoSumOverflow 0) = true := by
  decide

/-- V-CFG-1 and the volume table: configuration B. -/
theorem test_config : nextWith (exec (.config 3579545 44100) State.powerOn)
    (fun t => t.stepTable[1] = 0x512B3 ∧ t.stepTable[6] = 0xD873 ∧ t.noiseStepTable.q2 = 0xA25 ∧
      t.volumeTable[1] = 5422 ∧ t.volumeTable[14] = 271 ∧ t.configured = true ∧ t.cur = none) = true := by decide

/-- V-CFG-2. -/
theorem test_config_refuses : faultIs (exec (.config 46242201600 44100) State.reset) (.badConfig 46242201600 44100) = true := by
  decide

/-- V-SAV-1. -/
theorem test_save : nextWith (exec .save { State.reset with reg := { Regs.silent with tone0 := 0x0FE, noise := 5 } })
    (fun t => t.returned = [.saved ⟨⟨0x0FE, 0, 0, 5⟩, ⟨15, 15, 15, 15⟩, ⟨0xFFFF, 0xFFFF, 0xFFFF, 0xFFFF⟩, 0x8000, 0⟩]) = true := by
  decide

/-- V-SAV-2: bit 3 of the noise register is dropped. -/
theorem test_save_drops_bit3 : nextWith (exec .save { State.reset with reg := { Regs.silent with noise := 0xF } })
    (fun t => t.returned = [.saved ⟨⟨0, 0, 0, 7⟩, ⟨15, 15, 15, 15⟩, ⟨0xFFFF, 0xFFFF, 0xFFFF, 0xFFFF⟩, 0x8000, 0⟩]) = true := by
  decide

/-- V-SAV-1, the bytes. -/
theorem test_restore_bytes :
    restoreBytes ⟨⟨0x0FE, 0, 0, 5⟩, ⟨15, 15, 15, 15⟩, ⟨0xFFFF, 0xFFFF, 0xFFFF, 0xFFFF⟩, 0x8000, 0⟩ =
      [0x8E, 0x0F, 0x9F, 0xA0, 0x00, 0xBF, 0xC0, 0x00, 0xDF, 0xE5, 0xFF] := by decide

/-- V-SAV-3: the shift register last, also when it is zero; the step of divisor 19 is that of V-WR-3. -/
theorem test_restore : nextWith
    (exec (.restore ⟨⟨0x013, 0, 0, 5⟩, ⟨15, 15, 15, 3⟩, ⟨0, 0, 0, 0⟩, 0, 0⟩ ⟨0, some 10⟩) State.reset)
    (fun t => t.reg.tone0 = 0x013 ∧ t.reg.noise = 5 ∧ t.volume = ⟨0, 0, 0, 3421⟩ ∧ t.cntStep.q0 = 0xD79 ∧
      t.cntStep.q3 = 0x400 ∧ t.lfsrMask = 9 ∧ t.lfsr = 0 ∧ t.latch = 7 ∧ t.cur = some 10) = true := by decide

/-- V-DBG-1. -/
theorem test_dbgGetReg : nextWith (exec (.dbgGetReg 6) { State.reset with reg := { Regs.silent with noise := 5 } })
    (fun t => t.returned = [.value 5]) = true := by decide
theorem test_dbgGetReg_outside : nextWith (exec (.dbgGetReg 8) State.reset) (fun t => t.returned = [.value (-1)]) = true := by
  decide
theorem test_dbgSetReg_outside : nextWith (exec (.dbgSetReg 9 0) State.reset) (fun t => t.returned = [.value (-1)]) = true := by
  decide
theorem test_dbgSetReg_inside : faultIs (exec (.dbgSetReg 0 5) State.reset) (.dbgSetRefused 0 5) = true := by decide
theorem test_dbgGetLatch : nextWith (exec .dbgGetLatch (latched 6)) (fun t => t.returned = [.value 6]) = true := by decide

/-- Vectors 2.9. -/
theorem test_notConfigured : faultIs (exec (.latchVol0 0 off) State.powerOn) (.notConfigured (.latchVol0 0 off)) = true := by
  decide
theorem test_cursorUnset : faultIs (exec (.latchVol0 0 ⟨1, some 1⟩) State.reset) (.cursorUnset 1) = true := by decide
theorem test_accIndex : faultIs (exec (.flush ⟨3, some 17⟩) (latched 0)) (.accIndex 17) = true := by decide

/-- V-NOI-1. -/
theorem test_shift : shiftLfsr 0x0001 0x0009 = 0x8000 ∧ shiftLfsr 0x0008 0x0009 = 0x8004 ∧ shiftLfsr 0x0009 0x0009 = 0x0004 ∧
    shiftLfsr 0x2001 0x0009 = 0x9000 ∧ shiftLfsr 0xFFFF 0x0001 = 0xFFFF := by decide

/-- P2. -/
theorem test_sat16 : [-2147483648, -32769, -32768, -32767, 32766, 32767, 32768, 2147483647].map sat16 =
    [-32768, -32768, -32768, -32767, 32766, 32767, 32767, 32767] := by decide

/-- P1 with MAX_OUTPUT 30. -/
theorem test_small_volumes : (List.range 12).map (volumeLevel 30) = [10, 7, 6, 5, 3, 3, 2, 1, 1, 1, 1, 0] := by decide

/-! ### What meets the statements' hypotheses

One theorem for each statement of Certificates/Slice0/Obligations.lean that has hypotheses, and for each of its clauses, at the
ends of the ranges. -/

theorem test_meets_DecodeInvertsEncode : WellFormed (.extAdd 0 (-2147483648) 2147483647) := by decide

theorem test_meets_UnassignedSelectorsRefused : 11 ≤ (11 : BitVec 4).toNat ∧ 11 ≤ (15 : BitVec 4).toNat := by decide

theorem test_meets_StepRunsDecodedTransaction :
    (State.reset.withFetchWord 16 0x600).pending = tableRequest 16 0x600 :: [] ∧ decode (tableRequest 16 0x600) = .ok .save := by
  decide

theorem test_meets_StepWithoutTransactionIdles : State.reset.pending = [] := rfl

theorem test_meets_StepRefusesOnlyUndecodable :
    step (State.reset.withFetchWord 16 0xB00) = .refused (.undecodable (.unassignedSelector 11)) := rfl

/-- Configuration A with the cursor at the last cell. -/
def atLast : State := { State.reset with cur := some 15 }

theorem atLast_inv : Inv atLast := by
  refine ⟨Config_default_valid, by unfold AccForm; decide, fun _ => ⟨⟨by decide, rfl, rfl, rfl⟩, ?_, ?_, rfl, rfl⟩⟩
  · intro c
    cases c <;> exact (volumeTableByFormula_getElem Config.default 15 (by decide)).symm
  · intro c
    cases c <;> exact (stepTableByFormula_getElem Config.default 1048576 65536 0 (by decide)).symm

theorem test_meets_StepKeepsInvariant : Inv atLast ∧ step atLast = .next atLast := ⟨atLast_inv, rfl⟩

theorem test_meets_OnlyConfigWritesTables :
    (∃ t, exec (.config 1 1) brim = .next t) ∧ (∃ t, exec (.flush lastTwo) brim = .next t) ∧ ¬ IsConfig (.flush lastTwo) :=
  ⟨completes (by decide), completes (by decide), by simp [IsConfig]⟩

theorem test_meets_MaskStaysWhiteOrPeriodic :
    brim.lfsrMask = 0x0009 ∧ State.reset.lfsrMask = 0x0001 ∧ (∃ t, exec (.latchNoise 0xF lastTwo) brim = .next t) ∧
      ∃ t, exec (.latchNoise 0 off) State.reset = .next t :=
  ⟨rfl, rfl, completes (by decide), completes (by decide)⟩

theorem test_meets_OnlyRestoreZeroesLfsr :
    brim.lfsrMask = 0x0009 ∧ brim.lfsr ≠ 0 ∧ ¬ IsRestore (.flush lastTwo) ∧ ∃ t, exec (.flush lastTwo) brim = .next t :=
  ⟨rfl, by decide, by simp [IsRestore], completes (by decide)⟩

theorem test_meets_CursorWritersAreFlushAndConfig :
    ((∃ t, exec (.config 1 1) brim = .next t) ∧ IsConfig (.config 1 1)) ∧
    ((∃ t, exec (.flush ⟨2, none⟩) brim = .next t) ∧ ¬ IsConfig (.flush ⟨2, none⟩)) ∧
    (∃ t, exec .save brim = .next t) ∧ ¬ IsConfig .save :=
  ⟨⟨completes (by decide), 1, 1, rfl⟩, ⟨completes (by decide), by simp [IsConfig]⟩, completes (by decide), by simp [IsConfig]⟩

theorem test_meets_OnlyFlushAdvancesPhases :
    ((∃ t, exec (.data 0 0 lastTwo) brim = .next t) ∧ ¬ IsConfig (.data 0 0 lastTwo)) ∧
    (∃ t, exec (.drainStereo 16) brim = .next t) ∧ ¬ IsConfig (.drainStereo 16) :=
  ⟨⟨completes (by decide), by simp [IsConfig]⟩, completes (by decide), by simp [IsConfig]⟩

theorem test_meets_HostSideOnlyGrows : ∃ t, exec .save State.reset = .next t := completes (by decide)

theorem test_meets_HighPhaseBitsUnobservable :
    SamePhaseBits brim { brim with counter := ⟨0x20000, 0, 0, 0xFFFE0000⟩ } ∧ ∃ t, exec (.flush lastTwo) brim = .next t := by
  refine ⟨⟨fun c => ?_, rfl⟩, completes (by decide)⟩
  cases c <;> decide

theorem test_meets_PsgAddsAlikeOnBothSides :
    ¬ OnAccumulatorOnly (.flush lastTwo) ∧ ∃ t, exec (.flush lastTwo) brim = .next t :=
  ⟨by simp [OnAccumulatorOnly], completes (by decide)⟩

theorem brim_ready : FlushReady lastTwo brim := by
  refine .inr ⟨14, rfl, by decide, fun side k hk => ?_⟩
  have hk : k < 2 := hk
  interval_cases k <;> cases side <;> decide

theorem reset_ready (p : Option Nat) : FlushReady ⟨0, p⟩ State.reset := .inl rfl

theorem test_meets_FlushSynthesizesPending : brim.configured = true ∧ FlushReady lastTwo brim := ⟨rfl, brim_ready⟩

/-- The last cell full and channel 1 adding 10: not ready. -/
def full : State := { brim with cur := some 15, accL := [(15, 2147483647)] }

theorem full_not_ready : ¬ FlushReady ⟨1, none⟩ full := by
  rintro (h | ⟨i, hi, _, hroom⟩)
  · cases h
  · cases hi
    exact absurd (hroom .left 0 (by decide)) (by decide)

/-- R204: the right cell of sample 1 overflows in channel 0; sample 0 is added on both sides, sample 1 on the left only. -/
theorem test_flush_overflow_state :
    overflowAt (exec (.flush lastTwo)
        { State.reset with cur := some 14, volume := ⟨5, 0, 0, 0⟩, cntStep := Quad.all 0x10000, accL := [], accR := [(15, 2147483645)] })
      15 .right (fun u => u.accL = [(14, 5), (15, 5)] ∧ u.accR = [(14, 5), (15, 2147483645)]) = true := by decide

theorem test_meets_FlushFaultsInOrder :
    (State.reset.configured = true ∧ ¬ FlushReady ⟨1, some 1⟩ State.reset) ∧
    ({ brim with cur := some 16 }.configured = true ∧ ¬ FlushReady ⟨1, none⟩ { brim with cur := some 16 }) ∧
    (full.configured = true ∧ ¬ FlushReady ⟨1, none⟩ full) := by
  refine ⟨⟨rfl, ?_⟩, ⟨rfl, ?_⟩, rfl, full_not_ready⟩
  · rintro (h | ⟨i, hi, _⟩)
    · cases h
    · cases hi
  · rintro (h | ⟨i, hi, hcap, _⟩)
    · cases h
    · cases hi
      exact absurd hcap (by decide)

theorem test_meets_FlushSplits : AccForm brim ∧ brim.configured = true ∧ brim.cur = some 14 ∧
    ∃ t, exec (.flush ⟨1 + 1, some 16⟩) brim = .next t :=
  ⟨by unfold AccForm; decide, rfl, rfl, completes (by decide)⟩

theorem test_meets_MixerIsLinear : (∀ side j, { brim with accL := [], accR := [] }.cell side j = 0) ∧
    ∃ t, exec (.flush lastTwo) { brim with accL := [], accR := [] } = .next t :=
  ⟨fun side _ => by cases side <;> rfl, completes (by decide)⟩

theorem test_meets_ToneLevelFlipsOnCarry :
    { brim with cntStep := ⟨0xFFFF, 0, 0, 0⟩ }.volume.get ToneCh.t0.chan ≠ 0 ∧
    ({ brim with cntStep := ⟨0xFFFF, 0, 0, 0⟩ }.cntStep.get ToneCh.t0.chan).toNat < 0x10000 ∧
    ∃ t, exec (.flush ⟨1, none⟩) { brim with cntStep := ⟨0xFFFF, 0, 0, 0⟩ } = .next t :=
  ⟨by decide, by decide, completes (by decide)⟩

theorem test_meets_MutingKeepsTonePhase : (brim.cntStep.get ToneCh.t0.chan).toNat < 0x10000 ∧
    (∃ t, exec (.flush lastTwo) brim = .next t) ∧
    ∃ t, exec (.flush lastTwo) { brim with volume := brim.volume.set ToneCh.t0.chan 0 } = .next t :=
  ⟨by decide, completes (by decide), completes (by decide)⟩

theorem test_meets_ShiftTaps : (0 : Nat) < 16 ∧ 15 < 16 := by decide

/-- The hypotheses of both parts of `BusWriteIs`, which the statements of the eight LATCH forms unfold to. -/
theorem test_meets_BusWriteIs :
    (brim.configured = true ∧ FlushReady lastTwo brim) ∧ full.configured = true ∧ ∃ f, exec (.flush ⟨1, none⟩) full = .fault f :=
  ⟨⟨rfl, brim_ready⟩, rfl, faults (by decide)⟩

theorem test_meets_LatchToneWritesLowNibble : brim.configured = true ∧ FlushReady lastTwo brim := ⟨rfl, brim_ready⟩
theorem test_meets_LatchTone2DrivesNoiseStep : brim.configured = true ∧ FlushReady lastTwo brim := ⟨rfl, brim_ready⟩
theorem test_meets_LatchVolSetsAmplitude : (Inv atLast ∧ atLast.configured = true) ∧ brim.configured = true ∧
    FlushReady lastTwo brim := ⟨⟨atLast_inv, rfl⟩, rfl, brim_ready⟩
theorem test_meets_LatchNoiseRestartsNoise : brim.configured = true ∧ FlushReady lastTwo brim := ⟨rfl, brim_ready⟩

theorem latched_ready (r : BitVec 3) (p : Option Nat) : FlushReady ⟨0, p⟩ (latched r) := .inl rfl

theorem test_meets_DataWritesDivisorHighBits :
    (full.configured = true ∧ ∃ f, exec (.flush ⟨1, none⟩) full = .fault f) ∧
    (latched 0).configured = true ∧ (latched 2).configured = true ∧ (latched 4).configured = true ∧
    (∀ r, FlushReady off (latched r) ∧ (latched r).latch = r) :=
  ⟨⟨rfl, faults (by decide)⟩, rfl, rfl, rfl, fun r => ⟨latched_ready r none, rfl⟩⟩

theorem test_meets_DataOverwritesNibble :
    (full.configured = true ∧ ∃ f, exec (.flush ⟨1, none⟩) full = .fault f) ∧
    (latched 6).configured = true ∧ (latched 1).configured = true ∧ (latched 3).configured = true ∧
    (latched 5).configured = true ∧ (latched 7).configured = true ∧
    (∀ r, FlushReady off (latched r) ∧ (latched r).latch = r) :=
  ⟨⟨rfl, faults (by decide)⟩, rfl, rfl, rfl, rfl, rfl, fun r => ⟨latched_ready r none, rfl⟩⟩

theorem test_meets_RepeatedWriteChangesNothing :
    (∃ t, exec (busForm 0x8E lastTwo) brim = .next t) ∧ ∃ t, exec (busForm 0x7F off) brim = .next t :=
  ⟨completes (by decide), completes (by decide)⟩

/-- A volume table with equal neighbours and a zero below index 15, at the bound of R102 for a full scale of 90. -/
def smallLevels : Vector U32 16 := #v[30, 20, 10, 9, 8, 7, 6, 5, 4, 4, 3, 2, 1, 1, 0, 0]

/-- A step table that is no formula's: 0x10000 down to 0xFC01. -/
def fallingSteps : Vector U32 1024 := ⟨((List.range' 0 1024).map (fun n => BitVec.ofNat 32 (0x10000 - n))).toArray, by simp⟩

/-- Parameters that give the tables as numbers. -/
def given : Config :=
  { Config.default with
    maxOutput := 90
    volumeTable := some smallLevels
    stepTable := some fallingSteps
    noiseStep := some (1, 2, 3) }

theorem given_valid : given.Valid := by
  have h : VolumeTableAdmitted 90 smallLevels := by decide
  exact ⟨by decide, by decide, fun t ht => by cases ht; exact h⟩

/-- R101, R112: a given table is the one that a volume write and a tone write read after `CONFIG`. -/
theorem test_config_given : nextWith (exec (.config 1 1) { State.powerOn with config := given }) (fun t =>
    t.levelFor 0 = 30 ∧ t.levelFor 14 = 0 ∧ t.stepFor 0 = 0x10000 ∧ t.stepFor 3 = 0xFFFD ∧ t.noiseStepTable.q2 = 3) = true := by
  decide

theorem test_meets_ConfigResetsPsg : given.Valid ∧ ((1 : Int) ≤ 1 ∧ (1 : Int) ≤ 1 ∧ (1 : Int) < 1048576 * 1) ∧
    ((1 : Int) ≤ 46242201599 ∧ (1 : Int) ≤ 44100 ∧ (46242201599 : Int) < 1048576 * 44100) := ⟨given_valid, by decide⟩

theorem test_meets_ConfigTakesGivenTables :
    (∃ t, exec (.config 1 1) { State.powerOn with config := given } = .next t) ∧
    given.volumeTable = some smallLevels ∧ given.stepTable = some fallingSteps ∧
    given.noiseStep = some (1, 2, 3) ∧
    (∃ t, exec (.config 1 1) { State.powerOn with config := { Config.default with stepDiv0 := some 7 } } = .next t) ∧
    { Config.default with stepDiv0 := some 7 }.stepTable = none ∧
    { Config.default with stepDiv0 := some 7 }.stepDiv0 = some 7 :=
  ⟨completes (by decide), rfl, rfl, rfl, completes (by decide), rfl, rfl⟩

theorem test_meets_ConfigStepTablesAreFloors : State.powerOn.config.stepTable = none ∧
    State.powerOn.config.stepDiv0 = none ∧ State.powerOn.config.noiseStep = none ∧
    (∃ t, exec (.config 46242201599 44100) State.powerOn = .next t) ∧ ((1 : Nat) < 1024 ∧ 1 ≤ 1) ∧ (1023 : Nat) < 1024 ∧ 1 ≤ 1023 :=
  ⟨rfl, rfl, rfl, completes (by decide), by decide, by decide⟩

theorem test_meets_ConfigVolumeTableIsFloor : State.powerOn.config.volumeTable = none ∧
    (∃ t, exec (.config 1 1) State.powerOn = .next t) ∧ (0 : Nat) < 15 ∧ 14 < 15 :=
  ⟨rfl, completes (by decide), by decide⟩

theorem test_meets_VolumeTableNeverRises : Inv atLast ∧ atLast.configured = true ∧ (0 : Nat) < 16 ∧ 15 < 16 ∧ 0 ≤ 15 :=
  ⟨atLast_inv, rfl, by decide⟩

theorem test_meets_DefaultAmplitudesFitSample : Inv atLast ∧ atLast.configured = true ∧ atLast.config.maxOutput = 0x4FFF :=
  ⟨atLast_inv, rfl, rfl⟩

theorem test_meets_ThresholdInClockTerms : Inv atLast ∧ atLast.configured = true ∧ atLast.config.stepTable = none ∧
    atLast.config.stepDiv0 = none := ⟨atLast_inv, rfl, rfl, rfl⟩

theorem test_meets_ConfigTwiceIsConfigOnce : ∃ t, exec (.config 1 1) State.powerOn = .next t := completes (by decide)

theorem test_meets_SaveReturnsRecord : State.reset.configured = true := rfl

theorem test_meets_RestoreSetsRegisters : (brim.configured = true ∧ FlushReady lastTwo brim) ∧
    full.configured = true ∧ ∃ f, exec (.flush ⟨1, none⟩) full = .fault f := ⟨⟨rfl, brim_ready⟩, rfl, faults (by decide)⟩

/-- A record with numbers wider than the registers. -/
def wide : SaveRecord := ⟨⟨0x7FF, 0x400, 0x413, 31⟩, ⟨16, 31, 3, 255⟩, ⟨0, 0, 0, 0⟩, 0x1FFFF, 300⟩

theorem test_meets_RestoreReplaysElevenWrites :
    ∃ t, exec (.restore wide ⟨0, some 16⟩) State.reset = .next t := by
  obtain ⟨_, _, _, h⟩ := flushing_next (i := .restore wide ⟨0, some 16⟩) rfl (show State.reset.configured = true from rfl)
    (reset_ready (some 16))
  exact ⟨_, h⟩

theorem test_meets_SaveThenRestoreRoundTrips : Inv atLast ∧ atLast.configured = true := ⟨atLast_inv, rfl⟩

theorem test_meets_RestoreThenSaveRoundTrips : brim.configured = true ∧ FlushReady lastTwo brim := ⟨rfl, brim_ready⟩

theorem test_meets_DbgGetRegReadsRegister : State.powerOn.configured = false ∧ State.reset.config.Valid ∧
    State.reset.configured = true ∧ ((-1 : Int) < 0 ∨ (7 : Int) < -1) ∧
    ((8 : Int) < 0 ∨ (7 : Int) < 8) := ⟨rfl, Config_default_valid, rfl, by decide⟩

theorem test_meets_DbgSetRegOutsideReturnsSentinel : State.reset.configured = true ∧ ((-1 : Int) < 0 ∨ (7 : Int) < -1) ∧
    ((8 : Int) < 0 ∨ (7 : Int) < 8) ∧ ((0 : Int) ≤ 0 ∧ (0 : Int) ≤ 7) ∧ (0 : Int) ≤ 7 ∧ (7 : Int) ≤ 7 := ⟨rfl, by decide⟩

theorem test_meets_DbgGetLatchReadsLatch : State.powerOn.configured = false ∧ State.reset.configured = true := ⟨rfl, rfl⟩

theorem test_meets_ExtAddAddsToOneCell : 15 < full.config.segCap ∧ inI32 ((full.cell .left 15).toInt + 0) ∧
    inI32 ((full.cell .right 15).toInt + -2147483648) := by decide

theorem test_meets_ExtAddFaults :
    full.config.segCap ≤ 16 ∧
    (15 < full.config.segCap ∧ ¬ inI32 ((full.cell .left 15).toInt + 1)) ∧
    15 < full.config.segCap ∧ inI32 ((full.cell .left 15).toInt + 0) ∧ ¬ inI32 ((full.cell .right 15).toInt + 2147483647) := by
  decide

theorem test_meets_DrainStereoSaturatesAndClears : 16 ≤ brim.config.segCap ∧ 0 < 16 ∧ 15 < 16 := by decide

/-- Two cells whose sums are the two ends of `i32`. -/
def edges : State := { State.reset with accL := [(0, 2147483647), (1, 0x80000000)] }

theorem test_meets_DrainMonoHalvesThenSaturates :
    2 ≤ edges.config.segCap ∧ ∀ i, i < 2 → inI32 ((edges.cell .left i).toInt + (edges.cell .right i).toInt) := by decide

theorem test_meets_DrainFaults : edges.config.segCap < 17 ∧
    exec (.drainMono 16) { edges with accR := [(1, 0xFFFFFFFF)] } = .fault (.monoSumOverflow 1) := by
  refine ⟨by decide, ?_⟩
  have h : firstMonoOverflow { edges with accR := [(1, 0xFFFFFFFF)] } 16 = some 1 := by decide
  simp only [exec, execDrainMono, h]
  rfl

end Sys2Proof.Tests
end

section
/-! The LATCH bytes that write no tone register: the volume forms and the noise form (40_bus_write.md R85, R87, R89 to R91). -/

namespace Sys2Proof

/-! ### The byte of a LATCH form -/

theorem latchByte_eq_base_add : ∀ (r : BitVec 3) (d4 : BitVec 4),
    latchByte r d4 = latchByte r 0 + d4.setWidth 8 := by
  decide

/-- A LATCH byte, written as the byte of nibble 0 and the nibble added to it, decodes to the form of its register index. -/
theorem decode_latchBase (r : BitVec 3) (d4 : BitVec 4) (fl : FlushArgs) :
    decode (wrRequest (latchByte r 0 + d4.setWidth 8) fl) = .ok (latchForm r d4 fl) := by
  obtain ⟨hlatch, hindex, hnibble⟩ := latchByte_bits r d4
  rw [← latchByte_eq_base_add, decode_wrRequest, busForm, if_pos hlatch, hindex, hnibble]

end Sys2Proof

namespace Sys2Proof.Machine

/-! ### A flushing transaction as a bus write -/

/-- A flushing transaction has the fault of its flush (R80, R204). -/
theorem flushing_fault {i : Instr} {fl : FlushArgs} (h : flushArgsOf i = some fl) {s : State} (hc : s.configured = true)
    {f : Fault} (hf : exec (.flush fl) s = .fault f) : exec i s = .fault f := by
  have hflush : flush fl s = .fault f := by
    rw [exec, execFlush, whenConfigured_true hc] at hf
    exact hf
  rw [exec_flushing h, whenConfigured_true hc, hflush, andThen_fault]

/-- A transaction that flushes with its own operands and then has the effect `eff` is the bus write of `eff`. -/
theorem busWriteIs_of_effectOf {mk : FlushArgs → Instr} {eff : State → State}
    (hfl : ∀ fl, flushArgsOf (mk fl) = some fl) (heff : ∀ fl u, effectOf (mk fl) u = eff u) : BusWriteIs mk eff := by
  intro fl s hc
  refine ⟨fun hready => ?_, fun f hf => flushing_fault (hfl fl) hc hf⟩
  obtain ⟨u, -, hflushed, hexec⟩ := flushing_next (hfl fl) hc hready
  exact ⟨u, hflushed, by rw [hexec, heff]⟩

/-! ### The amplitudes -/

/-- Under the invariant a configured block's volume table is one that R102 admits. -/
theorem Inv.volumeTable_admitted {s : State} (h : Inv s) (hc : s.configured = true) :
    VolumeTableAdmitted s.config.maxOutput s.volumeTable := by
  obtain ⟨hvalid, -, hconfigured⟩ := h
  obtain ⟨⟨-, -, -, htable⟩, -⟩ := hconfigured hc
  rw [htable]
  exact volumeTableOf_admitted hvalid

/-- Attenuation 15 is silence (R102). -/
theorem Inv.levelFor_mute {s : State} (h : Inv s) (hc : s.configured = true) : s.levelFor 15 = 0 := by
  obtain ⟨-, hmute, -⟩ := h.volumeTable_admitted hc
  exact hmute

/-- A larger attenuation is never louder (R102). -/
theorem Inv.levelFor_anti {s : State} (h : Inv s) (hc : s.configured = true) {a b : BitVec 4} (hab : a.toNat ≤ b.toNat) :
    (s.levelFor b).toNat ≤ (s.levelFor a).toNat := by
  obtain ⟨hanti, -, -⟩ := h.volumeTable_admitted hc
  exact hanti a.toFin b.toFin hab

/-- Settles O30: each form is one flush and then `latchEffect_vol` at its register index; the order of the amplitudes is
the table's, which the invariant carries from `CONFIG`. -/
theorem latchVolSetsAmplitude : Obligations.LatchVolSetsAmplitude := by
  refine ⟨fun s hinv hc => ⟨hinv.levelFor_mute hc, fun d4 => hinv.levelFor_anti hc (Nat.zero_le _)⟩, ?_, ?_⟩
  · exact fun d4 fl => ⟨decode_latchBase 1 d4 fl, decode_latchBase 3 d4 fl, decode_latchBase 5 d4 fl,
      decode_latchBase 7 d4 fl⟩
  · exact fun d4 => ⟨busWriteIs_of_effectOf (fun _ => rfl) (fun _ => latchEffect_vol (r := 1) (c := .c0) rfl d4),
      busWriteIs_of_effectOf (fun _ => rfl) (fun _ => latchEffect_vol (r := 3) (c := .c1) rfl d4),
      busWriteIs_of_effectOf (fun _ => rfl) (fun _ => latchEffect_vol (r := 5) (c := .c2) rfl d4),
      busWriteIs_of_effectOf (fun _ => rfl) (fun _ => latchEffect_vol (r := 7) (c := .c3) rfl d4)⟩

/-! ### The noise step -/

theorem rateSelect_cases : ∀ k : BitVec 2, k = 0 ∨ k = 1 ∨ k = 2 ∨ k = 3 := by decide

/-- The noise step by the value of the rate select (R82, R126). -/
theorem noiseStepFor_eq_ite (s : State) (d : BitVec 4) : s.noiseStepFor d =
    if rateSelect d = 0 then s.noiseStepTable.q0
    else if rateSelect d = 1 then s.noiseStepTable.q1
    else if rateSelect d = 2 then s.noiseStepTable.q2
    else s.cntStep.q2 >>> 1 := by
  unfold State.noiseStepFor
  obtain h | h | h | h := rateSelect_cases (rateSelect d) <;> rw [h] <;> rfl

/-- Settles O31: one flush and then `latchEffect_noise`, whose step is written out by rate select. -/
theorem latchNoiseRestartsNoise : Obligations.LatchNoiseRestartsNoise := by
  intro d4
  refine ⟨decode_latchBase 6 d4, busWriteIs_of_effectOf (fun _ => rfl) (fun _ u => ?_)⟩
  refine (latchEffect_noise (r := 6) rfl d4 u).trans ?_
  rw [noiseStepFor_eq_ite]
  rfl

end Sys2Proof.Machine
end

section
/-! The shift function of the noise register, bit by bit (43_noise_generator.md R127). -/

namespace Sys2Proof.Machine

/-- Bit `k` of the word whose top bit is `b` and whose other bits are 0. -/
theorem topBit_getLsbD (b : Bool) {k : Nat} (hk : k < 16) :
    (if b then 0x8000#16 else 0#16).getLsbD k = (decide (k = 15) && b) := by
  cases b
  · simp
  · have hbit : ∀ j < 16, (0x8000#16).getLsbD j = decide (j = 15) := by decide
    simp [hbit k hk]

/-- The shift for any mask: below the top bit each bit comes from the place above, and the top bit is the parity of the
masked bits, since shifting right left it 0. -/
theorem shiftLfsr_getLsbD (l m : U16) {k : Nat} (hk : k < 16) :
    (shiftLfsr l m).getLsbD k = if k = 15 then parity (l &&& m) else l.getLsbD (k + 1) := by
  rw [shiftLfsr, BitVec.getLsbD_or, BitVec.getLsbD_ushiftRight, topBit_getLsbD _ hk, Nat.add_comm 1 k]
  by_cases htop : k = 15
  · subst htop
    simp
  · simp [htop]

/-- The bits that the white mask leaves are bits 0 and 3. -/
theorem parity_and_white (l : U16) : parity (l &&& 0x0009) = (l.getLsbD 0 ^^ l.getLsbD 3) := by
  simp [parity, List.range_succ]

/-- The bit that the periodic mask leaves is bit 0. -/
theorem parity_and_periodic (l : U16) : parity (l &&& 0x0001) = l.getLsbD 0 := by
  simp [parity, List.range_succ]

/-- Settles O26: `shiftLfsr_getLsbD` at each mask, with the parity of the bits that mask leaves. -/
theorem shiftTaps : Obligations.ShiftTaps := by
  intro l k hk
  refine ⟨?_, ?_⟩
  · rw [shiftLfsr_getLsbD l _ hk, parity_and_white]
  · rw [shiftLfsr_getLsbD l _ hk, parity_and_periodic]

end Sys2Proof.Machine
end

section
/-! The clamp of a drained sample to an i16 (45_quantizer.md R160). -/

namespace Sys2Proof.Machine

/-- Below, above and within the bounds, both sides of the equation take the same of the three values. -/
theorem sat16_eq_clamp16 (v : Int) : sat16 v = clamp16 v := by
  unfold sat16 clamp16
  split
  next hlow => omega
  next hlow =>
    split
    next hhigh => omega
    next hhigh => omega

theorem neg_32768_le_sat16 (v : Int) : -32768 ≤ sat16 v :=
  sat16_eq_clamp16 v ▸ le_max_left _ _

theorem sat16_le_32767 (v : Int) : sat16 v ≤ 32767 :=
  sat16_eq_clamp16 v ▸ max_le (by decide) (min_le_left _ _)

/-- A value that is an i16 already is kept. -/
theorem sat16_of_mem_i16 {v : Int} (hlow : -32768 ≤ v) (hhigh : v ≤ 32767) : sat16 v = v := by
  rw [sat16_eq_clamp16, clamp16, min_eq_right hhigh, max_eq_right hlow]

/-- The boundaries drawn at `<=` (R160): at a bound itself the clamped value is the value, so either case gives it. -/
theorem sat16_eq_ite_le (v : Int) : sat16 v = if v ≤ -0x8000 then -0x8000 else if 0x7FFF ≤ v then 0x7FFF else v := by
  rw [sat16_eq_clamp16, clamp16]
  split
  next hlow => exact max_eq_left (min_le_of_right_le hlow)
  next hlow =>
    split
    next hhigh => rw [min_eq_left hhigh]; rfl
    next hhigh => rw [min_eq_right (not_le.mp hhigh).le, max_eq_right (not_le.mp hlow).le]

/-- Settles O54: `sat16` is the clamp, whose result lies within the bounds and is therefore kept by a second `sat16`. -/
theorem sat16Clamps : Obligations.Sat16Clamps := fun v =>
  ⟨sat16_eq_clamp16 v, neg_32768_le_sat16 v, sat16_le_32767 v,
    sat16_of_mem_i16 (neg_32768_le_sat16 v) (sat16_le_32767 v), sat16_eq_ite_le v⟩

end Sys2Proof.Machine
end

section
/-! The debug accessors that read: DBG_GETREG and DBG_GETLATCH (46_config_save_debug.md R183, R184). -/

namespace Sys2Proof

/-! ### The requests of selectors 8 and 10 -/

theorem decode_portRequest_dbgGetReg (i : Int) : decode (portRequest 8 [i]) = .ok (.dbgGetReg i) := by
  simp [decode, portRequest, txWord_high, txWord_selector, atMost, operand]

theorem decode_portRequest_dbgGetLatch : decode (portRequest 10 []) = .ok .dbgGetLatch := by
  simp [decode, portRequest, txWord_high, txWord_selector, atMost]

end Sys2Proof

namespace Sys2Proof.Machine

/-! ### The index of a debug operand -/

/-- The eight indices, 0 to 7, are the naturals that the registers' 3-bit indices stand for. -/
theorem debugIndex_toNat (r : BitVec 3) : debugIndex (r.toNat : Int) = some r := by
  have hinside : (0 : Int) ≤ r.toNat ∧ (r.toNat : Int) ≤ 7 := by omega
  rw [debugIndex, if_pos hinside, Int.toNat_natCast, BitVec.ofNat_toNat, BitVec.setWidth_eq]

theorem debugIndex_eq_none {i : Int} (h : i < 0 ∨ 7 < i) : debugIndex i = none :=
  if_neg (by omega)

/-! ### DBG_GETREG -/

theorem exec_dbgGetReg_false {s : State} (hc : s.configured = false) (i : Int) :
    exec (.dbgGetReg i) s = .fault (.notConfigured (.dbgGetReg i)) := by
  rw [exec, execDbgGetReg, whenConfigured_false hc]

theorem exec_dbgGetReg_register {s : State} (hc : s.configured = true) (r : BitVec 3) :
    exec (.dbgGetReg r.toNat) s = .next (s.give (.value (s.reg.read r))) := by
  rw [exec, execDbgGetReg, whenConfigured_true hc, debugIndex_toNat]

theorem exec_dbgGetReg_outside {s : State} (hc : s.configured = true) {i : Int} (h : i < 0 ∨ 7 < i) :
    exec (.dbgGetReg i) s = .next (s.give (.value s.config.dbgErr)) := by
  rw [exec, execDbgGetReg, whenConfigured_true hc, debugIndex_eq_none h]

/-- Settles O49: inside 0..7 the answer is `exec_dbgGetReg_register` at each index in turn, the register being the one that
`target` names; outside it is the sentinel, which the admitted parameters make negative. -/
theorem dbgGetRegReadsRegister : Obligations.DbgGetRegReadsRegister := by
  refine ⟨decode_portRequest_dbgGetReg, fun s => ⟨exec_dbgGetReg_false, ?_, fun hc => ?_⟩⟩
  · rintro ⟨-, hnegative, -⟩
    exact hnegative
  · have hregister := exec_dbgGetReg_register hc
    exact ⟨hregister 0, hregister 1, hregister 2, hregister 3, hregister 4, hregister 5, hregister 6, hregister 7,
      fun i => exec_dbgGetReg_outside hc⟩

/-! ### DBG_GETLATCH -/

theorem exec_dbgGetLatch_false {s : State} (hc : s.configured = false) :
    exec .dbgGetLatch s = .fault (.notConfigured .dbgGetLatch) := by
  rw [exec, execDbgGetLatch, whenConfigured_false hc]

theorem exec_dbgGetLatch_true {s : State} (hc : s.configured = true) :
    exec .dbgGetLatch s = .next (s.give (.value s.latch.toNat)) := by
  rw [exec, execDbgGetLatch, whenConfigured_true hc]

/-- Settles O51: the check, then the latch, whose three bits bound it. -/
theorem dbgGetLatchReadsLatch : Obligations.DbgGetLatchReadsLatch :=
  ⟨decode_portRequest_dbgGetLatch, fun s =>
    ⟨exec_dbgGetLatch_false, fun hc => ⟨exec_dbgGetLatch_true hc, Nat.le_of_lt_succ s.latch.isLt⟩⟩⟩

end Sys2Proof.Machine
end

section
/-! The decoder and the encoder (30_encoding.md R61 to R66, R69): what each presented word and operand list decodes to, and
that a step performs what it decodes. -/

namespace Sys2Proof

/-! ### The bus byte -/

theorem busForm_latchByte (r : BitVec 3) (d4 : BitVec 4) (fl : FlushArgs) :
    busForm (latchByte r d4) fl = latchForm r d4 fl := by
  obtain ⟨hlatch, hindex, hnibble⟩ := latchByte_bits r d4
  rw [busForm, if_pos hlatch, hindex, hnibble]

theorem busForm_dataByte (b6 : BitVec 1) (d6 : BitVec 6) (fl : FlushArgs) :
    busForm (dataByte b6 d6) fl = .data b6 d6 fl := by
  obtain ⟨hdata, hignored, hbits⟩ := dataByte_bits b6 d6
  rw [busForm, if_neg (by simp [hdata]), hignored, hbits]

theorem isLatchByte_eq_decide : ∀ b : Byte, isLatchByte b = decide (0x80 ≤ b.toNat) := by decide

/-- The register index of a LATCH byte is the sixteenth of the upper half of the byte values in which it lies (R65). -/
theorem latchIndex_toNat : ∀ b : Byte, (latchIndex b).toNat = b.toNat / 16 % 8 := by decide

theorem busForm_of_lt {b : Byte} (h : b.toNat < 0x80) (fl : FlushArgs) :
    busForm b fl = .data (ignoredBit b) (dataBits b) fl := by
  rw [busForm, if_neg (by simpa [isLatchByte_eq_decide] using h)]

/-- The sixteen bytes of register index `r`. -/
theorem busForm_of_div_eq {b : Byte} (r : BitVec 3) (h : b.toNat / 16 = 8 + r.toNat) (fl : FlushArgs) :
    busForm b fl = latchForm r (latchNibble b) fl := by
  have hindex : latchIndex b = r := BitVec.eq_of_toNat_eq (by rw [latchIndex_toNat]; omega)
  have hlatch : isLatchByte b = true := by
    rw [isLatchByte_eq_decide]
    exact decide_eq_true (by omega)
  rw [busForm, if_pos hlatch, hindex]

/-- Settles O2: the byte lies in one of the nine ranges, and `busForm_of_lt` or `busForm_of_div_eq` gives its form. -/
theorem busByteRanges : Obligations.BusByteRanges := by
  intro b fl
  rw [decode_wrRequest]
  congr 1
  have hb := b.isLt
  split_ifs with h0 h1 h2 h3 h4 h5 h6 h7
  · exact busForm_of_lt h0 fl
  · exact busForm_of_div_eq 0 (by bv_omega) fl
  · exact busForm_of_div_eq 1 (by bv_omega) fl
  · exact busForm_of_div_eq 2 (by bv_omega) fl
  · exact busForm_of_div_eq 3 (by bv_omega) fl
  · exact busForm_of_div_eq 4 (by bv_omega) fl
  · exact busForm_of_div_eq 5 (by bv_omega) fl
  · exact busForm_of_div_eq 6 (by bv_omega) fl
  · exact busForm_of_div_eq 7 (by bv_omega) fl

/-! ### The port transactions -/

theorem decode_portRequest_flush (ops : List Int) : decode (portRequest 1 ops) = withBracket ops .flush := by
  simp [decode, portRequest, txWord_high, txWord_selector]

theorem decode_portRequest_restore (ops : List Int) : decode (portRequest 7 ops) = decodeRestore ops := by
  simp [decode, portRequest, txWord_high, txWord_selector]

theorem decode_portRequest_extAdd (i : Nat) {dL dR : Int} (hL : inI32 dL) (hR : inI32 dR) :
    decode (portRequest 2 [(i : Int), dL, dR]) = .ok (.extAdd i dL dR) := by
  have hdecode : decode (portRequest 2 [(i : Int), dL, dR]) = decodeExtAdd [(i : Int), dL, dR] := by
    simp [decode, portRequest, txWord_high, txWord_selector]
  rw [hdecode, decodeExtAdd, if_neg (by simp [operand]), if_neg (by simpa [operand] using hL),
    if_neg (by simpa [operand] using hR)]
  simp [atMost, operand]

theorem withNatural_natCast (n : Nat) (mk : Nat → Instr) : withNatural [(n : Int)] mk = .ok (mk n) := by
  simp [withNatural, atMost, operand]

theorem decode_portRequest_drainStereo (len : Nat) : decode (portRequest 3 [(len : Int)]) = .ok (.drainStereo len) := by
  simp [decode, portRequest, txWord_high, txWord_selector, withNatural_natCast]

theorem decode_portRequest_drainMono (len : Nat) : decode (portRequest 4 [(len : Int)]) = .ok (.drainMono len) := by
  simp [decode, portRequest, txWord_high, txWord_selector, withNatural_natCast]

theorem decode_portRequest_config (clk rate : Int) : decode (portRequest 5 [clk, rate]) = .ok (.config clk rate) := by
  simp [decode, portRequest, txWord_high, txWord_selector, atMost, operand]

theorem decode_portRequest_save : decode (portRequest 6 []) = .ok .save := by
  simp [decode, portRequest, txWord_high, txWord_selector, atMost]

theorem decode_portRequest_dbgSetReg (i v : Int) : decode (portRequest 9 [i, v]) = .ok (.dbgSetReg i v) := by
  simp [decode, portRequest, txWord_high, txWord_selector, atMost, operand]

/-- Settles O1: the bus forms read back their byte and their bracket, the port forms their selector and their operands; only
`EXT_ADD` needs its amounts to be `i32`s. -/
theorem decodeInvertsEncode : Obligations.DecodeInvertsEncode := by
  intro i hwf
  have hlatch : ∀ r d4 fl, decode (wrRequest (latchByte r d4) fl) = .ok (latchForm r d4 fl) := fun r d4 fl => by
    rw [decode_wrRequest, busForm_latchByte]
  cases i with
  | latchTone0 d4 fl => exact hlatch 0 d4 fl
  | latchVol0 d4 fl => exact hlatch 1 d4 fl
  | latchTone1 d4 fl => exact hlatch 2 d4 fl
  | latchVol1 d4 fl => exact hlatch 3 d4 fl
  | latchTone2 d4 fl => exact hlatch 4 d4 fl
  | latchVol2 d4 fl => exact hlatch 5 d4 fl
  | latchNoise d4 fl => exact hlatch 6 d4 fl
  | latchVol3 d4 fl => exact hlatch 7 d4 fl
  | data b6 d6 fl => rw [encode, decode_wrRequest, busForm_dataByte]
  | flush fl => rw [encode, decode_portRequest_flush, withBracket_bracketOps]
  | extAdd i dL dR => exact decode_portRequest_extAdd i hwf.1 hwf.2
  | drainStereo len => exact decode_portRequest_drainStereo len
  | drainMono len => exact decode_portRequest_drainMono len
  | config clk rate => exact decode_portRequest_config clk rate
  | save => exact decode_portRequest_save
  | restore r fl => rw [encode, decode_portRequest_restore, decodeRestore_recordOps]
  | dbgGetReg i => exact decode_portRequest_dbgGetReg i
  | dbgSetReg i v => exact decode_portRequest_dbgSetReg i v
  | dbgGetLatch => exact decode_portRequest_dbgGetLatch

/-- Settles O3: of the 4-bit selectors only 11 to 15 are left, and each falls to the decoder's last arm. -/
theorem unassignedSelectorsRefused : Obligations.UnassignedSelectorsRefused := by
  intro sel b ops hsel
  have hlt := sel.isLt
  unfold decode
  simp only [txWord_high, txWord_selector, ne_eq, not_true_eq_false, if_false]
  generalize sel.toNat = n at hsel hlt ⊢
  interval_cases n <;> rfl

/-- Settles O4: six closed words, evaluated. -/
theorem writtenWordsDecode : Obligations.WrittenWordsDecode := by
  unfold Obligations.WrittenWordsDecode
  decide

/-! ### What is decoded is well formed -/

theorem wellFormed_busForm (b : Byte) (fl : FlushArgs) : WellFormed (busForm b fl) := by
  unfold busForm latchForm
  split
  · split <;> trivial
  · trivial

theorem atMost_eq_ok {k : Nat} {ops : List Int} {i j : Instr} (h : atMost k ops i = .ok j) : j = i := by
  unfold atMost at h
  split at h <;> cases h
  rfl

theorem withBracket_eq_ok {ops : List Int} {mk : FlushArgs → Instr} {i : Instr} (h : withBracket ops mk = .ok i) :
    ∃ fl, i = mk fl := by
  unfold withBracket at h
  split at h
  · cases h
  · split at h <;> cases h
    exact ⟨_, rfl⟩

theorem withNatural_eq_ok {ops : List Int} {mk : Nat → Instr} {i : Instr} (h : withNatural ops mk = .ok i) :
    ∃ n, i = mk n := by
  unfold withNatural at h
  split at h
  · cases h
  · exact ⟨_, atMost_eq_ok h⟩

theorem decodeRestore_eq_ok {ops : List Int} {i : Instr} (h : decodeRestore ops = .ok i) : ∃ r fl, i = .restore r fl := by
  unfold decodeRestore at h
  split at h
  · cases h
  · split at h <;> cases h
    exact ⟨_, _, rfl⟩

theorem wellFormed_of_decodeExtAdd {ops : List Int} {i : Instr} (h : decodeExtAdd ops = .ok i) : WellFormed i := by
  unfold decodeExtAdd at h
  split at h
  · cases h
  split at h
  · cases h
  next hL =>
    split at h
    · cases h
    next hR =>
      rw [atMost_eq_ok h]
      exact ⟨not_not.mp hL, not_not.mp hR⟩

/-- The decoder answers well-formed transactions only: it refuses an amount of `EXT_ADD` outside `i32` (R145). -/
theorem wellFormed_of_decode {q : Request} {i : Instr} (h : decode q = .ok i) : WellFormed i := by
  unfold decode at h
  split at h
  · cases h
  split at h
  · obtain ⟨fl, rfl⟩ := withBracket_eq_ok h
    exact wellFormed_busForm _ fl
  · obtain ⟨fl, rfl⟩ := withBracket_eq_ok h
    trivial
  · exact wellFormed_of_decodeExtAdd h
  · obtain ⟨n, rfl⟩ := withNatural_eq_ok h
    trivial
  · obtain ⟨n, rfl⟩ := withNatural_eq_ok h
    trivial
  · rw [atMost_eq_ok h]
    trivial
  · rw [atMost_eq_ok h]
    trivial
  · obtain ⟨r, fl, rfl⟩ := decodeRestore_eq_ok h
    trivial
  · rw [atMost_eq_ok h]
    trivial
  · rw [atMost_eq_ok h]
    trivial
  · rw [atMost_eq_ok h]
    trivial
  · cases h

end Sys2Proof

namespace Sys2Proof.Machine

/-! ### One step -/

theorem step_of_nil {s : State} (h : s.pending = []) : step s = .next s := by
  unfold step
  rw [h]

theorem step_of_decoded {s : State} {q : Request} {rest : List Request} {i : Instr} (hp : s.pending = q :: rest)
    (hd : decode q = .ok i) : step s = exec i (s.setPending rest) := by
  unfold step
  rw [hp]
  simp only [hd]

theorem step_of_undecodable {s : State} {q : Request} {rest : List Request} {e : DecodeError}
    (hp : s.pending = q :: rest) (hd : decode q = .error e) : step s = .refused (.undecodable e) := by
  unfold step
  rw [hp]
  simp only [hd]

/-- Settles O5: what the decoder answers is well formed, and the step performs it. -/
theorem stepRunsDecodedTransaction : Obligations.StepRunsDecodedTransaction :=
  fun _ _ _ _ hp hd => ⟨wellFormed_of_decode hd, step_of_decoded hp hd⟩

/-- Settles O6, which is `step_of_nil`. -/
theorem stepWithoutTransactionIdles : Obligations.StepWithoutTransactionIdles := fun _ => step_of_nil

/-! ### No meaning refuses -/

theorem whenConfigured_ne_refused {i : Instr} {s : State} {k : State → Out} (hk : ∀ r, k s ≠ .refused r) (r : Refusal) :
    whenConfigured i s k ≠ .refused r := by
  unfold whenConfigured
  split
  · exact hk r
  · simp

theorem exec_flushing_ne_refused {i : Instr} {fl : FlushArgs} (h : flushArgsOf i = some fl) (s : State) (r : Refusal) :
    exec i s ≠ .refused r := by
  rw [exec_flushing h]
  exact whenConfigured_ne_refused (fun r => andThen_ne_refused (flush_ne_refused fl s) (fun _ _ => by simp)) r

/-- Every instruction has a meaning: it completes or faults. -/
theorem exec_ne_refused (i : Instr) (s : State) (r : Refusal) : exec i s ≠ .refused r := by
  cases i with
  | extAdd i dL dR =>
    rw [exec, execExtAdd]
    split
    · simp
    · exact addBoth_ne_refused i dL dR s r
  | drainStereo len =>
    rw [exec, execDrainStereo]
    split <;> simp
  | drainMono len =>
    rw [exec, execDrainMono]
    split
    · simp
    · split <;> simp
  | config clk rate =>
    rw [exec, execConfig]
    split <;> simp
  | save =>
    rw [exec, execSave]
    exact whenConfigured_ne_refused (fun _ => by simp) r
  | dbgGetReg i =>
    rw [exec, execDbgGetReg]
    refine whenConfigured_ne_refused (fun _ => ?_) r
    split <;> simp
  | dbgSetReg i v =>
    rw [exec, execDbgSetReg]
    refine whenConfigured_ne_refused (fun _ => ?_) r
    split <;> simp
  | dbgGetLatch =>
    rw [exec, execDbgGetLatch]
    exact whenConfigured_ne_refused (fun _ => by simp) r
  | _ => exact exec_flushing_ne_refused rfl s r

/-- Settles O7: with nothing presented the step idles, and a decoded transaction is never refused, so what was refused did
not decode. -/
theorem stepRefusesOnlyUndecodable : Obligations.StepRefusesOnlyUndecodable := by
  intro s r hstep
  cases hp : s.pending with
  | nil => rw [step_of_nil hp] at hstep; cases hstep
  | cons q rest =>
    cases hd : decode q with
    | ok i =>
      rw [step_of_decoded hp hd] at hstep
      exact absurd hstep (exec_ne_refused i _ r)
    | error e =>
      rw [step_of_undecodable hp hd] at hstep
      cases hstep
      exact ⟨q, rest, e, rfl, hd, rfl⟩

end Sys2Proof.Machine
end

section
/-! The frame of each kind of transaction: the flushing ones, CONFIG, and the others (10_state.md R15 to R19, 20_memory.md R53). -/

namespace Sys2Proof.Machine

/-! ### What a completed flush leaves alone -/

theorem Flushed.config {fl : FlushArgs} {s u : State} (h : Flushed fl s u) : u.config = s.config := by rw [h.1]
theorem Flushed.configured {fl : FlushArgs} {s u : State} (h : Flushed fl s u) : u.configured = s.configured := by rw [h.1]
theorem Flushed.lfsrMask {fl : FlushArgs} {s u : State} (h : Flushed fl s u) : u.lfsrMask = s.lfsrMask := by rw [h.1]
theorem Flushed.latch {fl : FlushArgs} {s u : State} (h : Flushed fl s u) : u.latch = s.latch := by rw [h.1]
theorem Flushed.lfsr {fl : FlushArgs} {s u : State} (h : Flushed fl s u) : u.lfsr = (s.noiseEnd fl.n).2 := by rw [h.1]
theorem Flushed.cur {fl : FlushArgs} {s u : State} (h : Flushed fl s u) : u.cur = fl.p.or s.cur := by rw [h.1]
theorem Flushed.counter {fl : FlushArgs} {s u : State} (h : Flushed fl s u) :
    u.counter = ⟨s.tonePhase .t0 fl.n, s.tonePhase .t1 fl.n, s.tonePhase .t2 fl.n, (s.noiseEnd fl.n).1⟩ := by rw [h.1]

/-! ### What a register effect leaves alone -/

theorem RegEffect.counter_eq {e : State → State} (h : RegEffect e) (s : State) : (e s).counter = s.counter := by
  rw [h.frame]

theorem RegEffect.cell_eq {e : State → State} (h : RegEffect e) (s : State) (side : Side) (j : Nat) :
    (e s).cell side j = s.cell side j := by
  rw [h.frame]
  cases side <;> rfl

/-! ### The three kinds of transactions -/

/-- A flushing transaction writes registers, derived elements, phases, shift register, cursor and cells only. -/
theorem flushing_frame {i : Instr} {fl : FlushArgs} (hf : flushArgsOf i = some fl) {s t : State} (h : exec i s = .next t) :
    t = { s with
      reg := t.reg, latch := t.latch, volume := t.volume, cntStep := t.cntStep, counter := t.counter, lfsr := t.lfsr,
      lfsrMask := t.lfsrMask, cur := t.cur, accL := t.accL, accR := t.accR } := by
  obtain ⟨-, u, -, -, ⟨hu, -⟩, rfl⟩ := flushing_eq_next hf h
  have he := (effectOf_regEffect i).frame u
  generalize effectOf i u = t at he ⊢
  rw [hu] at he
  rw [he]

/-- `CONFIG` completes for the operands that R176 accepts, and its state is then `configure`. -/
theorem exec_config_eq_next {c r : Int} {s t : State} :
    exec (.config c r) s = .next t ↔ configAccepts c r ∧ t = configure c r s := by
  rw [exec, execConfig]
  split
  next h => exact ⟨fun e => by cases e; exact ⟨h, rfl⟩, fun e => by rw [e.2]⟩
  next h => exact ⟨(nomatch ·), fun e => absurd e.1 h⟩

/-- Every other transaction writes the cells and hands results to the host, nothing else. -/
theorem quiet_frame {i : Instr} (hf : flushArgsOf i = none) (hc : ¬ IsConfig i) {s t : State} (h : exec i s = .next t) :
    t = { s with accL := t.accL, accR := t.accR, returned := t.returned } ∧ s.returned <+: t.returned := by
  obtain ⟨c, r, rfl, -, -⟩ | ⟨-, -, res, rfl⟩ | ⟨ix, dL, dR, -, -, hadd⟩ | ⟨-, -, len, res, rfl⟩ := not_flushing_next hf h
  · exact absurd ⟨c, r, rfl⟩ hc
  · exact ⟨rfl, List.prefix_append _ _⟩
  · obtain ⟨-, -, rfl⟩ := addBoth_eq_next.mp hadd
    exact ⟨rfl, List.prefix_rfl⟩
  · exact ⟨rfl, List.prefix_append _ _⟩

/-- All transactions but `CONFIG` together: parameters, tables, configuration and presented transactions stay. -/
theorem not_config_frame {i : Instr} (hc : ¬ IsConfig i) {s t : State} (h : exec i s = .next t) :
    t = { s with
      reg := t.reg, latch := t.latch, volume := t.volume, cntStep := t.cntStep, counter := t.counter, lfsr := t.lfsr,
      lfsrMask := t.lfsrMask, cur := t.cur, accL := t.accL, accR := t.accR, returned := t.returned } := by
  cases hf : flushArgsOf i with
  | some fl =>
    have ht := flushing_frame hf h
    rw [ht]
  | none =>
    obtain ⟨ht, -⟩ := quiet_frame hf hc h
    rw [ht]

/-- Settles O11: `CONFIG` keeps the parameters, and `not_config_frame` says the rest. -/
theorem onlyConfigWritesTables : Obligations.OnlyConfigWritesTables := by
  intro i s t h
  by_cases hc : IsConfig i
  · obtain ⟨c, r, rfl⟩ := hc
    obtain ⟨-, rfl⟩ := exec_config_eq_next.mp h
    exact ⟨rfl, fun hn => absurd ⟨c, r, rfl⟩ hn⟩
  · rw [not_config_frame hc h]
    exact ⟨rfl, fun _ => ⟨rfl, rfl, rfl, rfl, rfl, rfl⟩⟩

/-- Settles O14: the flush puts the cursor at its position and the register effect leaves it there. -/
theorem cursorWritersAreFlushAndConfig : Obligations.CursorWritersAreFlushAndConfig := by
  intro i s t h
  refine ⟨?_, fun hc => ?_⟩
  · rintro ⟨c, r, rfl⟩
    obtain ⟨-, rfl⟩ := exec_config_eq_next.mp h
    rfl
  · cases hf : flushArgsOf i with
    | some fl =>
      obtain ⟨-, u, -, -, hu, rfl⟩ := flushing_eq_next hf h
      rw [(effectOf_regEffect i).cur, hu.cur]
    | none => rw [(quiet_frame hf hc h).1]

/-- Settles O15: the flush leaves the phases of `Flushed` and the register effect leaves them there. -/
theorem onlyFlushAdvancesPhases : Obligations.OnlyFlushAdvancesPhases := by
  intro i s t h hc
  cases hf : flushArgsOf i with
  | some fl =>
    obtain ⟨-, u, -, -, hu, rfl⟩ := flushing_eq_next hf h
    exact ((effectOf_regEffect i).counter_eq u).trans hu.counter
  | none =>
    obtain ⟨ht, -⟩ := quiet_frame hf hc h
    exact ⟨by rw [ht], by rw [ht]⟩

/-- Settles O16: only the transactions that neither flush nor configure hand anything over, and they add it at the end. -/
theorem hostSideOnlyGrows : Obligations.HostSideOnlyGrows := by
  intro i s t h
  by_cases hc : IsConfig i
  · obtain ⟨c, r, rfl⟩ := hc
    obtain ⟨-, rfl⟩ := exec_config_eq_next.mp h
    exact ⟨rfl, List.prefix_rfl⟩
  · cases hf : flushArgsOf i with
    | some fl =>
      rw [flushing_frame hf h]
      exact ⟨rfl, List.prefix_rfl⟩
    | none =>
      obtain ⟨ht, hgrows⟩ := quiet_frame hf hc h
      exact ⟨by rw [ht], hgrows⟩

end Sys2Proof.Machine
end

section
/-! Every step keeps the invariant (10_state.md R26, R28; 20_memory.md R53). -/

namespace Sys2Proof.Machine

/-- Clearing keeps the arrays in form. -/
theorem accForm_clearCells {s : State} (h : AccForm s) (len : Nat) : AccForm (clearCells len s) := by
  obtain ⟨⟨hlw, hli⟩, hrw, hri⟩ := h
  exact ⟨⟨Memory.wf_clearBelow _ hlw, Memory.within_clearBelow _ hli⟩,
    Memory.wf_clearBelow _ hrw, Memory.within_clearBelow _ hri⟩

theorem Inv.accForm {s : State} (h : Inv s) : AccForm s := h.2.1

theorem Inv.tablesCurrent {s : State} (h : Inv s) (hc : s.configured = true) : TablesCurrent s := (h.2.2 hc).1

theorem Inv.derived {s : State} (h : Inv s) (hc : s.configured = true) : Derived s := (h.2.2 hc).2

/-- The invariant does not look at the phases, the shift register, the cursor and the host's side, and at the cells only
for their form. -/
theorem Inv.of_accForm {s t : State} (h : Inv s) (ha : AccForm t)
    (ht : t = { s with counter := t.counter, lfsr := t.lfsr, cur := t.cur, accL := t.accL, accR := t.accR,
                       pending := t.pending, returned := t.returned }) : Inv t := by
  obtain ⟨hvalid, -, hconfigured⟩ := h
  rw [ht] at ha ⊢
  exact ⟨hvalid, ha, hconfigured⟩

theorem flush_keeps_inv {fl : FlushArgs} {s u : State} (h : Inv s) (hu : flush fl s = .next u) : Inv u := by
  obtain ⟨-, hflushed⟩ := flush_eq_next hu
  refine h.of_accForm (flush_keeps_accForm h.accForm hu) ?_
  rw [hflushed.1]

/-- A register effect that keeps the derived elements current keeps the invariant. -/
theorem Inv.regEffect {e : State → State} {s : State} (he : RegEffect e) (h : Inv s) (hd : Derived s → Derived (e s)) :
    Inv (e s) := by
  obtain ⟨hvalid, hacc, hconfigured⟩ := h
  have hframe := he.frame s
  refine ⟨by rw [hframe]; exact hvalid, by rw [hframe]; exact hacc, fun hc => ?_⟩
  have hs : s.configured = true := by rw [hframe] at hc; exact hc
  exact ⟨by rw [hframe]; exact (hconfigured hs).1, hd (hconfigured hs).2⟩

/-- `CONFIG` derives every element from the registers it sets and the tables it computes. -/
theorem derived_configure (c r : Int) (s : State) : Derived (configure c r s) := by
  have hnoise : (configure c r s).noiseStepFor 0 = (configure c r s).cntStep.q3 := by
    rw [noiseStepFor_eq_ite, if_pos (by decide)]
    rfl
  have hmask : maskFor 0 = 0x0001#16 := by decide
  exact ⟨fun d => by cases d <;> rfl, fun d => by cases d <;> rfl, hnoise.symm, hmask.symm⟩

theorem tablesCurrent_configure {c r : Int} (h : configAccepts c r) (s : State) : TablesCurrent (configure c r s) :=
  ⟨h, rfl, by simp [configure], rfl⟩

theorem configure_keeps_inv {s : State} (h : Inv s) {c r : Int} (hcr : configAccepts c r) : Inv (configure c r s) := by
  obtain ⟨hvalid, hacc, -⟩ := h
  exact ⟨hvalid, hacc, fun _ => ⟨tablesCurrent_configure hcr s, derived_configure c r s⟩⟩

/-- Every transaction keeps the invariant. -/
theorem exec_keeps_inv {i : Instr} {s t : State} (h : Inv s) (ht : exec i s = .next t) : Inv t := by
  cases hf : flushArgsOf i with
  | some fl =>
    obtain ⟨-, u, hu, -, -, rfl⟩ := flushing_eq_next hf ht
    exact (flush_keeps_inv h hu).regEffect (effectOf_regEffect i) (fun hd => derived_effectOf hd i)
  | none =>
    obtain ⟨c, r, -, hcr, rfl⟩ | ⟨-, -, res, rfl⟩ | ⟨ix, dL, dR, -, hix, hadd⟩ | ⟨-, -, len, res, rfl⟩ :=
      not_flushing_next hf ht
    · exact configure_keeps_inv h hcr
    · exact h.of_accForm h.accForm rfl
    · obtain ⟨-, hacc⟩ := addBoth_keeps_accFormAt hix ⟨rfl, h.accForm⟩ hadd
      obtain ⟨-, -, rfl⟩ := addBoth_eq_next.mp hadd
      exact h.of_accForm hacc rfl
    · exact h.of_accForm (accForm_clearCells h.accForm len) rfl

/-- Settles O8: taking a transaction off the presented ones keeps the invariant, and performing it does by `exec_keeps_inv`. -/
theorem stepKeepsInvariant : Obligations.StepKeepsInvariant := by
  intro s t h hstep
  cases hp : s.pending with
  | nil =>
    rw [step_of_nil hp] at hstep
    cases hstep
    exact h
  | cons q rest =>
    cases hd : decode q with
    | ok i =>
      rw [step_of_decoded hp hd] at hstep
      exact exec_keeps_inv (h.of_accForm (t := s.setPending rest) h.accForm rfl) hstep
    | error e =>
      rw [step_of_undecodable hp hd] at hstep
      cases hstep

/-- Settles O10: both sides evaluate to the same record. -/
theorem resetIsAfterConfig : Obligations.ResetIsAfterConfig :=
  ⟨configure 1048576 65536 State.powerOn, exec_config_eq_next.mpr ⟨by decide, rfl⟩, rfl⟩

/-- Settles O9: the reset state has the derived elements and the tables of the `CONFIG` it stands after; the drawn values
that it replaces are read by neither. -/
theorem resetHasInvariant : Obligations.ResetHasInvariant :=
  ⟨Config_default_valid, ⟨⟨Memory.wf_nil, nofun⟩, Memory.wf_nil, nofun⟩, fun _ =>
    ⟨⟨by decide, rfl, rfl, rfl⟩, derived_configure 1048576 65536 State.powerOn⟩⟩

end Sys2Proof.Machine
end

section
/-! The noise register through the transactions (10_state.md R16, R17; 43_noise_generator.md R131, R134). -/

namespace Sys2Proof.Machine

/-! ### The mask and the shift -/

theorem maskFor_cases (d : BitVec 4) : maskFor d = 0x0009 ∨ maskFor d = 0x0001 := by
  unfold maskFor
  split
  · exact .inl rfl
  · exact .inr rfl

/-- Under either mask the parity of the masked bits and the bits that move down tell whether any bit is set. -/
theorem shiftLfsr_ne_zero {l m : U16} (hm : m = 0x0009 ∨ m = 0x0001) (hl : l ≠ 0) : shiftLfsr l m ≠ 0 := by
  intro hzero
  have hbit : ∀ k < 16, (if k = 15 then parity (l &&& m) else l.getLsbD (k + 1)) = false := fun k hk => by
    rw [← shiftLfsr_getLsbD l m hk, hzero]
    exact BitVec.getLsbD_zero
  have hhigh : ∀ k, k < 15 → l.getLsbD (k + 1) = false := fun k hk => by
    have := hbit k (by omega)
    rwa [if_neg (by omega)] at this
  have hlow : l.getLsbD 0 = false := by
    have hparity : parity (l &&& m) = false := hbit 15 (by omega)
    obtain rfl | rfl := hm
    · rwa [parity_and_white, hhigh 2 (by omega), Bool.xor_false] at hparity
    · rwa [parity_and_periodic] at hparity
  refine hl (BitVec.eq_of_getLsbD_eq fun k hk => Eq.trans ?_ BitVec.getLsbD_zero.symm)
  cases k with
  | zero => exact hlow
  | succ k => exact hhigh k (by omega)

theorem noiseRun_lfsr_ne_zero {s : State} (hm : s.lfsrMask = 0x0009 ∨ s.lfsrMask = 0x0001) (hl : s.lfsr ≠ 0) (k : Nat) :
    (s.noiseRun k).2 ≠ 0 := by
  induction k with
  | zero => exact hl
  | succ k ih =>
    simp only [State.noiseRun]
    split
    · exact shiftLfsr_ne_zero hm ih
    · exact ih

theorem noiseEnd_lfsr_ne_zero {s : State} (hm : s.lfsrMask = 0x0009 ∨ s.lfsrMask = 0x0001) (hl : s.lfsr ≠ 0) (n : Nat) :
    (s.noiseEnd n).2 ≠ 0 := by
  unfold State.noiseEnd
  split
  · exact hl
  · exact noiseRun_lfsr_ne_zero hm hl n

/-! ### What the register effects do to them -/

/-- Shift register and mask both as they were, or both as a write of the noise register leaves them (R82). -/
def NoiseKeptOrRestarted (s t : State) : Prop :=
  (t.lfsr = s.lfsr ∧ t.lfsrMask = s.lfsrMask) ∨ (t.lfsr = 0x8000 ∧ ∃ d, t.lfsrMask = maskFor d)

/-- A tone write changes steps only. -/
theorem effTone_frame (c : ToneCh) (s : State) : effTone c s = { s with cntStep := (effTone c s).cntStep } := by
  unfold effTone
  dsimp only
  split <;> rfl

theorem effTone_noise (c : ToneCh) (s : State) : NoiseKeptOrRestarted s (effTone c s) := by
  rw [effTone_frame]
  exact .inl ⟨rfl, rfl⟩

theorem writeNoise_noise (d : BitVec 4) (s : State) : NoiseKeptOrRestarted s (writeNoise d s) := .inr ⟨rfl, d, rfl⟩

theorem writeVol_noise (c : Chan) (d : BitVec 4) (s : State) : NoiseKeptOrRestarted s (writeVol c d s) := .inl ⟨rfl, rfl⟩

theorem latchEffect_noiseKeptOrRestarted (r : BitVec 3) (d4 : BitVec 4) (s : State) :
    NoiseKeptOrRestarted s (latchEffect r d4 s) := by
  unfold latchEffect
  split
  · exact effTone_noise _ _
  · exact writeNoise_noise _ _
  · exact writeVol_noise _ _ _

theorem dataEffect_noiseKeptOrRestarted (d6 : BitVec 6) (s : State) : NoiseKeptOrRestarted s (dataEffect d6 s) := by
  unfold dataEffect
  split
  · exact effTone_noise _ _
  · exact writeNoise_noise _ _
  · exact writeVol_noise _ _ _

theorem effectOf_noiseKeptOrRestarted {i : Instr} (h : ¬ IsRestore i) (s : State) :
    NoiseKeptOrRestarted s (effectOf i s) := by
  cases i with
  | latchTone0 d _ | latchVol0 d _ | latchTone1 d _ | latchVol1 d _ | latchTone2 d _ | latchVol2 d _ | latchNoise d _
  | latchVol3 d _ => exact latchEffect_noiseKeptOrRestarted _ d s
  | data _ d _ => exact dataEffect_noiseKeptOrRestarted d s
  | restore r fl => exact absurd ⟨r, fl, rfl⟩ h
  | _ => exact .inl ⟨rfl, rfl⟩

/-- `RESTORE` writes the noise register last but one, so the mask is the one that the record's value selects. -/
theorem restoreEffect_lfsrMask (r : SaveRecord) (s : State) :
    (restoreEffect r s).lfsrMask = maskFor (BitVec.ofNat 4 r.toneReg.q3) := by
  rw [restoreEffect, State.setLfsr_lfsrMask, restoreBytes_effect]

/-- Settles O12: a flush keeps the mask, and every register effect keeps it or selects one of the two. -/
theorem maskStaysWhiteOrPeriodic : Obligations.MaskStaysWhiteOrPeriodic := by
  intro i s t hm h
  by_cases hc : IsConfig i
  · obtain ⟨c, r, rfl⟩ := hc
    obtain ⟨-, rfl⟩ := exec_config_eq_next.mp h
    exact .inr rfl
  · cases hf : flushArgsOf i with
    | none =>
      rw [(quiet_frame hf hc h).1]
      exact hm
    | some fl =>
      obtain ⟨-, u, -, -, hu, rfl⟩ := flushing_eq_next hf h
      by_cases hr : IsRestore i
      · obtain ⟨r, fl, rfl⟩ := hr
        exact restoreEffect_lfsrMask r u ▸ maskFor_cases _
      · obtain ⟨-, hkept⟩ | ⟨-, d, hset⟩ := effectOf_noiseKeptOrRestarted hr u
        · rw [hkept, hu.lfsrMask]
          exact hm
        · exact hset ▸ maskFor_cases d

/-- Settles O13: a flush shifts, and the shift keeps a set bit under either mask; every register effect but `RESTORE`'s keeps
the register or sets it to 0x8000. -/
theorem onlyRestoreZeroesLfsr : Obligations.OnlyRestoreZeroesLfsr := by
  intro i s t hm hl hr h
  by_cases hc : IsConfig i
  · obtain ⟨c, r, rfl⟩ := hc
    obtain ⟨-, rfl⟩ := exec_config_eq_next.mp h
    exact (by decide : 0x8000#16 ≠ 0)
  · cases hf : flushArgsOf i with
    | none =>
      rw [(quiet_frame hf hc h).1]
      exact hl
    | some fl =>
      obtain ⟨-, u, -, -, hu, rfl⟩ := flushing_eq_next hf h
      obtain ⟨hkept, -⟩ | ⟨hset, -⟩ := effectOf_noiseKeptOrRestarted hr u
      · rw [hkept, hu.lfsr]
        exact noiseEnd_lfsr_ne_zero hm hl fl.n
      · rw [hset]
        decide

/-! ### The periodic sequence -/

/-- One shift of the single bit at place `15 - j`: one place down, and from place 0 back to the top. -/
theorem shiftLfsr_singleBit : ∀ j < 16, shiftLfsr (0x8000#16 >>> j) 0x0001 = 0x8000#16 >>> ((j + 1) % 16) := by
  decide

/-- Settles O27: by induction, one shift at a time. -/
theorem periodicNoiseRotates : Obligations.PeriodicNoiseRotates := by
  intro k
  induction k with
  | zero => rfl
  | succ k ih =>
    rw [Function.iterate_succ_apply', ih, shiftLfsr_singleBit _ (Nat.mod_lt k (by decide)), Nat.mod_add_mod]

end Sys2Proof.Machine
end

section
/-! Bits 31:17 of the phase accumulators are not observed (10_state.md R15). -/

namespace Sys2Proof.Machine

/-- What completes without flushing neither reads nor writes the phases, `CONFIG` apart. -/
theorem quiet_counter {i : Instr} (hf : flushArgsOf i = none) (hc : ¬ IsConfig i) {s t : State} (h : exec i s = .next t)
    (v : Quad U32) : exec i { s with counter := v } = .next { t with counter := v } := by
  cases i with
  | config c r => exact absurd ⟨c, r, rfl⟩ hc
  | extAdd ix dL dR =>
    rw [exec, execExtAdd] at h ⊢
    split at h
    · cases h
    next hix =>
      obtain ⟨hL, hR, rfl⟩ := addBoth_eq_next.mp h
      rw [if_neg hix]
      exact addBoth_eq_next.mpr ⟨hL, hR, rfl⟩
  | drainStereo len =>
    rw [exec, execDrainStereo] at h ⊢
    split at h <;> cases h
    next hlen =>
      rw [if_neg hlen]
      rfl
  | drainMono len =>
    rw [exec, execDrainMono] at h ⊢
    split at h
    · cases h
    next hlen =>
      have hsame : firstMonoOverflow { s with counter := v } len = firstMonoOverflow s len := rfl
      rw [if_neg hlen, hsame]
      split at h <;> cases h
      rfl
  | save =>
    rw [exec, execSave, whenConfigured_eq_next] at h ⊢
    obtain ⟨hs, h⟩ := h
    cases h
    exact ⟨hs, rfl⟩
  | dbgGetReg ix =>
    rw [exec, execDbgGetReg, whenConfigured_eq_next] at h ⊢
    refine ⟨h.1, ?_⟩
    obtain ⟨-, h⟩ := h
    split at h <;> cases h <;> rfl
  | dbgSetReg ix v =>
    rw [exec, execDbgSetReg, whenConfigured_eq_next] at h ⊢
    refine ⟨h.1, ?_⟩
    obtain ⟨-, h⟩ := h
    split at h <;> cases h
    rfl
  | dbgGetLatch =>
    rw [exec, execDbgGetLatch, whenConfigured_eq_next] at h ⊢
    obtain ⟨hs, h⟩ := h
    cases h
    exact ⟨hs, rfl⟩
  | _ => cases hf

/-- `CONFIG` sets the phases, so the states it leaves are equal. -/
theorem configure_counter (c r : Int) (s : State) (v : Quad U32) : configure c r { s with counter := v } = configure c r s :=
  rfl

theorem SamePhaseBits.refl (s : State) : SamePhaseBits s s := ⟨fun _ => rfl, rfl⟩

/-- A register effect does not look at the phases. -/
theorem SamePhaseBits.regEffect {e : State → State} (he : RegEffect e) {s s' : State} (h : SamePhaseBits s s') :
    SamePhaseBits (e s) (e s') := by
  obtain ⟨v, rfl, hv⟩ := samePhaseBits_iff.mp h
  exact samePhaseBits_iff.mpr ⟨v, he.counter s v, fun c => by rw [he.counter_eq]; exact hv c⟩

/-- Settles O17: a flush runs alike in both states by `samePhaseBits_runsAlike` and the effect after it does not look at the
phases; the other transactions do not either. -/
theorem highPhaseBitsUnobservable : Obligations.HighPhaseBitsUnobservable := by
  intro i s s' t hs h
  cases hf : flushArgsOf i with
  | some fl =>
    obtain ⟨hc, u, hu, -, -, rfl⟩ := flushing_eq_next hf h
    obtain ⟨u', hu', hsame⟩ := samePhaseBits_runsAlike.flush fl s s' u hs hu
    have hc' : s'.configured = true := by rw [hs.2]; exact hc
    refine ⟨effectOf i u', ?_, hsame.regEffect (effectOf_regEffect i)⟩
    rw [exec_flushing hf, whenConfigured_true hc', hu', andThen_next]
  | none =>
    obtain ⟨v, rfl, hv⟩ := samePhaseBits_iff.mp hs
    by_cases hc : IsConfig i
    · obtain ⟨c, r, rfl⟩ := hc
      obtain ⟨haccepts, rfl⟩ := exec_config_eq_next.mp h
      exact ⟨_, exec_config_eq_next.mpr ⟨haccepts, rfl⟩, by rw [configure_counter]; exact .refl _⟩
    · have hcounter : t.counter = s.counter := by rw [(quiet_frame hf hc h).1]
      exact ⟨_, quiet_counter hf hc h v, samePhaseBits_iff.mpr ⟨v, rfl, fun c => by rw [hcounter]; exact hv c⟩⟩

end Sys2Proof.Machine
end

section
/-! What the PSG adds to the cells, and the check of the configured flag (44_accumulator.md R140, R148; 60_exceptions.md
R201). -/

namespace Sys2Proof.Machine

/-! ### The bound on what a flush adds -/

theorem toneGain_le (s : State) (c : ToneCh) (k : Nat) : s.toneGain c k ≤ (s.volume.get c.chan).toNat := by
  unfold State.toneGain
  split
  · split
    · exact le_refl _
    · exact Nat.zero_le _
  · exact le_refl _

theorem noiseGain_le (s : State) (k : Nat) : s.noiseGain k ≤ s.volume.q3.toNat := by
  unfold State.noiseGain
  split
  · exact le_refl _
  · exact Nat.zero_le _

theorem gain_le (s : State) (k : Nat) :
    s.gain k ≤ s.volume.q0.toNat + s.volume.q1.toNat + s.volume.q2.toNat + s.volume.q3.toNat := by
  have h0 : s.toneGain .t0 k ≤ s.volume.q0.toNat := toneGain_le s .t0 k
  have h1 : s.toneGain .t1 k ≤ s.volume.q1.toNat := toneGain_le s .t1 k
  have h2 : s.toneGain .t2 k ≤ s.volume.q2.toNat := toneGain_le s .t2 k
  have h3 := noiseGain_le s k
  unfold State.gain
  omega

/-- What a completed flush adds to a cell of either array: a gain in its range, and nothing outside. -/
theorem Flushed.cell_toInt {fl : FlushArgs} {s u : State} (h : Flushed fl s u) (side : Side) (j : Nat) :
    (u.cell side j).toInt = (s.cell side j).toInt +
      ((if s.cur.getD 0 ≤ j ∧ j < s.cur.getD 0 + fl.n then s.gain (j - s.cur.getD 0) else 0 : Nat) : Int) := by
  rw [h.2 side j]
  split <;> rfl

/-- Off the accumulator, a transaction that does not flush leaves the cells alone. -/
theorem quiet_cell {i : Instr} (hf : flushArgsOf i = none) (ha : ¬ OnAccumulatorOnly i) {s t : State}
    (h : exec i s = .next t) (side : Side) (j : Nat) : t.cell side j = s.cell side j := by
  obtain ⟨c, r, rfl, -, rfl⟩ | ⟨-, -, res, rfl⟩ | ⟨ix, dL, dR, rfl, -, -⟩ | ⟨-, hon, -⟩ := not_flushing_next hf h
  · cases side <;> rfl
  · exact State.give_cell s res side j
  · exact absurd (.inl ⟨ix, dL, dR, rfl⟩) ha
  · exact absurd hon ha

/-- Settles O18: the amount is that of the flush, which does not depend on the side; the register effect adds nothing. -/
theorem psgAddsAlikeOnBothSides : Obligations.PsgAddsAlikeOnBothSides := by
  intro i s t ha h j
  cases hf : flushArgsOf i with
  | none =>
    refine ⟨0, ?_, ?_, Nat.zero_le _⟩
    · rw [quiet_cell hf ha h]; simp
    · rw [quiet_cell hf ha h]; simp
  | some fl =>
    obtain ⟨-, u, -, -, hu, rfl⟩ := flushing_eq_next hf h
    have he := effectOf_regEffect i
    refine ⟨_, (he.cell_eq u .left j).symm ▸ hu.cell_toInt .left j, (he.cell_eq u .right j).symm ▸ hu.cell_toInt .right j, ?_⟩
    split
    · exact gain_le s _
    · exact Nat.zero_le _

/-! ### The configured flag -/

theorem flush_ne_notConfigured (fl : FlushArgs) (s : State) (j : Instr) : flush fl s ≠ .fault (.notConfigured j) := by
  by_cases hr : FlushReady fl s
  · obtain ⟨t, ht, -⟩ := flush_next hr
    simp [ht]
  · obtain ⟨-, hf⟩ | ⟨i, -, -, hf⟩ | ⟨i, c, k, side, u, -, -, -, hf, -⟩ := flush_fault hr <;> simp [hf]

theorem addCell_ne_notConfigured (side : Side) (i : Nat) (d : Int) (s : State) (j : Instr) :
    addCell side i d s ≠ .fault (.notConfigured j) := by
  unfold addCell
  split <;> simp

theorem addBoth_ne_notConfigured (i : Nat) (dL dR : Int) (s : State) (j : Instr) :
    addBoth i dL dR s ≠ .fault (.notConfigured j) := by
  rw [addBoth, ne_eq, andThen_eq_fault]
  rintro (h | ⟨u, -, h⟩)
  · exact addCell_ne_notConfigured _ _ _ _ _ h
  · exact addCell_ne_notConfigured _ _ _ _ _ h

/-- A transaction on the PSG part is the check and then something that does not raise NotConfigured again. -/
theorem exec_psg {i : Instr} (h : NeedsConfig i = true) :
    ∃ k : State → Out, (∀ s, exec i s = whenConfigured i s k) ∧ ∀ s j, k s ≠ .fault (.notConfigured j) := by
  cases i with
  | extAdd ix dL dR => cases h
  | drainStereo len => cases h
  | drainMono len => cases h
  | config c r => cases h
  | save => exact ⟨_, fun _ => rfl, by simp⟩
  | dbgGetReg ix =>
    refine ⟨_, fun _ => rfl, fun s j => ?_⟩
    split <;> simp
  | dbgSetReg ix v =>
    refine ⟨_, fun _ => rfl, fun s j => ?_⟩
    split <;> simp
  | dbgGetLatch => exact ⟨_, fun _ => rfl, by simp⟩
  | _ =>
    refine ⟨_, exec_flushing rfl, fun s j hfault => ?_⟩
    obtain hflush | ⟨u, -, heffect⟩ := andThen_eq_fault.mp hfault
    · exact flush_ne_notConfigured _ s j hflush
    · cases heffect

/-- `CONFIG` and the transactions on the accumulator alone do not look at the flag. -/
theorem exec_ne_notConfigured {i : Instr} (h : NeedsConfig i = false) (s : State) (j : Instr) :
    exec i s ≠ .fault (.notConfigured j) := by
  cases i with
  | extAdd ix dL dR =>
    rw [exec, execExtAdd]
    split
    · simp
    · exact addBoth_ne_notConfigured _ _ _ _ _
  | drainStereo len =>
    rw [exec, execDrainStereo]
    split <;> simp
  | drainMono len =>
    rw [exec, execDrainMono]
    split
    · simp
    · split <;> simp
  | config c r =>
    rw [exec, execConfig]
    split <;> simp
  | _ => cases h

/-- Settles O19: the fault comes from the check at the head of a PSG transaction, and from nothing else. -/
theorem unconfiguredPsgFaults : Obligations.UnconfiguredPsgFaults := by
  intro i j s
  cases hn : NeedsConfig i with
  | false => exact ⟨fun h => absurd h (exec_ne_notConfigured hn s j), fun h => nomatch h.2.1⟩
  | true =>
    obtain ⟨k, hexec, hk⟩ := exec_psg hn
    rw [hexec]
    cases hc : s.configured with
    | false =>
      rw [whenConfigured_false hc]
      exact ⟨fun h => by cases h; exact ⟨rfl, rfl, rfl⟩, fun h => by rw [h.1]⟩
    | true =>
      rw [whenConfigured_true hc]
      exact ⟨fun h => absurd h (hk s j), fun h => nomatch h.2.2⟩

end Sys2Proof.Machine
end

section
/-! The flush as a transaction: what it synthesizes and where it faults (44_accumulator.md R142 to R147; 60_exceptions.md
R201, R204). -/

namespace Sys2Proof.Machine

theorem exec_flush {s : State} (hc : s.configured = true) (fl : FlushArgs) : exec (.flush fl) s = flush fl s :=
  whenConfigured_true hc

/-- What a `FLUSH` that completes was and left. -/
theorem exec_flush_eq_next {fl : FlushArgs} {s t : State} (h : exec (.flush fl) s = .next t) :
    s.configured = true ∧ FlushReady fl s ∧ Flushed fl s t := by
  obtain ⟨hc, u, -, hready, hflushed, rfl⟩ := flushing_eq_next (i := .flush fl) rfl h
  exact ⟨hc, hready, hflushed⟩

theorem exec_flush_next {fl : FlushArgs} {s : State} (hc : s.configured = true) (h : FlushReady fl s) :
    ∃ t, exec (.flush fl) s = .next t ∧ Flushed fl s t := by
  rw [exec_flush hc]
  exact flush_next h

/-- Settles O20, which is `exec_flush_next`. -/
theorem flushSynthesizesPending : Obligations.FlushSynthesizesPending := fun _ _ hc h => exec_flush_next hc h

/-- Settles O21, which is `flush_fault` in a configured block. -/
theorem flushFaultsInOrder : Obligations.FlushFaultsInOrder := by
  intro fl s hc h
  rw [exec_flush hc]
  exact flush_fault h

/-! ### Splitting a flush -/

theorem phaseAfter_add (s : State) (c : Chan) (m k : Nat) :
    s.phaseAfter c (m + k) = s.phaseAfter c m + s.cntStep.get c * BitVec.ofNat 32 k := by
  simp only [State.phaseAfter, BitVec.ofNat_add, BitVec.mul_add, BitVec.add_assoc]

/-- `u` stands where `s` stands after a flush of `m` samples, as far as the next samples look. -/
structure StandsAfter (s u : State) (m : Nat) : Prop where
  volume : u.volume = s.volume
  cntStep : u.cntStep = s.cntStep
  lfsrMask : u.lfsrMask = s.lfsrMask
  lfsr : u.lfsr = (s.noiseEnd m).2
  counter : u.counter = ⟨s.tonePhase .t0 m, s.tonePhase .t1 m, s.tonePhase .t2 m, (s.noiseEnd m).1⟩

theorem Flushed.standsAfter {fl : FlushArgs} {s u : State} (h : Flushed fl s u) : StandsAfter s u fl.n where
  volume := by rw [h.1]
  cntStep := by rw [h.1]
  lfsrMask := h.lfsrMask
  lfsr := h.lfsr
  counter := h.counter

namespace StandsAfter

variable {s u : State} {m : Nat}

theorem tone_counter (h : StandsAfter s u m) (c : ToneCh) : u.counter.get c.chan = s.tonePhase c m := by
  rw [h.counter]
  cases c <;> rfl

/-- Where the phase of a tone is not held, its later samples are the later samples of `s`. -/
theorem tone_phaseAfter (h : StandsAfter s u m) {c : ToneCh}
    (hmoves : ¬ (s.volume.get c.chan ≠ 0 ∧ 0x10000 ≤ (s.cntStep.get c.chan).toNat)) (k : Nat) :
    u.phaseAfter c.chan k = s.phaseAfter c.chan (m + k) := by
  rw [phaseAfter_add, State.phaseAfter, h.tone_counter, h.cntStep, State.tonePhase, if_neg hmoves]

theorem toneGain (h : StandsAfter s u m) (c : ToneCh) (k : Nat) : u.toneGain c k = s.toneGain c (m + k) := by
  unfold State.toneGain
  rw [h.cntStep, h.volume]
  split
  next hbelow => rw [h.tone_phaseAfter (fun hheld => by omega), Nat.add_assoc]
  next => rfl

theorem tonePhase (h : StandsAfter s u m) (c : ToneCh) (n : Nat) : u.tonePhase c n = s.tonePhase c (m + n) := by
  unfold State.tonePhase
  rw [h.cntStep, h.volume]
  split
  next hheld => rw [h.tone_counter, State.tonePhase, if_pos hheld]
  next hmoves => exact h.tone_phaseAfter hmoves n

/-- Audible noise goes on from where it stands. -/
theorem noiseRun (h : StandsAfter s u m) (hv : s.volume.q3 ≠ 0) (k : Nat) : u.noiseRun k = s.noiseRun (m + k) := by
  induction k with
  | zero =>
    rw [State.noiseRun, h.counter, h.lfsr, State.noiseEnd, if_neg hv]
    rfl
  | succ k ih =>
    rw [State.noiseRun, ih, h.cntStep, h.lfsrMask]
    rfl

theorem noiseGain (h : StandsAfter s u m) (k : Nat) : u.noiseGain k = s.noiseGain (m + k) := by
  by_cases hv : s.volume.q3 = 0
  · rw [noiseGain_of_muted hv, noiseGain_of_muted (by rw [h.volume]; exact hv)]
  · unfold State.noiseGain
    rw [h.noiseRun hv, h.volume]

theorem noiseEnd (h : StandsAfter s u m) (n : Nat) : u.noiseEnd n = s.noiseEnd (m + n) := by
  by_cases hv : s.volume.q3 = 0
  · have hu : u.volume.q3 = 0 := by rw [h.volume]; exact hv
    have hphase : u.phaseAfter .c3 n = s.phaseAfter .c3 (m + n) := by
      rw [phaseAfter_add, State.phaseAfter, h.counter, h.cntStep, State.noiseEnd, if_pos hv]
      rfl
    rw [State.noiseEnd, State.noiseEnd, if_pos hv, if_pos hu, hphase, h.lfsr, State.noiseEnd, if_pos hv]
  · rw [State.noiseEnd, State.noiseEnd, if_neg hv, if_neg (by rw [h.volume]; exact hv), h.noiseRun hv]

theorem gain (h : StandsAfter s u m) (k : Nat) : u.gain k = s.gain (m + k) := by
  unfold State.gain
  rw [h.toneGain, h.toneGain, h.toneGain, h.noiseGain]

end StandsAfter

theorem flushReady_iff {n : Nat} {p : Option Nat} {s : State} : FlushReady ⟨n, p⟩ s ↔
    n = 0 ∨ ∃ i, s.cur = some i ∧ i + n ≤ s.config.segCap ∧ HasRoom s n i s.gain := Iff.rfl

theorem Flushed.added {n i : Nat} {p : Option Nat} {s u : State} (h : Flushed ⟨n, p⟩ s u) (hi : s.cur = some i) :
    Added s u n i s.gain := by
  have hadded := h.2
  rwa [hi] at hadded

/-- Two completed flushes one after the other are, on phases, shift register, cursor and cells, one of all their samples. -/
theorem Flushed.append {s u t : State} {i n1 n2 p : Nat} (hi : s.cur = some i)
    (h1 : Flushed ⟨n1, some (i + n1)⟩ s u) (h2 : Flushed ⟨n2, some p⟩ u t) : Flushed ⟨n1 + n2, some p⟩ s t := by
  have hs := h1.standsAfter
  have hcu : u.cur = some (i + n1) := h1.cur
  refine ⟨?_, fun side j => ?_⟩
  · rw [h2.1]
    simp only [hs.tonePhase, hs.noiseEnd]
    rw [h1.1]
    rfl
  · rw [h2.added hcu, h1.added hi, hi, Option.getD_some]
    dsimp only
    by_cases hfirst : i ≤ j ∧ j < i + n1
    · rw [if_pos hfirst, if_neg (by omega), if_pos (by omega), Int.add_zero]
    · rw [if_neg hfirst, Int.add_zero]
      by_cases hsecond : i + n1 ≤ j ∧ j < i + n1 + n2
      · rw [if_pos hsecond, if_pos (by omega), hs.gain, show n1 + (j - (i + n1)) = j - i by omega]
      · rw [if_neg hsecond, if_neg (by omega)]

/-- A flush of `n1 + n2` samples is ready where the flush of `n1` is and, after it, the flush of `n2`. -/
theorem flushReady_add_iff {s u : State} {i n1 n2 p : Nat} (hi : s.cur = some i)
    (h1 : Flushed ⟨n1, some (i + n1)⟩ s u) (hr1 : FlushReady ⟨n1, some (i + n1)⟩ s) :
    FlushReady ⟨n1 + n2, some p⟩ s ↔ FlushReady ⟨n2, some p⟩ u := by
  have hs := h1.standsAfter
  have hcu : u.cur = some (i + n1) := h1.cur
  have hcap : u.config.segCap = s.config.segCap := by rw [h1.config]
  have hcell : ∀ side k, (u.cell side (i + n1 + k)).toInt = (s.cell side (i + (n1 + k))).toInt := fun side k => by
    rw [h1.added hi, if_neg (by omega), Int.add_zero, Nat.add_assoc]
  rw [flushReady_iff] at hr1 ⊢
  rw [flushReady_iff]
  constructor
  · rintro (hzero | ⟨i', hi', hle, hroom⟩)
    · exact .inl (by omega)
    · obtain rfl : i = i' := Option.some.inj (hi ▸ hi')
      refine .inr ⟨i + n1, hcu, by omega, fun side k hk => ?_⟩
      rw [hcell, hs.gain]
      exact hroom side (n1 + k) (by omega)
  · rintro (hzero | ⟨i', hi', hle, hroom⟩)
    · obtain rfl : n2 = 0 := hzero
      exact hr1
    · obtain rfl : i + n1 = i' := Option.some.inj (hcu ▸ hi')
      refine .inr ⟨i, hi, by omega, fun side k hk => ?_⟩
      by_cases hfirst : k < n1
      · obtain hzero | ⟨i', hi'', -, hroom1⟩ := hr1
        · exact absurd hzero (by omega)
        · obtain rfl : i = i' := Option.some.inj (hi ▸ hi'')
          exact hroom1 side k hfirst
      · obtain ⟨m, rfl⟩ : ∃ m, k = n1 + m := ⟨k - n1, by omega⟩
        rw [← hcell, ← hs.gain]
        exact hroom side m (by omega)

/-- The flush of fewer samples is ready where that of more is. -/
theorem FlushReady.of_le {s : State} {n m : Nat} {p p' : Option Nat} (h : FlushReady ⟨n, p⟩ s) (hmn : m ≤ n) :
    FlushReady ⟨m, p'⟩ s := by
  rw [flushReady_iff] at h ⊢
  obtain hzero | ⟨i, hi, hle, hroom⟩ := h
  · exact .inl (by omega)
  · exact .inr ⟨i, hi, by omega, fun side k hk => hroom side k (by omega)⟩

/-- With arrays in form, `Flushed` fixes the whole state. -/
theorem Flushed.unique {fl : FlushArgs} {s t t' : State} (h : Flushed fl s t) (h' : Flushed fl s t') (ha : AccForm t)
    (ha' : AccForm t') : t = t' := by
  have hcell : ∀ side j, t.cell side j = t'.cell side j := fun side j =>
    BitVec.eq_of_toInt_eq ((h.2 side j).trans (h'.2 side j).symm)
  obtain ⟨⟨hlw, -⟩, hrw, -⟩ := ha
  obtain ⟨⟨hlw', -⟩, hrw', -⟩ := ha'
  have hl : t.accL = t'.accL := Memory.ext_of_read hlw hlw' (hcell .left)
  have hr : t.accR = t'.accR := Memory.ext_of_read hrw hrw' (hcell .right)
  rw [h.1, h'.1, hl, hr]

theorem exec_flush_keeps_accForm {fl : FlushArgs} {s t : State} (ha : AccForm s) (h : exec (.flush fl) s = .next t) :
    AccForm t := by
  obtain ⟨hc, -, -⟩ := exec_flush_eq_next h
  exact flush_keeps_accForm ha (exec_flush hc fl ▸ h)

/-- Settles O22: readiness splits by `flushReady_add_iff`, what is left is the same by `Flushed.append`, and that fixes the
state because the arrays are in form. -/
theorem flushSplits : Obligations.FlushSplits := by
  intro s t i n1 n2 p ha hc hi
  constructor
  · intro h
    obtain ⟨-, hready, hflushed⟩ := exec_flush_eq_next h
    have hr1 : FlushReady ⟨n1, some (i + n1)⟩ s := hready.of_le (by omega)
    obtain ⟨u, hu, hfu⟩ := exec_flush_next hc hr1
    obtain ⟨t', ht', hft'⟩ := exec_flush_next (hfu.configured.trans hc) ((flushReady_add_iff hi hfu hr1).mp hready)
    have heq : t' = t := (hfu.append hi hft').unique hflushed
      (exec_flush_keeps_accForm (exec_flush_keeps_accForm ha hu) ht') (exec_flush_keeps_accForm ha h)
    exact ⟨u, hu, heq ▸ ht'⟩
  · rintro ⟨u, hu, ht⟩
    obtain ⟨-, hr1, hfu⟩ := exec_flush_eq_next hu
    obtain ⟨-, hr2, hft⟩ := exec_flush_eq_next ht
    obtain ⟨t', ht', hft'⟩ := exec_flush_next hc ((flushReady_add_iff hi hfu hr1).mpr hr2)
    have heq : t' = t := hft'.unique (hfu.append hi hft)
      (exec_flush_keeps_accForm ha ht') (exec_flush_keeps_accForm (exec_flush_keeps_accForm ha hu) ht)
    exact heq ▸ ht'

/-! ### Linearity of the mixer -/

/-- The channels outside `a` muted. -/
def State.onlyChannels (a : Chan → Bool) (s : State) : State :=
  { s with volume := ⟨if a .c0 then s.volume.q0 else 0, if a .c1 then s.volume.q1 else 0,
                      if a .c2 then s.volume.q2 else 0, if a .c3 then s.volume.q3 else 0⟩ }

theorem onlyChannels_volume (a : Chan → Bool) (s : State) (c : Chan) :
    (s.onlyChannels a).volume.get c = if a c then s.volume.get c else 0 := by
  cases c <;> rfl

theorem onlyChannels_toneGain (a : Chan → Bool) (s : State) (c : ToneCh) (k : Nat) :
    (s.onlyChannels a).toneGain c k = if a c.chan then s.toneGain c k else 0 := by
  cases ha : a c.chan with
  | false => exact toneGain_of_muted (by rw [onlyChannels_volume, ha]; rfl) k
  | true =>
    have hv : (s.onlyChannels a).volume.get c.chan = s.volume.get c.chan := by rw [onlyChannels_volume, ha]; rfl
    unfold State.toneGain
    rw [hv]
    rfl

theorem onlyChannels_noiseGain (a : Chan → Bool) (s : State) (k : Nat) :
    (s.onlyChannels a).noiseGain k = if a .c3 then s.noiseGain k else 0 := by
  have hv : (s.onlyChannels a).volume.q3 = if a .c3 then s.volume.q3 else 0 := rfl
  cases ha : a .c3 with
  | false => exact noiseGain_of_muted (by rw [hv, ha]; rfl) k
  | true =>
    unfold State.noiseGain
    rw [hv, ha, noiseRun_congr (s := s) (t := s.onlyChannels a) rfl rfl rfl rfl]
    rfl

theorem onlyChannels_toneGain_add (a : Chan → Bool) (s : State) (c : ToneCh) (k : Nat) :
    (s.onlyChannels a).toneGain c k + (s.onlyChannels (fun c => !a c)).toneGain c k = s.toneGain c k := by
  cases ha : a c.chan <;> simp [onlyChannels_toneGain, ha]

theorem onlyChannels_noiseGain_add (a : Chan → Bool) (s : State) (k : Nat) :
    (s.onlyChannels a).noiseGain k + (s.onlyChannels (fun c => !a c)).noiseGain k = s.noiseGain k := by
  cases ha : a .c3 <;> simp [onlyChannels_noiseGain, ha]

/-- What the channels of a set add and what the others add is what all add. -/
theorem onlyChannels_gain_add (a : Chan → Bool) (s : State) (k : Nat) :
    (s.onlyChannels a).gain k + (s.onlyChannels (fun c => !a c)).gain k = s.gain k := by
  have h0 := onlyChannels_toneGain_add a s .t0 k
  have h1 := onlyChannels_toneGain_add a s .t1 k
  have h2 := onlyChannels_toneGain_add a s .t2 k
  have h3 := onlyChannels_noiseGain_add a s k
  unfold State.gain
  omega

/-- Muting the channels outside the complement of `a` is muting those of `a`. -/
theorem onlyChannels_not (a : Chan → Bool) (s : State) : s.onlyChannels (fun c => !a c) = { s with volume :=
    ⟨if a .c0 then 0 else s.volume.q0, if a .c1 then 0 else s.volume.q1,
     if a .c2 then 0 else s.volume.q2, if a .c3 then 0 else s.volume.q3⟩ } := by
  have hswap : ∀ (b : Bool) (x : U32), (if (!b) = true then x else 0) = if b = true then 0 else x := fun b x => by
    cases b <;> rfl
  simp only [State.onlyChannels, hswap]

theorem onlyChannels_cell (a : Chan → Bool) (s : State) (side : Side) (j : Nat) :
    (s.onlyChannels a).cell side j = s.cell side j := by
  cases side <;> rfl

theorem onlyChannels_ready {a : Chan → Bool} {fl : FlushArgs} {s : State} (h : FlushReady fl s)
    (hle : ∀ k, (s.onlyChannels a).gain k ≤ s.gain k) : FlushReady fl (s.onlyChannels a) := by
  obtain hzero | ⟨i, hi, hcap, hroom⟩ := h
  · exact .inl hzero
  · exact .inr ⟨i, hi, hcap, hroom.mono hle⟩

/-- Settles O23: each part adds no more than the whole, so both parts complete, and in each cell the two amounts add up by
`onlyChannels_gain_add`. -/
theorem mixerIsLinear : Obligations.MixerIsLinear := by
  intro a fl s t hzero h
  obtain ⟨hc, hready, ht⟩ := exec_flush_eq_next h
  have hsum := onlyChannels_gain_add a s
  obtain ⟨ta, hta, hfa⟩ := exec_flush_next (s := s.onlyChannels a) hc
    (onlyChannels_ready hready fun k => by have := hsum k; omega)
  obtain ⟨tb, htb, hfb⟩ := exec_flush_next (s := s.onlyChannels (fun c => !a c)) hc
    (onlyChannels_ready hready fun k => by have := hsum k; omega)
  refine ⟨ta, tb, hta, onlyChannels_not a s ▸ htb, fun side j => ?_⟩
  have hs : (s.cell side j).toInt = 0 := (congrArg BitVec.toInt (hzero side j)).trans BitVec.toInt_zero
  have hcur : ∀ b, (s.onlyChannels b).cur = s.cur := fun _ => rfl
  rw [ht.cell_toInt, hfa.cell_toInt, hfb.cell_toInt, onlyChannels_cell, onlyChannels_cell, hs, hcur, hcur]
  have := hsum (j - s.cur.getD 0)
  split <;> omega

/-! ### The level of a tone -/

/-- Adding a step below 0x10000 flips bit 16 exactly on a carry out of bits 15:0. -/
theorem add_getLsbD_16 {a b : U32} (hb : b.toNat < 0x10000) :
    (a + b).getLsbD 16 = (a.getLsbD 16 ^^ decide (0x10000 ≤ a.toNat % 0x10000 + b.toNat)) := by
  have hbit : ∀ x : U32, x.getLsbD 16 = decide (x.toNat / 0x10000 % 2 = 1) := fun x => by
    rw [BitVec.getLsbD, Nat.testBit_eq_decide_div_mod_eq]
  rw [hbit, hbit, BitVec.toNat_add, Bool.eq_iff_iff, Bool.xor_iff_ne, ne_eq, decide_eq_decide, decide_eq_true_iff]
  omega

/-- Below the threshold a phase ends `n` steps on, whatever the amplitude. -/
theorem tonePhase_below {s : State} {c : ToneCh} (h : (s.cntStep.get c.chan).toNat < 0x10000) (n : Nat) :
    s.tonePhase c n = s.phaseAfter c.chan n := by
  rw [State.tonePhase, if_neg (fun hheld => by omega)]

/-- Settles O24: the flush of one sample adds the step to the phase once, and the level is bit 16 of the sum. -/
theorem toneLevelFlipsOnCarry : Obligations.ToneLevelFlipsOnCarry := by
  intro c p s t _ hbelow h
  obtain ⟨-, -, ht⟩ := exec_flush_eq_next h
  have hphase : t.counter.get c.chan = s.counter.get c.chan + s.cntStep.get c.chan := by
    rw [ht.standsAfter.tone_counter, tonePhase_below hbelow, phaseAfter_succ, phaseAfter_zero]
  rw [State.toneLevel, overflowBit, hphase, add_getLsbD_16 hbelow]
  rfl

/-- Settles O25: below the threshold both flushes leave the phase of `tonePhase_below`. -/
theorem mutingKeepsTonePhase : Obligations.MutingKeepsTonePhase := by
  intro c fl s t u hbelow ht hu
  obtain ⟨-, -, ht⟩ := exec_flush_eq_next ht
  obtain ⟨-, -, hu⟩ := exec_flush_eq_next hu
  rw [ht.standsAfter.tone_counter, hu.standsAfter.tone_counter, tonePhase_below hbelow]
  exact (tonePhase_below (s := { s with volume := s.volume.set c.chan 0 }) hbelow fl.n).symm

end Sys2Proof.Machine
end

section
/-! The bus writes of the tone registers, the DATA byte, and the repeated write (40_bus_write.md R81, R84, R86, R88, R92 to
R97). -/

namespace Sys2Proof.Machine

/-! ### The LATCH bytes of the tone registers -/

/-- Settles O28: one flush and then `latchEffect_tone`. -/
theorem latchToneWritesLowNibble : Obligations.LatchToneWritesLowNibble := fun d4 =>
  ⟨busWriteIs_of_effectOf (fun _ => rfl) (fun _ => latchEffect_tone (r := 0) (c := .t0) rfl (by decide) d4),
    busWriteIs_of_effectOf (fun _ => rfl) (fun _ => latchEffect_tone (r := 2) (c := .t1) rfl (by decide) d4)⟩

/-- Settles O29: one flush and then `latchEffect_tone2`. -/
theorem latchTone2DrivesNoiseStep : Obligations.LatchTone2DrivesNoiseStep := fun d4 =>
  busWriteIs_of_effectOf (fun _ => rfl) (fun _ => latchEffect_tone2 (r := 4) rfl d4)

/-! ### The DATA byte -/

/-- A flushing transaction whose flush is known. -/
theorem exec_of_flush {i : Instr} {fl : FlushArgs} (hf : flushArgsOf i = some fl) {s u : State}
    (hc : s.configured = true) (hu : flush fl s = .next u) : exec i s = .next (effectOf i u) := by
  rw [exec_flushing hf, whenConfigured_true hc, hu, andThen_next]

theorem target_of_latch {u : State} {r : BitVec 3} {x : Target} (h : u.latch = r) (hr : target r = x) :
    target u.latch = x := by
  rw [h, hr]

/-- Settles O32: one flush, which keeps `latch`, and then the effect of a DATA byte on the tone register it names. -/
theorem dataWritesDivisorHighBits : Obligations.DataWritesDivisorHighBits := by
  intro b6 d6 fl s hc
  refine ⟨fun f hf => flushing_fault rfl hc hf, fun hready => ?_⟩
  obtain ⟨u, -, hflushed, hexec⟩ := flushing_next (i := .data b6 d6 fl) rfl hc hready
  have heffect : ∀ v, dataEffect d6 u = v → exec (.data b6 d6 fl) s = .next v := fun v hv => by
    rw [hexec, ← hv]
    rfl
  refine ⟨u, hflushed, fun hl => ?_, fun hl => ?_, fun hl => ?_⟩
  · exact heffect _ (dataEffect_tone (c := .t0) (target_of_latch (hflushed.latch.trans hl) rfl) (by decide) d6)
  · exact heffect _ (dataEffect_tone (c := .t1) (target_of_latch (hflushed.latch.trans hl) rfl) (by decide) d6)
  · exact heffect _ (dataEffect_tone2 (target_of_latch (hflushed.latch.trans hl) rfl) d6)

/-- A DATA byte keeps `latch`. -/
theorem dataEffect_latch (d6 : BitVec 6) (s : State) : (dataEffect d6 s).latch = s.latch := by
  unfold dataEffect
  split
  · rw [dataTone, effTone_frame]
    rfl
  · rfl
  · rfl

/-- Settles O33: the flush keeps `latch`, so by `dataEffect_nibble` the DATA byte after it is the LATCH byte of that register
after the same flush. -/
theorem dataOverwritesNibble : Obligations.DataOverwritesNibble := by
  intro b6 d6 fl s hc
  refine ⟨fun f hf => flushing_fault rfl hc hf, fun hready => ?_⟩
  obtain ⟨u, hu, hflushed, hexec⟩ := flushing_next (i := .data b6 d6 fl) rfl hc hready
  have hlatch : ∀ {i r}, flushArgsOf i = some fl → effectOf i u = latchEffect r (dataNibble d6) u →
      (∀ c, target r ≠ .tone c) → s.latch = r → exec i s = .next (dataEffect d6 u) := by
    intro i r hf heffect hr hl
    obtain rfl : u.latch = r := hflushed.latch.trans hl
    rw [exec_of_flush hf hc hu, heffect, ← dataEffect_nibble hr]
  refine ⟨dataEffect d6 u, hexec, (dataEffect_latch d6 u).trans hflushed.latch, ?_, ?_, ?_, ?_, ?_⟩
  · exact hlatch rfl rfl (fun _ => nofun)
  · exact hlatch rfl rfl (fun _ => nofun)
  · exact hlatch rfl rfl (fun _ => nofun)
  · exact hlatch rfl rfl (fun _ => nofun)
  · exact hlatch rfl rfl (fun _ => nofun)

/-! ### Writing a byte again -/

theorem latchDivisor_latchDivisor (x : BitVec 10) (d4 : BitVec 4) :
    latchDivisor (latchDivisor x d4) d4 = latchDivisor x d4 := by
  rw [latchDivisor, latchDivisor, divisor_high]

theorem dataDivisor_dataDivisor (x : BitVec 10) (d6 : BitVec 6) :
    dataDivisor (dataDivisor x d6) d6 = dataDivisor x d6 := by
  rw [dataDivisor, dataDivisor, divisor_low]

theorem Regs.setTone_setTone (r : Regs) (c : ToneCh) (v w : BitVec 10) : (r.setTone c v).setTone c w = r.setTone c w := by
  cases c <;> rfl

theorem latchEffect_latchEffect (r : BitVec 3) (d4 : BitVec 4) (s : State) :
    latchEffect r d4 (latchEffect r d4 s) = latchEffect r d4 s := by
  cases h : target r with
  | tone c =>
    by_cases hc : c = .t2
    · subst hc
      rw [latchEffect_tone2 h d4 s, latchEffect_tone2 h]
      simp only [latchDivisor_latchDivisor]
      split <;> rfl
    · rw [latchEffect_tone h hc d4 s, latchEffect_tone h hc]
      simp only [Regs.tone_setTone_same, Regs.setTone_setTone, latchDivisor_latchDivisor, Quad.set_set]
      rfl
  | noise =>
    have hstep : (latchEffect r d4 s).noiseStepFor d4 = s.noiseStepFor d4 := by
      rw [latchEffect_noise h]
      exact noiseStepFor_congr rfl rfl d4
    rw [latchEffect_noise h d4 (latchEffect r d4 s), hstep, latchEffect_noise h]
    simp only [Quad.set_set]
  | vol c =>
    rw [latchEffect_vol h d4 s, latchEffect_vol h]
    simp only [Quad.set_set]
    rfl

theorem dataEffect_dataEffect (d6 : BitVec 6) (s : State) : dataEffect d6 (dataEffect d6 s) = dataEffect d6 s := by
  have hlatch : target (dataEffect d6 s).latch = target s.latch := by rw [dataEffect_latch]
  by_cases htone : ∃ c, target s.latch = .tone c
  · obtain ⟨c, h⟩ := htone
    by_cases hc : c = .t2
    · subst hc
      rw [dataEffect_tone2 (hlatch.trans h), dataEffect_tone2 h]
      simp only [dataDivisor_dataDivisor]
      split <;> rfl
    · rw [dataEffect_tone (hlatch.trans h) hc, dataEffect_tone h hc]
      simp only [Regs.tone_setTone_same, Regs.setTone_setTone, dataDivisor_dataDivisor, Quad.set_set]
      rfl
  · have hn : ∀ c, target s.latch ≠ .tone c := fun c h => htone ⟨c, h⟩
    rw [dataEffect_nibble (fun c => hlatch ▸ hn c), dataEffect_latch, dataEffect_nibble hn, latchEffect_latchEffect]

theorem byteEffect_byteEffect (b : Byte) (s : State) : byteEffect b (byteEffect b s) = byteEffect b s := by
  unfold byteEffect
  split
  · exact latchEffect_latchEffect _ _ _
  · exact dataEffect_dataEffect _ _

/-- Settles O34: the second flush has no samples and the cursor already stands at its position, and the effect of the byte
is idempotent. -/
theorem repeatedWriteChangesNothing : Obligations.RepeatedWriteChangesNothing := by
  intro b fl s t h
  obtain ⟨hc, u, -, -, hflushed, rfl⟩ := flushing_eq_next (busForm_flushArgs b fl) h
  have he := effectOf_regEffect (busForm b fl)
  have hc' : (effectOf (busForm b fl) u).configured = true := by rw [he.frame, ← hc, ← hflushed.configured]
  have hmoved : fl.p.or (effectOf (busForm b fl) u).cur = (effectOf (busForm b fl) u).cur := by
    rw [he.cur, hflushed.moved]
  have hflush : flush ⟨0, fl.p⟩ (effectOf (busForm b fl) u) = .next (effectOf (busForm b fl) u) := by
    rw [flush_none, moveCursor_of_moved hmoved]
  rw [exec_of_flush (busForm_flushArgs b ⟨0, fl.p⟩) hc' hflush, busForm_effect, busForm_effect, byteEffect_byteEffect]

end Sys2Proof.Machine
end

section
/-! CONFIG and the tables it stores (46_config_save_debug.md R175, R176; 42_tone_generator.md R110 to R113;
43_noise_generator.md R125; 41_volume_attenuator.md R100 to R104). -/

namespace Sys2Proof.Machine

/-! ### The transaction -/

theorem exec_config_eq_badConfig {c r : Int} {s : State} :
    exec (.config c r) s = .fault (.badConfig c r) ↔ ¬ configAccepts c r := by
  rw [exec, execConfig]
  split
  next h => exact ⟨(nomatch ·), fun e => absurd h e⟩
  next h => exact ⟨fun _ => h, fun _ => rfl⟩

/-- Settles O35: `configAccepts` is the condition of R176, and `CONFIG` completes or faults by it. -/
theorem configAcceptsExactly : Obligations.ConfigAcceptsExactly := fun _ _ _ =>
  ⟨exec_config_eq_badConfig,
    fun ⟨_, h⟩ => (exec_config_eq_next.mp h).1, fun h => ⟨_, exec_config_eq_next.mpr ⟨h, rfl⟩⟩⟩

/-- Settles O36: the state is `configure`, with the two values that it draws. -/
theorem configResetsPsg : Obligations.ConfigResetsPsg := by
  intro clk rate s hclk hrate hlt
  refine ⟨fun hvalid => ?_, Config.latchDraw s.draws, Config.noiseStep3Draw s.draws,
    exec_config_eq_next.mpr ⟨⟨hclk, hrate, hlt⟩, rfl⟩⟩
  obtain ⟨-, hsilent, -⟩ := volumeTableOf_admitted hvalid
  exact hsilent

/-- Settles O43: the second `CONFIG` computes the same tables from the same parameters, but for the drawn entry. -/
theorem configTwiceIsConfigOnce : Obligations.ConfigTwiceIsConfigOnce := by
  intro clk rate s t h
  obtain ⟨haccepts, rfl⟩ := exec_config_eq_next.mp h
  refine ⟨Config.latchDraw (s.draws + 1), Config.noiseStep3Draw (s.draws + 1), exec_config_eq_next.mpr ⟨haccepts, ?_⟩⟩
  have hredraw := noiseStepTableOf_redraw s.config clk.toNat rate.toNat (Config.noiseStep3Draw s.draws)
    (Config.noiseStep3Draw (s.draws + 1))
  simp only [configure]
  rw [hredraw]

/-! ### The step tables -/

/-- An entry of a divisor of 1 to 1023 as a number (R110). -/
theorem stepTableEntry_toNat {clk rate : Int} (h : configAccepts clk rate) (k : Config) {n : Nat} (hn : 1 ≤ n) :
    (stepTableEntry k clk.toNat rate.toNat n).toNat = stepEntry clk.toNat rate.toNat n := by
  rw [stepTableEntry, if_neg (by omega), BitVec.toNat_ofNat, Nat.mod_eq_of_lt (stepEntry_lt h hn)]

theorem stepEntry_eq_floor {clk rate : Int} (h : configAccepts clk rate) (n : Nat) :
    (stepEntry clk.toNat rate.toNat n : Int) = ⌊((clk : ℚ) * 65536) / (16 * (n : ℚ) * (rate : ℚ))⌋ := by
  obtain ⟨hclk, hrate, -⟩ := h
  lift clk to Nat using by omega
  lift rate to Nat using by omega
  rw [stepEntry, Int.natCast_div, ← Rat.floor_natCast_div_natCast]
  push_cast
  rfl

/-- A noise step by the formula, which 32 bits hold, as a floor (R125); `d` is the power of two of its rate select. -/
theorem ofNat_noiseStepEntry_eq_floor {clk rate : Int} (h : configAccepts clk rate) (k : Nat) {d : ℚ}
    (hd : 2 ^ (9 + k) = d) : ((BitVec.ofNat 32 (noiseStepEntry clk.toNat rate.toNat k)).toNat : Int) =
      ⌊((clk : ℚ) * 65536) / (d * (rate : ℚ))⌋ := by
  rw [BitVec.toNat_ofNat, Nat.mod_eq_of_lt (noiseStepEntry_lt h k), ← hd]
  obtain ⟨hclk, hrate, -⟩ := h
  lift clk to Nat using by omega
  lift rate to Nat using by omega
  rw [noiseStepEntry, Int.natCast_div, ← Rat.floor_natCast_div_natCast]
  push_cast
  rfl

theorem noiseStepTableOf_of_none {k : Config} (hk : k.noiseStep = none) (clk rate : Nat) (e : U32) :
    noiseStepTableOf k clk rate e = ⟨BitVec.ofNat 32 (noiseStepEntry clk rate 0), BitVec.ofNat 32 (noiseStepEntry clk rate 1),
      BitVec.ofNat 32 (noiseStepEntry clk rate 2), e⟩ := by
  simp only [noiseStepTableOf, hk]

theorem noiseStepTableOf_of_some {k : Config} {n0 n1 n2 : U32} (hk : k.noiseStep = some (n0, n1, n2)) (clk rate : Nat)
    (e : U32) : noiseStepTableOf k clk rate e = ⟨n0, n1, n2, e⟩ := by
  simp only [noiseStepTableOf, hk]

/-- What `CONFIG` stores in the three tables. -/
theorem exec_config_tables {clk rate : Int} {s t : State} (h : exec (.config clk rate) s = .next t) :
    configAccepts clk rate ∧ t.stepTable = stepTableOf s.config clk.toNat rate.toNat ∧
      t.noiseStepTable = noiseStepTableOf s.config clk.toNat rate.toNat (Config.noiseStep3Draw s.draws) ∧
      t.volumeTable = volumeTableOf s.config := by
  obtain ⟨haccepts, rfl⟩ := exec_config_eq_next.mp h
  exact ⟨haccepts, rfl, rfl, rfl⟩

/-- Settles O37: each entry of the formula is a quotient of naturals, which 32 bits hold, and that is the floor. -/
theorem configStepTablesAreFloors : Obligations.ConfigStepTablesAreFloors := by
  intro clk rate s t h
  obtain ⟨haccepts, hsteps, hnoise, -⟩ := exec_config_tables h
  refine ⟨fun hnone n hn hpos => ?_, fun hnone hdiv0 => ?_, fun hnone => ?_⟩
  · simp only [hsteps, stepTableOf_of_none hnone, stepTableByFormula_getElem]
    rw [stepTableEntry_toNat haccepts _ hpos, stepEntry_eq_floor haccepts]
  · simp only [hsteps, stepTableOf_of_none hnone, stepTableByFormula_getElem]
    simp [stepTableEntry, hdiv0]
  · rw [hnoise, noiseStepTableOf_of_none hnone]
    exact ⟨ofNat_noiseStepEntry_eq_floor haccepts 0 (by norm_num), ofNat_noiseStepEntry_eq_floor haccepts 1 (by norm_num),
      ofNat_noiseStepEntry_eq_floor haccepts 2 (by norm_num)⟩

/-- Settles O38: each table is the parameter's numbers where they are given. -/
theorem configTakesGivenTables : Obligations.ConfigTakesGivenTables := by
  intro clk rate s t h
  obtain ⟨-, hsteps, hnoise, hlevels⟩ := exec_config_tables h
  refine ⟨fun tab htab => ?_, fun tab htab => ?_, fun v hnone hv => ?_, fun n0 n1 n2 hgiven => ?_⟩
  · rw [hlevels, volumeTableOf_of_some htab]
  · rw [hsteps, stepTableOf_of_some htab]
  · simp only [hsteps, stepTableOf_of_none hnone, stepTableByFormula_getElem]
    simp [stepTableEntry, hv]
  · rw [hnoise, noiseStepTableOf_of_some hgiven]
    exact ⟨rfl, rfl, rfl⟩

/-- The entry of a divisor, 0 read as 1, as a number (R110, R111). -/
theorem stepFor_toNat {s : State} (hinv : Inv s) (hc : s.configured = true) (hnone : s.config.stepTable = none)
    (hdiv0 : s.config.stepDiv0 = none) (n : BitVec 10) :
    (s.stepFor n).toNat = stepEntry s.clockHz.toNat s.rateHz.toNat (max n.toNat 1) := by
  obtain ⟨haccepts, hsteps, -, -⟩ := hinv.tablesCurrent hc
  simp only [State.stepFor, hsteps, stepTableOf_of_none hnone, stepTableByFormula_getElem]
  by_cases hn : n.toNat = 0
  · rw [hn, stepTableEntry, if_pos rfl, hdiv0, Option.getD_none, BitVec.toNat_ofNat,
      Nat.mod_eq_of_lt (stepEntry_lt haccepts (le_refl 1))]
    rfl
  · rw [stepTableEntry_toNat haccepts _ (by omega), max_eq_left (by omega)]

/-- Settles O42: 0x10000 is at most the quotient exactly where its divisor is at most the clock. -/
theorem thresholdInClockTerms : Obligations.ThresholdInClockTerms := by
  intro s n hinv hc hnone hdiv0
  obtain ⟨⟨hclk, hrate, -⟩, -⟩ := hinv.tablesCurrent hc
  have hpos : 0 < 16 * max n.toNat 1 * s.rateHz.toNat := Nat.mul_pos (by omega) (by omega)
  have hcast : 16 * (max n.toNat 1 : Int) * s.rateHz = ((16 * max n.toNat 1 * s.rateHz.toNat : Nat) : Int) := by
    push_cast
    rw [Int.toNat_of_nonneg (by omega)]
  rw [stepFor_toNat hinv hc hnone hdiv0, stepEntry, Nat.le_div_iff_mul_le hpos, hcast]
  omega

/-! ### The volume table -/

/-- The comparison of tenth powers is the comparison of the real numbers (R100). -/
theorem levelFits_iff_le (maxOutput k v : Nat) :
    levelFits maxOutput k v ↔ (v : ℝ) ≤ ((maxOutput : ℝ) / 3) / (10 : ℝ) ^ ((k : ℝ) / 10) := by
  have hroot : ((10 : ℝ) ^ ((k : ℝ) / 10)) ^ 10 = (10 : ℝ) ^ k := by
    rw [← Real.rpow_natCast, ← Real.rpow_mul (by norm_num), ← Real.rpow_natCast]
    congr 1
    push_cast
    ring
  have hpos : 0 < (10 : ℝ) ^ ((k : ℝ) / 10) := Real.rpow_pos_of_pos (by norm_num) _
  generalize (10 : ℝ) ^ ((k : ℝ) / 10) = y at hroot hpos
  calc levelFits maxOutput k v
      ↔ (3 * (v : ℝ)) ^ 10 * 10 ^ k ≤ (maxOutput : ℝ) ^ 10 := by rw [levelFits]; exact_mod_cast Iff.rfl
    _ ↔ (3 * (v : ℝ) * y) ^ 10 ≤ (maxOutput : ℝ) ^ 10 := by rw [mul_pow _ y, hroot]
    _ ↔ 3 * (v : ℝ) * y ≤ maxOutput := pow_le_pow_iff_left₀ (by positivity) (by positivity) (by norm_num)
    _ ↔ (v : ℝ) ≤ ((maxOutput : ℝ) / 3) / y := by
      rw [le_div_iff₀ hpos, le_div_iff₀ (by norm_num : (0 : ℝ) < 3)]
      constructor <;> intro h <;> linarith

/-- The level of the digit search is the floor of the real number of R100. -/
theorem volumeLevel_eq_floor {maxOutput : Nat} (h : maxOutput < 2 ^ 32) (k : Nat) :
    (volumeLevel maxOutput k : Int) = ⌊((maxOutput : ℝ) / 3) / (10 : ℝ) ^ ((k : ℝ) / 10)⌋ := by
  obtain ⟨hfits, hnext⟩ := volumeLevel_spec maxOutput k h
  rw [levelFits_iff_le] at hfits hnext
  refine (Int.floor_eq_iff.mpr ⟨by exact_mod_cast hfits, ?_⟩).symm
  push_cast at hnext ⊢
  exact not_le.mp hnext

/-- Settles O39: the entries below 15 are the levels of the digit search, and entry 15 is zero by definition. -/
theorem configVolumeTableIsFloor : Obligations.ConfigVolumeTableIsFloor := by
  intro clk rate s t hnone h
  obtain ⟨-, -, -, hlevels⟩ := exec_config_tables h
  refine ⟨fun k hk => ?_, ?_⟩
  · simp only [hlevels, volumeTableOf_of_none hnone, volumeTableByFormula_getElem]
    rw [volumeTableEntry_toNat _ (by omega), volumeLevel_eq_floor s.config.maxOutput.isLt]
  · simp only [hlevels, volumeTableOf_of_none hnone, volumeTableByFormula_getElem, volumeTableEntry_15]

/-- Settles O40: the invariant's table is one that R102 admits. -/
theorem volumeTableNeverRises : Obligations.VolumeTableNeverRises := by
  intro s hinv hc
  obtain ⟨hanti, hsilent, hthird⟩ := hinv.volumeTable_admitted hc
  exact ⟨fun i j hi hj hij => hanti ⟨i, hi⟩ ⟨j, hj⟩ hij, hsilent, fun i hi => hthird ⟨i, hi⟩⟩

/-- Under the invariant each amplitude is an entry of the table, at most a third of full scale (R102, R103). -/
theorem Inv.volume_le {s : State} (h : Inv s) (hc : s.configured = true) (c : Chan) :
    3 * (s.volume.get c).toNat ≤ s.config.maxOutput.toNat := by
  obtain ⟨-, -, hthird⟩ := h.volumeTable_admitted hc
  obtain ⟨hvolume, -⟩ := h.derived hc
  rw [hvolume c]
  exact hthird (s.reg.vol.get c).toFin

/-- Settles O41: four times the third of 0x4FFF, rounded down. -/
theorem defaultAmplitudesFitSample : Obligations.DefaultAmplitudesFitSample := by
  intro s hinv hc hmax
  have hle := hinv.volume_le hc
  have hfull : s.config.maxOutput.toNat = 20479 := by rw [hmax]; rfl
  have h0 := hle .c0
  have h1 := hle .c1
  have h2 := hle .c2
  have h3 := hle .c3
  simp only [Quad.get_c0, Quad.get_c1, Quad.get_c2, Quad.get_c3] at h0 h1 h2 h3
  omega

end Sys2Proof.Machine
end

section
/-! SAVE, RESTORE and DBG_SETREG (46_config_save_debug.md R177 to R182, R185). -/

namespace Sys2Proof.Machine

/-! ### SAVE -/

theorem toNat_and_mask {w : Nat} (x : BitVec w) : x.toNat &&& (2 ^ w - 1) = x.toNat := by
  rw [Nat.and_two_pow_sub_one_eq_mod, Nat.mod_eq_of_lt x.isLt]

/-- The record of a state: the masks of R177 cut nothing off but bit 3 of the noise register. -/
theorem saveRecord_eq (s : State) : saveRecord s =
    { toneReg := ⟨s.reg.tone0.toNat, s.reg.tone1.toNat, s.reg.tone2.toNat, s.reg.noise.toNat % 8⟩
      volReg := ⟨s.reg.vol.q0.toNat, s.reg.vol.q1.toNat, s.reg.vol.q2.toNat, s.reg.vol.q3.toNat⟩
      toneCtr := ⟨0xFFFF, 0xFFFF, 0xFFFF, 0xFFFF⟩
      lfsrState := s.lfsr.toNat
      ggStereo := s.config.ggStereo.toNat } := by
  have htone : ∀ x : BitVec 10, x.toNat &&& 0x3FF = x.toNat := toNat_and_mask
  have hvol : ∀ x : BitVec 4, x.toNat &&& 0xF = x.toNat := toNat_and_mask
  have hnoise : s.reg.noise.toNat &&& 0x7 = s.reg.noise.toNat % 8 := Nat.and_two_pow_sub_one_eq_mod _ 3
  simp only [saveRecord, htone, hvol, hnoise]
  rfl

theorem exec_save {s : State} (hc : s.configured = true) : exec .save s = .next (s.give (.saved (saveRecord s))) := by
  rw [exec, execSave, whenConfigured_true hc]

/-- Settles O44: `SAVE` hands over the record of `saveRecord_eq`. -/
theorem saveReturnsRecord : Obligations.SaveReturnsRecord := by
  intro s hc
  rw [exec_save hc, saveRecord_eq]
  rfl

/-! ### RESTORE -/

/-- The registers that a record stands for (R179). -/
def recordRegs (r : SaveRecord) : Regs :=
  ⟨BitVec.ofNat 10 r.toneReg.q0, BitVec.ofNat 10 r.toneReg.q1, BitVec.ofNat 10 r.toneReg.q2, BitVec.ofNat 4 r.toneReg.q3,
    ⟨BitVec.ofNat 4 r.volReg.q0, BitVec.ofNat 4 r.volReg.q1, BitVec.ofNat 4 r.volReg.q2, BitVec.ofNat 4 r.volReg.q3⟩⟩

theorem ofNat_lfsrState (n : Nat) : BitVec.ofNat 16 (n &&& 0xFFFF) = BitVec.ofNat 16 n := by
  apply BitVec.eq_of_toNat_eq
  rw [show n &&& 0xFFFF = n % 2 ^ 16 from Nat.and_two_pow_sub_one_eq_mod n 16, BitVec.toNat_ofNat, BitVec.toNat_ofNat,
    Nat.mod_mod]

/-- The replay and the shift register together: the derived elements are written anew, all else of the block stays. -/
theorem restoreEffect_eq (r : SaveRecord) (u : State) : restoreEffect r u = { u with
    reg := recordRegs r, latch := 7, volume := (restoreEffect r u).volume, cntStep := (restoreEffect r u).cntStep,
    lfsr := BitVec.ofNat 16 r.lfsrState, lfsrMask := (restoreEffect r u).lfsrMask } := by
  rw [restoreEffect, ofNat_lfsrState, restoreBytes_effect]
  rfl

theorem restoreEffect_derived (r : SaveRecord) (u : State) : Derived (restoreEffect r u) := restoreBytes_derived r u

/-- Settles O45: `RESTORE` is one flush and `restoreEffect`. -/
theorem restoreSetsRegisters : Obligations.RestoreSetsRegisters := by
  intro r fl s hc
  refine ⟨fun f hf => flushing_fault rfl hc hf, fun hready => ?_⟩
  obtain ⟨u, -, hflushed, hexec⟩ := flushing_next (i := .restore r fl) rfl hc hready
  exact ⟨u, restoreEffect r u, hflushed, hexec, restoreEffect_derived r u, restoreEffect_eq r u⟩

/-- The record of a restored state is the record that was restored, cut to the significant widths. -/
theorem saveRecord_restoreEffect (r : SaveRecord) (u : State) : saveRecord (restoreEffect r u) =
    { toneReg := ⟨r.toneReg.q0 % 1024, r.toneReg.q1 % 1024, r.toneReg.q2 % 1024, r.toneReg.q3 % 8⟩
      volReg := ⟨r.volReg.q0 % 16, r.volReg.q1 % 16, r.volReg.q2 % 16, r.volReg.q3 % 16⟩
      toneCtr := ⟨0xFFFF, 0xFFFF, 0xFFFF, 0xFFFF⟩
      lfsrState := r.lfsrState % 65536
      ggStereo := u.config.ggStereo.toNat } := by
  have hnoise : r.toneReg.q3 % 16 % 8 = r.toneReg.q3 % 8 := Nat.mod_mod_of_dvd _ (by decide)
  rw [saveRecord_eq, restoreEffect_eq]
  simp only [recordRegs, BitVec.toNat_ofNat, Nat.reducePow, hnoise]

/-- Settles O48: both complete, and the record is that of `saveRecord_restoreEffect`. -/
theorem restoreThenSaveRoundTrips : Obligations.RestoreThenSaveRoundTrips := by
  intro r fl s hc hready
  obtain ⟨u, -, hflushed, hexec⟩ := flushing_next (i := .restore r fl) rfl hc hready
  have hc' : (restoreEffect r u).configured = true := by rw [restoreEffect_eq, ← hc, ← hflushed.configured]
  refine ⟨restoreEffect r u, hexec, ?_⟩
  rw [exec_save hc', saveRecord_restoreEffect, hflushed.config]
  rfl

/-! ### The round trip -/

/-- Bit 3 of the noise register selects nothing (R126, R128). -/
theorem noise_and_7 : ∀ d : BitVec 4, BitVec.ofNat 4 (d.toNat % 8) = d &&& 7 ∧ rateSelect (d &&& 7) = rateSelect d ∧
    maskFor (d &&& 7) = maskFor d := by
  decide

/-- The registers of a state's own record. -/
theorem recordRegs_saveRecord (s : State) : recordRegs (saveRecord s) = { s.reg with noise := s.reg.noise &&& 7 } := by
  obtain ⟨hnoise, -, -⟩ := noise_and_7 s.reg.noise
  rw [saveRecord_eq]
  simp only [recordRegs, hnoise, BitVec.ofNat_toNat, BitVec.setWidth_eq]

theorem quad_ext_get {α : Type} {q q' : Quad α} (h : ∀ c, q.get c = q'.get c) : q = q' := by
  obtain ⟨a0, a1, a2, a3⟩ := q
  obtain ⟨b0, b1, b2, b3⟩ := q'
  have h0 : a0 = b0 := h .c0
  have h1 : a1 = b1 := h .c1
  have h2 : a2 = b2 := h .c2
  have h3 : a3 = b3 := h .c3
  rw [h0, h1, h2, h3]

/-- Two states with the same tables, registers alike but for bit 3 of the noise register, and derived elements that agree
with the registers have the same derived elements. -/
theorem Derived.unique {s t : State} (hs : Derived s) (ht : Derived t)
    (hreg : t.reg = { s.reg with noise := s.reg.noise &&& 7 }) (hsteps : t.stepTable = s.stepTable)
    (hfixed : t.noiseStepTable = s.noiseStepTable) (hlevels : t.volumeTable = s.volumeTable) :
    t.volume = s.volume ∧ t.cntStep = s.cntStep ∧ t.lfsrMask = s.lfsrMask := by
  obtain ⟨hvolS, htoneS, hnoiseS, hmaskS⟩ := hs
  obtain ⟨hvolT, htoneT, hnoiseT, hmaskT⟩ := ht
  obtain ⟨-, hrate, hmask⟩ := noise_and_7 s.reg.noise
  have hvol : ∀ c, t.volume.get c = s.volume.get c := fun c => by
    rw [hvolT, hvolS, hreg, State.levelFor, State.levelFor, hlevels]
  have htone : ∀ c : ToneCh, t.cntStep.get c.chan = s.cntStep.get c.chan := fun c => by
    rw [htoneT, htoneS, hreg, State.stepFor, State.stepFor, hsteps]
    cases c <;> rfl
  have hq2 : t.cntStep.q2 = s.cntStep.q2 := htone .t2
  have hq3 : t.cntStep.q3 = s.cntStep.q3 := by
    rw [hnoiseT, hnoiseS, hreg, noiseStepFor_congr hfixed hq2, noiseStepFor_eq_ite, noiseStepFor_eq_ite, hrate]
  refine ⟨quad_ext_get hvol, quad_ext_get fun c => ?_, by rw [hmaskT, hmaskS, hreg, hmask]⟩
  cases c with
  | c0 => exact htone .t0
  | c1 => exact htone .t1
  | c2 => exact hq2
  | c3 => exact hq3

/-- Settles O47: the flush of no samples with the cursor as it is changes nothing, and the derived elements, which the
registers and tables determine, come back as they were. -/
theorem saveThenRestoreRoundTrips : Obligations.SaveThenRestoreRoundTrips := by
  intro s hinv hc
  refine ⟨saveRecord s, s.give (.saved (saveRecord s)), exec_save hc, rfl, ?_⟩
  have hexec : exec (.restore (saveRecord s) ⟨0, none⟩) (s.give (.saved (saveRecord s))) =
      .next (restoreEffect (saveRecord s) (s.give (.saved (saveRecord s)))) :=
    exec_of_flush (i := .restore (saveRecord s) ⟨0, none⟩) rfl hc rfl
  have hrestored := restoreEffect_eq (saveRecord s) (s.give (.saved (saveRecord s)))
  have hderived' := restoreEffect_derived (saveRecord s) (s.give (.saved (saveRecord s)))
  generalize restoreEffect (saveRecord s) (s.give (.saved (saveRecord s))) = t at hexec hrestored hderived'
  obtain ⟨hvolume, hsteps, hmask⟩ := (hinv.derived hc).unique hderived' (by rw [hrestored, ← recordRegs_saveRecord])
    (by rw [hrestored]; rfl) (by rw [hrestored]; rfl) (by rw [hrestored]; rfl)
  have hlfsr : BitVec.ofNat 16 (saveRecord s).lfsrState = s.lfsr := by
    rw [saveRecord_eq, BitVec.ofNat_toNat, BitVec.setWidth_eq]
  rw [hexec, hrestored, hvolume, hsteps, hmask, hlfsr, recordRegs_saveRecord]
  rfl

/-! ### The replay as presented bus writes -/

theorem replayLatch_eq_latchByte : ∀ r < 8, ∀ t, replayLatch r t = latchByte (BitVec.ofNat 3 r) (BitVec.ofNat 4 t) := by
  have hbyte : ∀ r < 8, ∀ m < 16,
      BitVec.ofNat 8 (0x80 ||| (r <<< 4) ||| m) = latchByte (BitVec.ofNat 3 r) (BitVec.ofNat 4 m) := by decide
  intro r hr t
  have hnibble : BitVec.ofNat 4 (t % 16) = BitVec.ofNat 4 t := BitVec.eq_of_toNat_eq (by simp)
  rw [replayLatch, show t &&& 0xF = t % 16 from Nat.and_two_pow_sub_one_eq_mod t 4,
    hbyte r hr _ (Nat.mod_lt _ (by decide)), hnibble]

theorem replayData_eq_dataByte (t : Nat) : replayData t = dataByte 0 (BitVec.ofNat 6 (t / 16)) := by
  have hbyte : ∀ m < 64, BitVec.ofNat 8 m = dataByte 0 (BitVec.ofNat 6 m) := by decide
  have hbits : BitVec.ofNat 6 (t / 16 % 64) = BitVec.ofNat 6 (t / 16) := BitVec.eq_of_toNat_eq (by simp)
  rw [replayData, Nat.shiftRight_eq_div_pow, show t / 2 ^ 4 &&& 0x3F = t / 16 % 64 from
    Nat.and_two_pow_sub_one_eq_mod _ 6, hbyte _ (Nat.mod_lt _ (by decide)), hbits]

theorem RegEffect.setPending {e : State → State} (h : RegEffect e) (s : State) (q : List Request) :
    e (s.setPending q) = (e s).setPending q := by
  have hreturned : (e s).returned = s.returned := by rw [h.frame]
  have hhost := h.host s q s.returned
  rw [← hreturned] at hhost
  exact (congrArg e (by rw [hreturned]; rfl)).trans hhost

/-- A run that begins with a step that completes. -/
theorem run_succ_of_next {M : Host.Core} {s t : M.State} (h : M.step s = .next t) (n : Nat) :
    M.run (n + 1) s = M.run n t := by
  rw [Host.Core.run, h]

theorem run_succ_of_step {s t : State} (h : step s = .next t) (n : Nat) :
    Host.Core.run Sys2Proof.core (n + 1) s = Host.Core.run Sys2Proof.core n t :=
  run_succ_of_next (M := Sys2Proof.core) h n

/-- Presented bytes with no samples, the cursor at their position: a run performs their effects in order. -/
theorem run_bytes {bytes : List Byte} {p : Option Nat} {s : State} (hc : s.configured = true)
    (hm : p.or s.cur = s.cur) (hp : s.pending = bytes.map (fun b => wrRequest b ⟨0, p⟩)) :
    Host.Core.run Sys2Proof.core bytes.length s = .next ((bytesEffect bytes s).setPending []) := by
  induction bytes generalizing s with
  | nil =>
    have hs : s.setPending [] = s := by
      rw [List.map_nil] at hp
      rw [State.setPending, ← hp]
    exact congrArg Host.Outcome.next hs.symm
  | cons b rest ih =>
    have he := byteEffect_regEffect b
    have hstep : step s = .next ((byteEffect b s).setPending (rest.map fun b => wrRequest b ⟨0, p⟩)) := by
      rw [step_of_decoded hp (decode_wrRequest b _), ← he.setPending, ← busForm_effect b ⟨0, p⟩]
      refine exec_of_flush (busForm_flushArgs b _) hc ?_
      exact congrArg Host.Outcome.next (moveCursor_of_moved hm)
    have hc' : ((byteEffect b s).setPending (rest.map fun b => wrRequest b ⟨0, p⟩)).configured = true := by
      rw [State.setPending_configured, he.frame]
      exact hc
    rw [List.length_cons, run_succ_of_step hstep, ih hc' (by rw [State.setPending_cur, he.cur, hm]) rfl,
      (bytesEffect_regEffect rest).setPending]
    rfl

/-- The same where the first byte carries the samples of the flush. -/
theorem run_flushing_bytes {b : Byte} {rest : List Byte} {fl : FlushArgs} {s u : State} (hc : s.configured = true)
    (hu : flush fl s = .next u) :
    Host.Core.run Sys2Proof.core (rest.length + 1)
      { s with pending := wrRequest b fl :: rest.map (fun b => wrRequest b ⟨0, fl.p⟩) } =
        .next ((bytesEffect (b :: rest) u).setPending []) := by
  obtain ⟨-, hflushed⟩ := flush_eq_next hu
  have he := byteEffect_regEffect b
  have hreturned : u.returned = s.returned := by rw [hflushed.1]
  generalize hq : rest.map (fun b => wrRequest b ⟨0, fl.p⟩) = q
  have hflush : flush fl (s.setPending q) = .next (u.setPending q) := by
    have hhost := flush_host hu q s.returned
    rw [← hreturned] at hhost
    rw [State.setPending, ← hreturned]
    exact hhost
  have hstep : step { s with pending := wrRequest b fl :: q } = .next ((byteEffect b u).setPending q) := by
    rw [step_of_decoded (q := wrRequest b fl) (rest := q) rfl (decode_wrRequest b fl), ← he.setPending,
      ← busForm_effect b fl]
    exact exec_of_flush (busForm_flushArgs b fl) hc hflush
  have hc' : ((byteEffect b u).setPending q).configured = true := by
    rw [State.setPending_configured, he.frame, ← hc, ← hflushed.configured]
  rw [run_succ_of_step hstep, run_bytes hc' (by rw [State.setPending_cur, he.cur, hflushed.moved]) hq.symm,
    (bytesEffect_regEffect rest).setPending]
  rfl

/-- Settles O46: the encoded instructions are the requests of the replayed bytes, and the run of those is
`run_flushing_bytes`. -/
theorem restoreReplaysElevenWrites : Obligations.RestoreReplaysElevenWrites := by
  intro r fl s t h
  obtain ⟨hc, v, hv, -, hflushed, rfl⟩ := flushing_eq_next (i := .restore r fl) rfl h
  refine ⟨(bytesEffect (restoreBytes r) v).setPending [], ?_, ?_⟩
  · refine Eq.trans ?_ (run_flushing_bytes (b := replayLatch 0 r.toneReg.q0) (rest := (restoreBytes r).tail) hc hv)
    simp only [restoreBytes, List.tail_cons, List.length_cons, List.length_nil, List.map_cons, List.map_nil,
      replayData_eq_dataByte, replayLatch_eq_latchByte 0 (by decide), replayLatch_eq_latchByte 1 (by decide),
      replayLatch_eq_latchByte 2 (by decide), replayLatch_eq_latchByte 3 (by decide), replayLatch_eq_latchByte 4 (by decide),
      replayLatch_eq_latchByte 5 (by decide), replayLatch_eq_latchByte 6 (by decide), replayLatch_eq_latchByte 7 (by decide)]
    rfl
  · have hpending : (bytesEffect (restoreBytes r) v).pending = s.pending := by
      rw [(bytesEffect_regEffect _).frame, hflushed.1]
    have heffect : effectOf (.restore r fl) v = (bytesEffect (restoreBytes r) v).setLfsr (BitVec.ofNat 16 r.lfsrState) := by
      rw [← ofNat_lfsrState]
      rfl
    rw [heffect, ← hpending]
    rfl

/-! ### DBG_SETREG -/

/-- Settles O50: outside 0..7 there is no index and the sentinel is handed over; inside there is one. -/
theorem dbgSetRegOutsideReturnsSentinel : Obligations.DbgSetRegOutsideReturnsSentinel := by
  intro s i v hc
  refine ⟨fun hout => ?_, fun hin => ?_⟩
  · rw [exec, execDbgSetReg, whenConfigured_true hc, debugIndex_eq_none hout]
    rfl
  · have hindex : debugIndex i = some (BitVec.ofNat 3 i.toNat) := if_pos hin
    rw [exec, execDbgSetReg, whenConfigured_true hc, hindex]

end Sys2Proof.Machine
end

section
/-! EXT_ADD and the drains (44_accumulator.md R145; 45_quantizer.md R160 to R164; 60_exceptions.md R201, R204). -/

namespace Sys2Proof.Machine

/-! ### EXT_ADD -/

theorem exec_extAdd_of_lt {i : Nat} {s : State} (h : i < s.config.segCap) (dL dR : Int) :
    exec (.extAdd i dL dR) s = addBoth i dL dR s := by
  rw [exec, execExtAdd, if_neg (by omega)]

/-- The cells after an addition to cell `i` of both arrays. -/
theorem addBoth_cells {i : Nat} {dL dR : Int} {s t : State} (h : addBoth i dL dR s = .next t) :
    (t.cell .left i).toInt = (s.cell .left i).toInt + dL ∧ (t.cell .right i).toInt = (s.cell .right i).toInt + dR ∧
      ∀ side j, j ≠ i → t.cell side j = s.cell side j := by
  obtain ⟨hL, hR, rfl⟩ := addBoth_eq_next.mp h
  refine ⟨?_, ?_, fun side j hj => ?_⟩
  · exact (congrArg BitVec.toInt (Memory.read_write_same _ i _)).trans (toInt_ofInt_of_inI32 hL)
  · exact (congrArg BitVec.toInt (Memory.read_write_same _ i _)).trans (toInt_ofInt_of_inI32 hR)
  · cases side <;> exact (Memory.read_write _ i j _).trans (if_neg hj)

/-- Settles O52: both sums are `i32`s, so `addBoth` completes and leaves the cells of `addBoth_cells`. -/
theorem extAddAddsToOneCell : Obligations.ExtAddAddsToOneCell := by
  intro i dL dR s hi hL hR
  have hadd := addBoth_eq_next.mpr ⟨hL, hR, rfl⟩
  obtain ⟨hleft, hright, hothers⟩ := addBoth_cells hadd
  exact ⟨_, (exec_extAdd_of_lt hi dL dR).trans hadd, hleft, hright, hothers, rfl⟩

/-- Settles O53: the index first, then the left sum, then the right sum after the left cell is written. -/
theorem extAddFaults : Obligations.ExtAddFaults := by
  intro i dL dR s
  refine ⟨fun hi => ?_, fun hi hL => ?_, fun hi hL hR => ?_⟩
  · rw [exec, execExtAdd, if_pos hi]
  · rw [exec_extAdd_of_lt hi, addBoth, addCell_of_not hL, andThen_fault]
  · refine ⟨s.setCell .left i (BitVec.ofInt 32 ((s.cell .left i).toInt + dL)), ?_, ?_, rfl⟩
    · rw [exec_extAdd_of_lt hi, addBoth, addCell_eq_next.mpr ⟨hL, rfl⟩, andThen_next, addCell_of_not]
      rw [State.cell_setCell, if_neg (fun h => nomatch h.1)]
      exact hR
    · rw [State.cell_setCell, if_pos ⟨rfl, rfl⟩, toInt_ofInt_of_inI32 hL]

/-! ### What a drain clears -/

theorem clearCells_cell (len : Nat) (s : State) (side : Side) (j : Nat) : (clearCells len s).cell side j =
    if j < len ∨ (s.config.drainClearsAll = true ∧ j < s.config.segCap) then 0 else s.cell side j := by
  have hread : (clearCells len s).cell side j =
      if j < (if s.config.drainClearsAll then max len s.config.segCap else len) then 0 else s.cell side j := by
    cases side <;> exact Memory.read_clearBelow _ _ _
  rw [hread]
  cases hall : s.config.drainClearsAll <;> simp

/-- A drain clears and hands its result over. -/
theorem drained_clearCells (len : Nat) (res : Result) (s : State) : Drained len res s ((clearCells len s).give res) :=
  ⟨fun side j => (State.give_cell _ _ side j).trans (clearCells_cell len s side j), rfl⟩

/-! ### The samples -/

theorem flatMap_pair_length {α : Type} (f g : Nat → α) (n : Nat) :
    ((List.range n).flatMap fun i => [f i, g i]).length = 2 * n := by
  simp [List.length_flatMap, Nat.mul_comm]

/-- Pairs one after another: the first of pair `i` at `2i`, the second at `2i + 1`. -/
theorem flatMap_pair_getElem? {α : Type} (f g : Nat → α) {n i : Nat} (h : i < n) :
    ((List.range n).flatMap fun i => [f i, g i])[2 * i]? = some (f i) ∧
      ((List.range n).flatMap fun i => [f i, g i])[2 * i + 1]? = some (g i) := by
  induction n with
  | zero => omega
  | succ n ih =>
    rw [List.range_succ, List.flatMap_append]
    have hlen := flatMap_pair_length f g n
    by_cases hi : i < n
    · rw [List.getElem?_append_left (by omega), List.getElem?_append_left (by omega)]
      exact ih hi
    · obtain rfl : i = n := by omega
      rw [List.getElem?_append_right (by omega), List.getElem?_append_right (by omega), hlen, Nat.sub_self,
        Nat.add_sub_cancel_left]
      exact ⟨rfl, rfl⟩

/-- Settles O55: the samples are pairs, each clamped, and the drain clears by `drained_clearCells`. -/
theorem drainStereoSaturatesAndClears : Obligations.DrainStereoSaturatesAndClears := by
  intro len s hlen
  refine ⟨_, stereoSamples s len, ?_, drained_clearCells len _ s, flatMap_pair_length _ _ len, fun i hi => ?_⟩
  · rw [exec, execDrainStereo, if_neg (by omega)]
  · rw [← sat16_eq_clamp16, ← sat16_eq_clamp16]
    exact flatMap_pair_getElem? _ _ hi

theorem firstMonoOverflow_eq_some {s : State} {len i : Nat} : firstMonoOverflow s len = some i ↔
    i < len ∧ ¬ inI32 (s.monoSum i) ∧ ∀ j, j < i → inI32 (s.monoSum j) := by
  rw [firstMonoOverflow, List.find?_range_eq_some]
  simp only [decide_eq_true_eq, List.mem_range, Bool.not_eq_true', decide_eq_false_iff_not, not_not]
  tauto

theorem firstMonoOverflow_eq_none {s : State} {len : Nat} (h : ∀ i, i < len → inI32 (s.monoSum i)) :
    firstMonoOverflow s len = none := by
  cases hf : firstMonoOverflow s len with
  | none => rfl
  | some i =>
    obtain ⟨hi, hbad, -⟩ := firstMonoOverflow_eq_some.mp hf
    exact absurd (h i hi) hbad

/-- Settles O56: no sum leaves `i32`, so the drain completes, and halving towards minus infinity is the floor. -/
theorem drainMonoHalvesThenSaturates : Obligations.DrainMonoHalvesThenSaturates := by
  intro len s hlen hsums
  refine ⟨_, monoSamples s len, ?_, drained_clearCells len _ s, by simp [monoSamples], fun i hi => ?_⟩
  · rw [exec, execDrainMono, if_neg (by omega), firstMonoOverflow_eq_none hsums]
  · have hhalf : ⌊((s.monoSum i : Int) : ℚ) / 2⌋ = s.monoSum i / 2 := Rat.floor_intCast_div_natCast (s.monoSum i) 2
    have hsample : (monoSamples s len)[i]? = some (sat16 (s.monoSum i / 2)) := by simp [monoSamples, hi]
    rw [hsample, sat16_eq_clamp16, ← hhalf]
    rfl

/-- Settles O57: the length first, and then for the mono drain the cell that `firstMonoOverflow` finds. -/
theorem drainFaults : Obligations.DrainFaults := by
  intro len s
  refine ⟨fun hlen => ⟨?_, ?_⟩, fun i => ?_⟩
  · rw [exec, execDrainStereo, if_pos hlen]
  · rw [exec, execDrainMono, if_pos hlen]
  · rw [exec, execDrainMono]
    split
    next hlen => exact ⟨(nomatch ·), fun h => absurd h.1 (by omega)⟩
    next hlen =>
      have hfirst : firstMonoOverflow s len = some i ↔ len ≤ s.config.segCap ∧ i < len ∧ ¬ inI32 (s.monoSum i) ∧
          ∀ j, j < i → inI32 (s.monoSum j) := by
        rw [firstMonoOverflow_eq_some]
        exact ⟨fun h => ⟨by omega, h⟩, fun h => h.2⟩
      refine Iff.trans ?_ hfirst
      split
      next k hk => rw [hk]; exact ⟨fun h => by cases h; rfl, fun h => by cases h; rfl⟩
      next hnone => rw [hnone]; exact ⟨(nomatch ·), (nomatch ·)⟩

end Sys2Proof.Machine
end
